-- ==== Sys2Proof/Word.lean ====
section
/-! DEFINITION. The word types of the machine (spec 00_scope R6, 10_state R21): words, halfwords and bytes are
bit patterns; arithmetic on them is modulo a power of two. -/

namespace Sys2Proof

/-- A 32-bit word: a general register, an address, an instruction (R6). -/
abbrev Word := BitVec 32

/-- A halfword, 16 bits (R6). -/
abbrev Half := BitVec 16

/-- A byte, 8 bits (R6). -/
abbrev Byte := BitVec 8

/-- The number of a general or control register as a 5-bit instruction field names it (R21, R29). -/
abbrev Reg := BitVec 5

/-- An exception code, the 5 bits of `Cause.ExcCode` (10_state R35). -/
abbrev ExcCode := BitVec 5

/-- The number of an aligned physical word: a physical address without its low two bits (20_memory R60). -/
abbrev WordIndex := BitVec 30

end Sys2Proof
end

