-- ==== Sys2Proof/Config.lean ====
section
/-! DEFINITION. What the sources leave open: the parameters that 00_scope R5 says the model takes as arguments
(92_eei_decisions D1 to D14), as plain data, and the free values (`any32` of 00_scope R7, and the content of memory
that nothing has written, 93 A15). Which values the parameters have at reset stands in Machine/ResetValues.lean. -/

namespace Sys2Proof

/-- OVERFLOW_POLICY (D2): what ADD, ADDI and SUB do when the signed result does not fit. -/
inductive OverflowPolicy where
  /-- the default: the model stops with `SignedOverflow` -/
  | refuse
  /-- the result wraps modulo 2^32 -/
  | wrap
  /-- an exception with the given code is taken -/
  | trap (code : ExcCode)
deriving DecidableEq, Repr

/-- ALIGN_POLICY (D3): what a misaligned LH, LHU, SH, LW or SW does. -/
inductive AlignPolicy where
  /-- the default: the model stops with `MisalignedAccess` -/
  | refuse
  /-- an exception with the given code is taken -/
  | trap (code : ExcCode)
  /-- the low address bits are cleared and the access is made -/
  | forceAlign
deriving DecidableEq, Repr

/-- RESERVED_POLICY (D4, D5): what a reserved instruction word does. -/
inductive ReservedPolicy where
  /-- the default: the model stops with `ReservedEncoding` -/
  | refuse
  /-- an exception with the given code is taken -/
  | trap (code : ExcCode)
  /-- the word has no effect but `AdvanceSeq` -/
  | nop
deriving DecidableEq, Repr

/-- How a word is decoded that selects an instruction but has a non-zero must-be-zero field (D5). -/
inductive MustBeZeroPolicy where
  /-- the default, the strict decoder (`mask`): the word is a reserved encoding -/
  | reserved
  /-- the loose decoder (`loose_mask`): the field is ignored -/
  | ignored
deriving DecidableEq, Repr

/-- CREG_POLICY (D13): what MTC0 to BadVaddr, Cause or EPC does. -/
inductive CregPolicy where
  /-- the default: the model stops with `ReadOnlyControlRegister` -/
  | refuse
  /-- a plain write -/
  | writable
deriving DecidableEq, Repr

/-- INT_PRIORITY (D8): which event wins when an interrupt is pending and the instruction at `pc` would itself raise. -/
inductive IntPriority where
  /-- the sound choice: either, by a free value -/
  | both
  /-- the default of a deterministic simulator -/
  | interruptFirst
  | instructionFirst
deriving DecidableEq, Repr

/-- What the platform has at a physical address (20_memory R78, D12). An address in no region has nothing. -/
inductive PhysKind where
  | ram
  | rom
  | device
deriving DecidableEq, Repr

/-- A stretch of the physical map, from its first to its last aligned word, both included (D12; log 7). -/
structure Region where
  first : WordIndex
  last  : WordIndex
  kind  : PhysKind
deriving DecidableEq, Repr

/-- The parameters of 00_scope R5. No step changes them; what is proved for every state is proved for every value
of them. -/
structure Params where
  /-- EXC_SYSCALL (D1) -/
  excSyscall  : ExcCode
  /-- EXC_BREAK (D1) -/
  excBreak    : ExcCode
  overflow    : OverflowPolicy
  align       : AlignPolicy
  reserved    : ReservedPolicy
  mustBeZero  : MustBeZeroPolicy
  creg        : CregPolicy
  intPriority : IntPriority
  /-- STRICT_CACHE (D11) -/
  strictCache : Bool
  /-- PhysMap (D12): the first region that holds an address says what it is -/
  physMap     : List Region
deriving DecidableEq, Repr

/-- The constraint D1 puts on the two open exception codes: both differ from 0, from 1 and from each other. -/
def Params.codesDistinct (p : Params) : Bool :=
  p.excSyscall != 0#5 && p.excSyscall != 1#5 && p.excBreak != 0#5 && p.excBreak != 1#5 &&
    p.excSyscall != p.excBreak

/-- `any32` (00_scope R7): the 32-bit values the sources do not determine, numbered by the state's draw counter.
No body: nothing in Lean can evaluate one or prove its value (log 10). -/
opaque Config.any32 : Nat → Word

/-- What a byte of RAM or ROM at the given physical address holds before anything has written it (93 A15): free, one
value for each address (log 6). -/
opaque Config.powerOnByte : Nat → Byte

end Sys2Proof
end

