-- ==== Sys2Proof/Syntax.lean ====
section
/-! DEFINITION. The 63 instructions (spec 30_encoding R116 to R119, opcode_table.json), one constructor for each row,
operands in the order of the assembler syntax of R123. An immediate, a shift amount, a jump index and a code are kept as
the bits of their field. -/

namespace Sys2Proof

inductive Instr where
  -- loads and stores, 40_load_store R141 to R152
  | lb  (rt rs : Reg) (imm : BitVec 16)
  | lbu (rt rs : Reg) (imm : BitVec 16)
  | sb  (rt rs : Reg) (imm : BitVec 16)
  | lh  (rt rs : Reg) (imm : BitVec 16)
  | lhu (rt rs : Reg) (imm : BitVec 16)
  | sh  (rt rs : Reg) (imm : BitVec 16)
  | lw  (rt rs : Reg) (imm : BitVec 16)
  | sw  (rt rs : Reg) (imm : BitVec 16)
  | lwl (rt rs : Reg) (imm : BitVec 16)
  | lwr (rt rs : Reg) (imm : BitVec 16)
  | swl (rt rs : Reg) (imm : BitVec 16)
  | swr (rt rs : Reg) (imm : BitVec 16)
  -- ALU with an immediate, 41_alu_immediate R160 to R167
  | addi  (rt rs : Reg) (imm : BitVec 16)
  | addiu (rt rs : Reg) (imm : BitVec 16)
  | slti  (rt rs : Reg) (imm : BitVec 16)
  | sltiu (rt rs : Reg) (imm : BitVec 16)
  | andi  (rt rs : Reg) (imm : BitVec 16)
  | ori   (rt rs : Reg) (imm : BitVec 16)
  | xori  (rt rs : Reg) (imm : BitVec 16)
  | lui   (rt : Reg) (imm : BitVec 16)
  -- ALU with three operands, 42_alu_three_operand R170 to R179
  | add  (rd rs rt : Reg)
  | addu (rd rs rt : Reg)
  | sub  (rd rs rt : Reg)
  | subu (rd rs rt : Reg)
  | slt  (rd rs rt : Reg)
  | sltu (rd rs rt : Reg)
  | and  (rd rs rt : Reg)
  | or   (rd rs rt : Reg)
  | xor  (rd rs rt : Reg)
  | nor  (rd rs rt : Reg)
  -- shifts, 43_shift R185 to R190
  | sll  (rd rt : Reg) (shamt : BitVec 5)
  | srl  (rd rt : Reg) (shamt : BitVec 5)
  | sra  (rd rt : Reg) (shamt : BitVec 5)
  | sllv (rd rt rs : Reg)
  | srlv (rd rt rs : Reg)
  | srav (rd rt rs : Reg)
  -- multiply and divide, 44_multiply_divide R195 to R202
  | mult  (rs rt : Reg)
  | multu (rs rt : Reg)
  | div   (rs rt : Reg)
  | divu  (rs rt : Reg)
  | mfhi  (rd : Reg)
  | mthi  (rs : Reg)
  | mflo  (rd : Reg)
  | mtlo  (rs : Reg)
  -- jumps and branches, 45_jump_branch R210 to R217, R220 to R223
  | j    (index : BitVec 26)
  | jal  (index : BitVec 26)
  | jr   (rs : Reg)
  | jalr (rd rs : Reg)
  | beq  (rs rt : Reg) (imm : BitVec 16)
  | bne  (rs rt : Reg) (imm : BitVec 16)
  | blez (rs : Reg) (imm : BitVec 16)
  | bgtz (rs : Reg) (imm : BitVec 16)
  | bltz (rs : Reg) (imm : BitVec 16)
  | bgez (rs : Reg) (imm : BitVec 16)
  | bltzal (rs : Reg) (imm : BitVec 16)
  | bgezal (rs : Reg) (imm : BitVec 16)
  -- exception instructions, 46_exception_instructions R230, R231
  | syscall (code : BitVec 20)
  | brk     (code : BitVec 20)
  -- control instructions, 47_control R235 to R239
  | mfc0 (rt rd : Reg)
  | mtc0 (rt rd : Reg)
  | tlbr
  | tlbwi
  | rfe
deriving DecidableEq, Repr

end Sys2Proof
end

