-- ==== Sys2Proof/WellFormed.lean ====
section
/-! DEFINITION. The checks on an instruction that the widths of its fields do not make by themselves. -/

namespace Sys2Proof

/-- The seven control-register numbers that name a register (10_state R29, R37). -/
def namesControlRegister (c : Reg) : Bool :=
  c == 0#5 || c == 2#5 || c == 9#5 || c == 10#5 || c == 12#5 || c == 13#5 || c == 14#5

/-- An instruction is well formed when the control register it names exists (R37). Every other instruction is well
formed: "Every instruction with a register operand may name any of the 32 in any register field" (R21). -/
def Instr.wellFormed : Instr → Bool
  | .mfc0 _ rd | .mtc0 _ rd => namesControlRegister rd
  | .lb .. | .lbu .. | .sb .. | .lh .. | .lhu .. | .sh .. | .lw .. | .sw .. | .lwl .. | .lwr .. | .swl .. | .swr ..
  | .addi .. | .addiu .. | .slti .. | .sltiu .. | .andi .. | .ori .. | .xori .. | .lui ..
  | .add .. | .addu .. | .sub .. | .subu .. | .slt .. | .sltu .. | .and .. | .or .. | .xor .. | .nor ..
  | .sll .. | .srl .. | .sra .. | .sllv .. | .srlv .. | .srav ..
  | .mult .. | .multu .. | .div .. | .divu .. | .mfhi .. | .mthi .. | .mflo .. | .mtlo ..
  | .j .. | .jal .. | .jr .. | .jalr .. | .beq .. | .bne .. | .blez .. | .bgtz .. | .bltz .. | .bgez ..
  | .bltzal .. | .bgezal .. | .syscall .. | .brk .. | .tlbr | .tlbwi | .rfe => true

/-- What software must keep to so that re-executing a jump or branch after an exception in its delay slot repeats it:
JALR with `rd` other than `rs` (45_jump_branch R213), BLTZAL and BGEZAL with `rs` other than 31 (R222, R223). The
machine runs the others too; this check is software's, and no meaning reads it. -/
def Instr.restartable : Instr → Bool
  | .jalr rd rs => rd != rs
  | .bltzal rs _ | .bgezal rs _ => rs != 31#5
  | .lb .. | .lbu .. | .sb .. | .lh .. | .lhu .. | .sh .. | .lw .. | .sw .. | .lwl .. | .lwr .. | .swl .. | .swr ..
  | .addi .. | .addiu .. | .slti .. | .sltiu .. | .andi .. | .ori .. | .xori .. | .lui ..
  | .add .. | .addu .. | .sub .. | .subu .. | .slt .. | .sltu .. | .and .. | .or .. | .xor .. | .nor ..
  | .sll .. | .srl .. | .sra .. | .sllv .. | .srlv .. | .srav ..
  | .mult .. | .multu .. | .div .. | .divu .. | .mfhi .. | .mthi .. | .mflo .. | .mtlo ..
  | .j .. | .jal .. | .jr .. | .beq .. | .bne .. | .blez .. | .bgtz .. | .bltz .. | .bgez ..
  | .syscall .. | .brk .. | .mfc0 .. | .mtc0 .. | .tlbr | .tlbwi | .rfe => true

end Sys2Proof
end

