-- ==== Sys2Proof/Decode.lean ====
section
/-! DEFINITION. The decoder and, after it, the encoder (spec 30_encoding R110 to R121). Decoding a word selects an
instruction by R115 and then checks the must-be-zero fields of R120; a word that fails either is a reserved encoding
(R121), answered by name. -/

namespace Sys2Proof

/-! ## The fields of an instruction word (R111, R112) -/

def fieldOpcode (w : Word) : BitVec 6 := w.extractLsb' 26 6
def fieldRs (w : Word) : Reg := w.extractLsb' 21 5
def fieldRt (w : Word) : Reg := w.extractLsb' 16 5
def fieldRd (w : Word) : Reg := w.extractLsb' 11 5
def fieldShamt (w : Word) : BitVec 5 := w.extractLsb' 6 5
def fieldFunct (w : Word) : BitVec 6 := w.extractLsb' 0 6
def fieldImm (w : Word) : BitVec 16 := w.extractLsb' 0 16
def fieldIndex (w : Word) : BitVec 26 := w.extractLsb' 0 26
def fieldCode (w : Word) : BitVec 20 := w.extractLsb' 6 20

/-! ## Selecting the instruction (R115) -/

/-- Opcode SPECIAL: select by the function field (R117). -/
def selectSpecial (w : Word) : Option Instr :=
  match (fieldFunct w).toNat with
  | 0  => some (.sll (fieldRd w) (fieldRt w) (fieldShamt w))
  | 2  => some (.srl (fieldRd w) (fieldRt w) (fieldShamt w))
  | 3  => some (.sra (fieldRd w) (fieldRt w) (fieldShamt w))
  | 4  => some (.sllv (fieldRd w) (fieldRt w) (fieldRs w))
  | 6  => some (.srlv (fieldRd w) (fieldRt w) (fieldRs w))
  | 7  => some (.srav (fieldRd w) (fieldRt w) (fieldRs w))
  | 8  => some (.jr (fieldRs w))
  | 9  => some (.jalr (fieldRd w) (fieldRs w))
  | 12 => some (.syscall (fieldCode w))
  | 13 => some (.brk (fieldCode w))
  | 16 => some (.mfhi (fieldRd w))
  | 17 => some (.mthi (fieldRs w))
  | 18 => some (.mflo (fieldRd w))
  | 19 => some (.mtlo (fieldRs w))
  | 24 => some (.mult (fieldRs w) (fieldRt w))
  | 25 => some (.multu (fieldRs w) (fieldRt w))
  | 26 => some (.div (fieldRs w) (fieldRt w))
  | 27 => some (.divu (fieldRs w) (fieldRt w))
  | 32 => some (.add (fieldRd w) (fieldRs w) (fieldRt w))
  | 33 => some (.addu (fieldRd w) (fieldRs w) (fieldRt w))
  | 34 => some (.sub (fieldRd w) (fieldRs w) (fieldRt w))
  | 35 => some (.subu (fieldRd w) (fieldRs w) (fieldRt w))
  | 36 => some (.and (fieldRd w) (fieldRs w) (fieldRt w))
  | 37 => some (.or (fieldRd w) (fieldRs w) (fieldRt w))
  | 38 => some (.xor (fieldRd w) (fieldRs w) (fieldRt w))
  | 39 => some (.nor (fieldRd w) (fieldRs w) (fieldRt w))
  | 42 => some (.slt (fieldRd w) (fieldRs w) (fieldRt w))
  | 43 => some (.sltu (fieldRd w) (fieldRs w) (fieldRt w))
  | _  => none

/-- Opcode REGIMM: select by the rt field (R118). -/
def selectRegimm (w : Word) : Option Instr :=
  match (fieldRt w).toNat with
  | 0  => some (.bltz (fieldRs w) (fieldImm w))
  | 1  => some (.bgez (fieldRs w) (fieldImm w))
  | 16 => some (.bltzal (fieldRs w) (fieldImm w))
  | 17 => some (.bgezal (fieldRs w) (fieldImm w))
  | _  => none

/-- Opcode COP0: select by the rs field and, when it is 16, by the function field (R115, R119). -/
def selectCop0 (w : Word) : Option Instr :=
  match (fieldRs w).toNat with
  | 0  => some (.mfc0 (fieldRt w) (fieldRd w))
  | 4  => some (.mtc0 (fieldRt w) (fieldRd w))
  | 16 =>
    match (fieldFunct w).toNat with
    | 1  => some .tlbr
    | 2  => some .tlbwi
    | 16 => some .rfe
    | _  => none
  | _  => none

/-- Which of the 63 instructions a word selects, its must-be-zero fields not looked at (R115, R116): the loose decoder
of D5. -/
def selectInstr (w : Word) : Option Instr :=
  match (fieldOpcode w).toNat with
  | 0  => selectSpecial w
  | 1  => selectRegimm w
  | 2  => some (.j (fieldIndex w))
  | 3  => some (.jal (fieldIndex w))
  | 4  => some (.beq (fieldRs w) (fieldRt w) (fieldImm w))
  | 5  => some (.bne (fieldRs w) (fieldRt w) (fieldImm w))
  | 6  => some (.blez (fieldRs w) (fieldImm w))
  | 7  => some (.bgtz (fieldRs w) (fieldImm w))
  | 8  => some (.addi (fieldRt w) (fieldRs w) (fieldImm w))
  | 9  => some (.addiu (fieldRt w) (fieldRs w) (fieldImm w))
  | 10 => some (.slti (fieldRt w) (fieldRs w) (fieldImm w))
  | 11 => some (.sltiu (fieldRt w) (fieldRs w) (fieldImm w))
  | 12 => some (.andi (fieldRt w) (fieldRs w) (fieldImm w))
  | 13 => some (.ori (fieldRt w) (fieldRs w) (fieldImm w))
  | 14 => some (.xori (fieldRt w) (fieldRs w) (fieldImm w))
  | 15 => some (.lui (fieldRt w) (fieldImm w))
  | 16 => selectCop0 w
  | 32 => some (.lb (fieldRt w) (fieldRs w) (fieldImm w))
  | 33 => some (.lh (fieldRt w) (fieldRs w) (fieldImm w))
  | 34 => some (.lwl (fieldRt w) (fieldRs w) (fieldImm w))
  | 35 => some (.lw (fieldRt w) (fieldRs w) (fieldImm w))
  | 36 => some (.lbu (fieldRt w) (fieldRs w) (fieldImm w))
  | 37 => some (.lhu (fieldRt w) (fieldRs w) (fieldImm w))
  | 38 => some (.lwr (fieldRt w) (fieldRs w) (fieldImm w))
  | 40 => some (.sb (fieldRt w) (fieldRs w) (fieldImm w))
  | 41 => some (.sh (fieldRt w) (fieldRs w) (fieldImm w))
  | 42 => some (.swl (fieldRt w) (fieldRs w) (fieldImm w))
  | 43 => some (.sw (fieldRt w) (fieldRs w) (fieldImm w))
  | 46 => some (.swr (fieldRt w) (fieldRs w) (fieldImm w))
  | _  => none

/-! ## The must-be-zero fields (R120) -/

/-- Whether the fields that R120 says must be zero for this instruction are zero in a word. -/
def Instr.fieldsZero (w : Word) : Instr → Bool
  | .lui .. => fieldRs w == 0#5
  | .sll .. | .srl .. | .sra .. => fieldRs w == 0#5
  | .sllv .. | .srlv .. | .srav .. => fieldShamt w == 0#5
  | .add .. | .addu .. | .sub .. | .subu .. | .slt .. | .sltu .. | .and .. | .or .. | .xor .. | .nor .. =>
    fieldShamt w == 0#5
  | .mult .. | .multu .. | .div .. | .divu .. => fieldRd w == 0#5 && fieldShamt w == 0#5
  | .mfhi .. | .mflo .. => fieldRs w == 0#5 && fieldRt w == 0#5 && fieldShamt w == 0#5
  | .mthi .. | .mtlo .. => fieldRt w == 0#5 && fieldRd w == 0#5 && fieldShamt w == 0#5
  | .jr .. => fieldRt w == 0#5 && fieldRd w == 0#5 && fieldShamt w == 0#5
  | .jalr .. => fieldRt w == 0#5 && fieldShamt w == 0#5
  | .blez .. | .bgtz .. => fieldRt w == 0#5
  | .mfc0 .. | .mtc0 .. => fieldShamt w == 0#5 && fieldFunct w == 0#6
  | .tlbr | .tlbwi | .rfe => fieldRt w == 0#5 && fieldRd w == 0#5 && fieldShamt w == 0#5
  | .lb .. | .lbu .. | .sb .. | .lh .. | .lhu .. | .sh .. | .lw .. | .sw .. | .lwl .. | .lwr .. | .swl .. | .swr ..
  | .addi .. | .addiu .. | .slti .. | .sltiu .. | .andi .. | .ori .. | .xori ..
  | .j .. | .jal .. | .beq .. | .bne .. | .bltz .. | .bgez .. | .bltzal .. | .bgezal ..
  | .syscall .. | .brk .. => true

/-! ## The decoder -/

/-- Why a word is a reserved encoding (R121). -/
inductive Reserved where
  /-- the word selects no instruction (D4) -/
  | unassigned
  /-- the word selects `i`, but a field that must be zero is not (D5) -/
  | fieldNotZero (i : Instr)
deriving DecidableEq, Repr

/-- The decoding procedure of R115: total, and every word that is not an instruction is refused by name. -/
def decode (w : Word) : Except Reserved Instr :=
  match selectInstr w with
  | none => .error .unassigned
  | some i => if i.fieldsZero w then .ok i else .error (.fieldNotZero i)

/-- The word that four bytes in memory hold, the first at the lowest address: little endian (20_memory R61, R62). -/
def wordOfBytes (b0 b1 b2 b3 : Byte) : Word := b3 ++ b2 ++ b1 ++ b0

/-- Decode the instruction at the head of a list of bytes; the rest of the list comes back with it. `none` where fewer
than four bytes are left or the word is a reserved encoding. -/
def decodeBytes : List Byte → Option (Instr × List Byte)
  | b0 :: b1 :: b2 :: b3 :: rest =>
    match decode (wordOfBytes b0 b1 b2 b3) with
    | .ok i => some (i, rest)
    | .error _ => none
  | _ => none

/-- Byte `k` of a word: bits `8k+7` to `8k` (20_memory R61). -/
def byteOf (w : Word) (k : Nat) : Byte := w.extractLsb' (8 * k) 8

/-- The bytes of an instruction word in the order the memory stores them (R62). -/
def bytesOfWord (w : Word) : List Byte := [byteOf w 0, byteOf w 1, byteOf w 2, byteOf w 3]

/-- What the decoder reads from an instruction whose bits are `w`, numbered from bit 0 of the word, every bit at or
above `nbits` being 0. -/
def decodeTableWord (nbits w : Nat) : Option Instr :=
  (decodeBytes (bytesOfWord (BitVec.ofNat 32 (w % 2 ^ nbits)))).map Prod.fst

/-! ## The encoder -/

/-- An R-TYPE word (R111). -/
def rType (op : BitVec 6) (rs rt rd : Reg) (shamt : BitVec 5) (funct : BitVec 6) : Word :=
  op ++ rs ++ rt ++ rd ++ shamt ++ funct

/-- An I-TYPE word (R111). -/
def iType (op : BitVec 6) (rs rt : Reg) (imm : BitVec 16) : Word := op ++ rs ++ rt ++ imm

/-- A J-TYPE word (R111). -/
def jType (op : BitVec 6) (index : BitVec 26) : Word := op ++ index

/-- A word of the exception-instruction variant of R-TYPE (R112). -/
def codeType (code : BitVec 20) (funct : BitVec 6) : Word := (0#6 : BitVec 6) ++ code ++ funct

/-- The word of an instruction, from the tables R116 to R119 with every must-be-zero field of R120 zero. -/
def encode : Instr → Word
  | .lb rt rs imm => iType 32#6 rs rt imm
  | .lbu rt rs imm => iType 36#6 rs rt imm
  | .sb rt rs imm => iType 40#6 rs rt imm
  | .lh rt rs imm => iType 33#6 rs rt imm
  | .lhu rt rs imm => iType 37#6 rs rt imm
  | .sh rt rs imm => iType 41#6 rs rt imm
  | .lw rt rs imm => iType 35#6 rs rt imm
  | .sw rt rs imm => iType 43#6 rs rt imm
  | .lwl rt rs imm => iType 34#6 rs rt imm
  | .lwr rt rs imm => iType 38#6 rs rt imm
  | .swl rt rs imm => iType 42#6 rs rt imm
  | .swr rt rs imm => iType 46#6 rs rt imm
  | .addi rt rs imm => iType 8#6 rs rt imm
  | .addiu rt rs imm => iType 9#6 rs rt imm
  | .slti rt rs imm => iType 10#6 rs rt imm
  | .sltiu rt rs imm => iType 11#6 rs rt imm
  | .andi rt rs imm => iType 12#6 rs rt imm
  | .ori rt rs imm => iType 13#6 rs rt imm
  | .xori rt rs imm => iType 14#6 rs rt imm
  | .lui rt imm => iType 15#6 0#5 rt imm
  | .add rd rs rt => rType 0#6 rs rt rd 0#5 32#6
  | .addu rd rs rt => rType 0#6 rs rt rd 0#5 33#6
  | .sub rd rs rt => rType 0#6 rs rt rd 0#5 34#6
  | .subu rd rs rt => rType 0#6 rs rt rd 0#5 35#6
  | .slt rd rs rt => rType 0#6 rs rt rd 0#5 42#6
  | .sltu rd rs rt => rType 0#6 rs rt rd 0#5 43#6
  | .and rd rs rt => rType 0#6 rs rt rd 0#5 36#6
  | .or rd rs rt => rType 0#6 rs rt rd 0#5 37#6
  | .xor rd rs rt => rType 0#6 rs rt rd 0#5 38#6
  | .nor rd rs rt => rType 0#6 rs rt rd 0#5 39#6
  | .sll rd rt shamt => rType 0#6 0#5 rt rd shamt 0#6
  | .srl rd rt shamt => rType 0#6 0#5 rt rd shamt 2#6
  | .sra rd rt shamt => rType 0#6 0#5 rt rd shamt 3#6
  | .sllv rd rt rs => rType 0#6 rs rt rd 0#5 4#6
  | .srlv rd rt rs => rType 0#6 rs rt rd 0#5 6#6
  | .srav rd rt rs => rType 0#6 rs rt rd 0#5 7#6
  | .mult rs rt => rType 0#6 rs rt 0#5 0#5 24#6
  | .multu rs rt => rType 0#6 rs rt 0#5 0#5 25#6
  | .div rs rt => rType 0#6 rs rt 0#5 0#5 26#6
  | .divu rs rt => rType 0#6 rs rt 0#5 0#5 27#6
  | .mfhi rd => rType 0#6 0#5 0#5 rd 0#5 16#6
  | .mthi rs => rType 0#6 rs 0#5 0#5 0#5 17#6
  | .mflo rd => rType 0#6 0#5 0#5 rd 0#5 18#6
  | .mtlo rs => rType 0#6 rs 0#5 0#5 0#5 19#6
  | .j index => jType 2#6 index
  | .jal index => jType 3#6 index
  | .jr rs => rType 0#6 rs 0#5 0#5 0#5 8#6
  | .jalr rd rs => rType 0#6 rs 0#5 rd 0#5 9#6
  | .beq rs rt imm => iType 4#6 rs rt imm
  | .bne rs rt imm => iType 5#6 rs rt imm
  | .blez rs imm => iType 6#6 rs 0#5 imm
  | .bgtz rs imm => iType 7#6 rs 0#5 imm
  | .bltz rs imm => iType 1#6 rs 0#5 imm
  | .bgez rs imm => iType 1#6 rs 1#5 imm
  | .bltzal rs imm => iType 1#6 rs 16#5 imm
  | .bgezal rs imm => iType 1#6 rs 17#5 imm
  | .syscall code => codeType code 12#6
  | .brk code => codeType code 13#6
  | .mfc0 rt rd => rType 16#6 0#5 rt rd 0#5 0#6
  | .mtc0 rt rd => rType 16#6 4#5 rt rd 0#5 0#6
  | .tlbr => rType 16#6 16#5 0#5 0#5 0#5 1#6
  | .tlbwi => rType 16#6 16#5 0#5 0#5 0#5 2#6
  | .rfe => rType 16#6 16#5 0#5 0#5 0#5 16#6

end Sys2Proof
end

