-- ==== Sys2Proof/Machine/ResetValues.lean ====
section
/-! DEFINITION. The addresses the hardware fixes (spec 60_exceptions R256) and the value of everything at reset: what
10_state R43 states, and, where it states nothing, the value the model names in its log. -/

namespace Sys2Proof.Machine

/-- The reset vector, logical (60_exceptions R256, 70_reset R290). -/
def resetVector : Word := 0xBFC00000#32

/-- The vector of every exception but reset, logical (60_exceptions R256). -/
def exceptionVector : Word := 0xBFC00180#32

/-- General registers 1 to 31, HI and LO at power-on. DESIGN CHOICE, unsafe: R43 leaves them unspecified (log 3). -/
def initialWord : Word := 0#32

/-- The live fields of Index, EntryLo, EntryHi, BadVaddr, Cause and EPC, and SR.IEp and SR.IEo, at power-on: all bits 0.
DESIGN CHOICE, unsafe: R43 leaves them unspecified (log 4). -/
def initialFrame : BitVec 20 := 0#20
/-- See `initialFrame`; the one-bit fields (log 4). -/
def initialBit : Bool := false
/-- See `initialFrame`; `Index.Index` (log 4). -/
def initialIndex : BitVec 6 := 0#6
/-- See `initialFrame`; `Cause.ExcCode` (log 4). -/
def initialExcCode : ExcCode := 0#5

/-- The V bit of every TLB entry at power-on. DESIGN CHOICE, unsafe: R43 and N11 leave it unspecified (log 5). -/
def initialTlbValid : Bool := false

/-- The parameters of 00_scope R5 at reset: each policy at the default the spec names, the exception codes at the
suggested values of D1 (PRESUMED, log 2), and a platform with RAM at every physical address (DESIGN CHOICE, unsafe,
log 7). -/
def initialParams : Params where
  excSyscall  := 8#5
  excBreak    := 9#5
  overflow    := .refuse
  align       := .refuse
  reserved    := .refuse
  mustBeZero  := .reserved
  creg        := .refuse
  intPriority := .interruptFirst
  strictCache := false
  physMap     := [{ first := 0#30, last := 0x3FFFFFFF#30, kind := .ram }]

end Sys2Proof.Machine
end

