-- ==== Sys2Proof/Machine/State.lean ====
section
/-! DEFINITION. The state of the machine (spec 10_state R20 to R43) as plain data, the reasons a step can stop with, and
the state right after reset. -/

namespace Sys2Proof.Machine

/-- EntryLo, control register 2, and the lower half of a TLB entry: the live fields PFN and V (10_state R31). -/
structure EntryLo where
  pfn : BitVec 20
  v   : Bool
deriving DecidableEq, Repr

/-- EntryHi, control register 10, and the upper half of a TLB entry: the live field VPN (10_state R33). -/
structure EntryHi where
  vpn : BitVec 20
deriving DecidableEq, Repr

/-- A TLB entry: "The structure of the lower 32 bits of a TLB entry is identical to EntryLo register, and the structure
of the upper 32 bits is identical to EntryHi register." (10_state R38) -/
structure TlbEntry where
  hi : EntryHi
  lo : EntryLo
deriving DecidableEq, Repr

/-- The status register SR, control register 12: the three-level interrupt-enable stack (10_state R34). -/
structure Status where
  ieo : Bool
  iep : Bool
  iec : Bool
deriving DecidableEq, Repr

/-- The Cause register, control register 13: the live fields BD and ExcCode (10_state R35). -/
structure Cause where
  bd      : Bool
  excCode : ExcCode
deriving DecidableEq, Repr

/-- The two external signals as one step samples them (10_state R41, 60_exceptions R250). -/
structure Input where
  reset : Bool
  irq   : Bool
deriving DecidableEq, Repr

/-- The width of a memory access (20_memory R65). -/
inductive Size where
  | byte
  | half
  | word
deriving DecidableEq, Repr

/-- One store to a device address: the physical address, the width and the register value stored (D12). -/
structure DeviceWrite where
  pa    : Word
  size  : Size
  value : Word
deriving DecidableEq, Repr

/-- Physical memory: the bytes written so far, by rising physical address; an address that is not listed has never been
written (10_state R40; log 6). -/
abbrev Memory := List Host.Cell

/-- Under STRICT_CACHE, the aligned physical words fetched through a cached segment, by rising word number, each with
whether it has been stored to since (20_memory R82, D11; log 19). -/
abbrev FetchLog := List (Nat × Bool)

/-- The exceptions a step can take (60_exceptions R251, R252), and the trap of an override policy (D2, D3, D4). Reset is
not among them: it does not follow the entry protocol (R266). -/
inductive Exc where
  | interrupt
  | tlbMiss (va : Word)
  | syscall
  | breakpoint
  /-- the exception an OVERFLOW_POLICY, ALIGN_POLICY or RESERVED_POLICY of `trap(code)` takes -/
  | policyTrap (code : ExcCode)
deriving DecidableEq, Repr

/-- The state of the machine: the items of 10_state R20 under their own names, then the model's own fields. -/
structure State where
  /-- x[0..31] (R21); slot 0 is never read (R22) -/
  regs     : Vector Word 32
  /-- HI (R25) -/
  hi       : Word
  /-- LO (R25) -/
  lo       : Word
  /-- the address of the instruction the step executes (R26) -/
  pc       : Word
  /-- the address of the instruction after it (R27) -/
  npc      : Word
  /-- whether the instruction at `pc` is in a delay slot (R27) -/
  ds       : Bool
  /-- Index.Index (R30) -/
  index    : BitVec 6
  /-- EntryLo (R31) -/
  entryLo  : EntryLo
  /-- BadVaddr (R32) -/
  badVaddr : Word
  /-- EntryHi (R33) -/
  entryHi  : EntryHi
  /-- SR (R34) -/
  sr       : Status
  /-- Cause (R35) -/
  cause    : Cause
  /-- EPC (R36) -/
  epc      : Word
  /-- TLB[0..63] (R38) -/
  tlb      : Vector TlbEntry 64
  /-- physical memory (R40) -/
  mem      : Memory
  /-- model's own: the signals of the steps to come, both 0 once the list is used up (log 11) -/
  inputs   : List Input
  /-- model's own: the stores to device addresses, newest first (log 9) -/
  outputs  : List DeviceWrite
  /-- model's own: how many free values have been drawn (log 10) -/
  draws    : Nat
  /-- model's own: what STRICT_CACHE needs to know of earlier fetches (log 19) -/
  fetched  : FetchLog
  /-- model's own: the parameters of 00_scope R5, which no step changes (log 1) -/
  params   : Params
deriving DecidableEq, Repr

/-- Where the machine stops on an access to nothing. -/
inductive Fault where
  /-- `UnpopulatedPhysicalAddress` (D12): a fetch, load or store at a physical address where the platform has placed
  nothing. Raised by `physRead` and `physWrite`. Safe: the hardware may go on, the model proves nothing of it. -/
  | unpopulatedPhysicalAddress (pa : Word)
deriving DecidableEq, Repr

/-- The named refusals of 00_scope R9, and the refusal of an instruction without a meaning. All are safe: the model
stops where the hardware may go on. -/
inductive Refusal where
  /-- an instruction that has no meaning yet, by its mnemonic; raised by `exec` alone -/
  | notModelled (mnemonic : String)
  /-- `ReservedEncoding` (D4, D5): the fetched word is reserved and RESERVED_POLICY is refuse; raised by the fetch -/
  | reservedEncoding (w : Word)
  /-- `SignedOverflow` (D2): ADD, ADDI or SUB overflows and OVERFLOW_POLICY is refuse -/
  | signedOverflow
  /-- `MisalignedAccess` (D3): LH, LHU, SH, LW or SW at a misaligned address and ALIGN_POLICY is refuse -/
  | misalignedAccess (va : Word)
  /-- `MisalignedJumpTarget` (D16): JR or JALR to an address whose low two bits are not 0 -/
  | misalignedJumpTarget (target : Word)
  /-- `BranchInDelaySlot` (D15): a jump or branch executed with `ds` = 1 -/
  | branchInDelaySlot
  /-- `JumpRegionEdge` (D19): J or JAL in the last word of a 256MB region -/
  | jumpRegionEdge
  /-- `UndefinedControlRegister` (D14): MFC0 or MTC0 with an index that names no register -/
  | undefinedControlRegister (c : Reg)
  /-- `ReadOnlyControlRegister` (D13): MTC0 to BadVaddr, Cause or EPC and CREG_POLICY is refuse -/
  | readOnlyControlRegister (c : Reg)
  /-- `StaleFetch` (D11): under STRICT_CACHE, a cached fetch of a word stored to since its last cached fetch -/
  | staleFetch (pa : Word)
deriving DecidableEq, Repr

/-- The machine right after reset (10_state R43, 70_reset R290): `pc`, `npc`, `ds` and SR.IEc as stated there, every
other register at the value Machine/ResetValues.lean names, memory with nothing listed. -/
def State.reset : State where
  regs     := Vector.replicate 32 initialWord
  hi       := initialWord
  lo       := initialWord
  pc       := resetVector
  npc      := resetVector + 4#32
  ds       := false
  index    := initialIndex
  entryLo  := { pfn := initialFrame, v := initialBit }
  badVaddr := initialWord
  entryHi  := { vpn := initialFrame }
  sr       := { ieo := initialBit, iep := initialBit, iec := false }
  cause    := { bd := initialBit, excCode := initialExcCode }
  epc      := initialWord
  tlb      := Vector.replicate 64 { hi := { vpn := initialFrame }, lo := { pfn := initialFrame, v := initialTlbValid } }
  mem      := []
  inputs   := []
  outputs  := []
  draws    := 0
  fetched  := []
  params   := initialParams

end Sys2Proof.Machine
end

