-- ==== Sys2Proof/Machine/Ops.lean ====
section
/-! DEFINITION. The shared operations over registers and memory: general registers, the two ways to advance (spec
00_scope R7), address translation (20_memory R68), physical and logical accesses (R85), the control registers and the
TLB (47_control), taking an exception (60_exceptions R258), its return (47_control R239) and the reset step (70_reset
R290). -/

namespace Sys2Proof.Machine

/-- What a step answers. -/
abbrev StepOutcome := Host.Outcome State Fault Refusal

/-- How an instruction is abandoned before its end: it raises an exception, or the model stops (00_scope R7, R9). -/
inductive Stop where
  | raise (e : Exc)
  | fault (f : Fault)
  | refuse (r : Refusal)
deriving DecidableEq, Repr

/-! ## General registers -/

/-- Read `x[r]`: register 0 is always zero (10_state R22). -/
def State.gpr (s : State) (r : Reg) : Word :=
  if r = 0#5 then 0#32 else s.regs[r.toNat]'r.isLt

/-- Write `x[r] <- v`: a write to register 0 is discarded (10_state R22). -/
def State.setGpr (s : State) (r : Reg) (v : Word) : State :=
  { s with regs := if r = 0#5 then s.regs else s.regs.set r.toNat v r.isLt }

/-- Write HI and LO together (44_multiply_divide R195 to R198). -/
def State.setHiLo (s : State) (hi lo : Word) : State := { s with hi := hi, lo := lo }

/-! ## Advancing -/

/-- `AdvanceSeq()` (00_scope R7). -/
def State.advanceSeq (s : State) : State := { s with pc := s.npc, npc := s.npc + 4#32, ds := false }

/-- `AdvanceBranch(taken, target)` (00_scope R7): the instruction at the old `npc` is the delay slot. -/
def State.advanceBranch (s : State) (taken : Bool) (target : Word) : State :=
  { s with pc := s.npc, npc := if taken then target else s.npc + 4#32, ds := true }

/-! ## Exceptions -/

/-- The value written to `Cause.ExcCode` (60_exceptions R252). -/
def Exc.code (p : Params) : Exc → ExcCode
  | .interrupt => 0#5
  | .tlbMiss _ => 1#5
  | .syscall => p.excSyscall
  | .breakpoint => p.excBreak
  | .policyTrap code => code

/-- `BadVaddr` after an exception: only a TLB miss writes it (60_exceptions R258, R268). -/
def Exc.badVaddr (old : Word) : Exc → Word
  | .tlbMiss va => va
  | .interrupt | .syscall | .breakpoint | .policyTrap _ => old

/-- The push of the interrupt-enable stack: IEo <- IEp, IEp <- IEc, IEc <- 0; the old IEo is lost (10_state R34). -/
def Status.push (sr : Status) : Status := { ieo := sr.iep, iep := sr.iec, iec := false }

/-- The pop of the interrupt-enable stack by RFE: IEc <- IEp, IEp <- IEo, IEo unchanged (10_state R34, D20). -/
def Status.pop (sr : Status) : Status := { ieo := sr.ieo, iep := sr.ieo, iec := sr.iep }

/-- Which address goes to EPC: the instruction's own, or the jump or branch before it when it is in a delay slot
(60_exceptions R257). -/
def State.restartPc (s : State) : Word := if s.ds then s.pc - 4#32 else s.pc

/-- Taking an exception: `ExceptionEntry(E)` of 60_exceptions R258. Everything else is unchanged. -/
def State.enterException (s : State) (e : Exc) : State :=
  { s with
    epc := s.restartPc
    cause := { bd := s.ds, excCode := e.code s.params }
    badVaddr := e.badVaddr s.badVaddr
    sr := s.sr.push
    pc := exceptionVector
    npc := exceptionVector + 4#32
    ds := false }

/-- What RFE does to the status register (47_control R239); it does not change `pc`. -/
def State.popStatus (s : State) : State := { s with sr := s.sr.pop }

/-- The reset step (70_reset R290): IEc is cleared, the stack is not pushed, everything else keeps its value. -/
def State.resetStep (s : State) : State :=
  { s with sr := { s.sr with iec := false }, pc := resetVector, npc := resetVector + 4#32, ds := false }

/-- The outcome of an instruction that ended with `r` in the state `s` before it: its next state, or the exception it
raised, taken from `s` itself so that the instruction has no effect (60_exceptions R259), or the stop. -/
def settle (s : State) (r : Except Stop State) : StepOutcome :=
  match r with
  | .ok t => .next t
  | .error (.raise e) => .next (s.enterException e)
  | .error (.fault f) => .fault f
  | .error (.refuse x) => .refused x

/-! ## External signals -/

/-- The signals sampled by this step; both are 0 once the list is used up (10_state R41; log 11). -/
def State.input (s : State) : Input := s.inputs.headD { reset := false, irq := false }

/-- The state with this step's signals consumed. -/
def State.dropInput (s : State) : State := { s with inputs := s.inputs.tail }

/-! ## Free values -/

/-- The free value this step draws next (00_scope R7 `any32`). -/
def State.any32 (s : State) : Word := Config.any32 s.draws

/-- The state after `n` draws. -/
def State.drawn (s : State) (n : Nat) : State := { s with draws := s.draws + n }

/-! ## Memory as a list in one form -/

/-- The entry of a list of keyed values. -/
def lookupKey {α : Type} : List (Nat × α) → Nat → Option α
  | [], _ => none
  | (k, v) :: rest, a => if a = k then some v else lookupKey rest a

/-- Put a value at a key, keeping the keys strictly rising. -/
def insertKey {α : Type} : List (Nat × α) → Nat → α → List (Nat × α)
  | [], a, x => [(a, x)]
  | (k, v) :: rest, a, x =>
    if a < k then (a, x) :: (k, v) :: rest
    else if a = k then (a, x) :: rest
    else (k, v) :: insertKey rest a x

/-- Whether every key of the list lies above `lo` and the keys rise strictly. -/
def risingFrom {α : Type} : Nat → List (Nat × α) → Bool
  | _, [] => true
  | lo, (k, _) :: rest => decide (lo ≤ k) && risingFrom (k + 1) rest

/-- The canonical form of memory: addresses strictly rising, each below 2^32 (log 6). An unlisted address has no value
of memory's own, so no entry can repeat one. -/
def Memory.wf (m : Memory) : Bool := risingFrom 0 m && m.all fun c => decide (c.1 < 2 ^ 32)

/-- The byte of RAM or ROM at a physical address: what was last written there, or the free power-on content (93 A15;
log 6). -/
def Memory.byteAt (m : Memory) (pa : Word) : Byte := (lookupKey m pa.toNat).getD (Config.powerOnByte pa.toNat)

/-- Write one byte. -/
def Memory.setByte (m : Memory) (pa : Word) (b : Byte) : Memory := insertKey m pa.toNat b

/-- Write bytes at rising addresses from `pa` on. -/
def Memory.setBytes (m : Memory) (pa : Word) : List Byte → Memory
  | [] => m
  | b :: rest => Memory.setBytes (m.setByte pa b) (pa + 1#32) rest

/-- The number of bytes of an access (20_memory R65). -/
def Size.bytes : Size → Nat
  | .byte => 1
  | .half => 2
  | .word => 4

/-- The bytes of an access in the order memory stores them, least significant first (20_memory R61). -/
def Size.split (sz : Size) (v : Word) : List Byte :=
  match sz with
  | .byte => [byteOf v 0]
  | .half => [byteOf v 0, byteOf v 1]
  | .word => bytesOfWord v

/-- The low `8n` bits of a word, for an access of `n` bytes. -/
def Size.truncate (sz : Size) (v : Word) : Word :=
  match sz with
  | .byte => (v.setWidth 8).setWidth 32
  | .half => (v.setWidth 16).setWidth 32
  | .word => v

/-- The little-endian value of the bytes of memory from `pa` on, zero-extended (20_memory R61, R85). -/
def Memory.value (m : Memory) (pa : Word) : Size → Word
  | .byte => wordOfBytes (m.byteAt pa) 0#8 0#8 0#8
  | .half => wordOfBytes (m.byteAt pa) (m.byteAt (pa + 1#32)) 0#8 0#8
  | .word => wordOfBytes (m.byteAt pa) (m.byteAt (pa + 1#32)) (m.byteAt (pa + 2#32)) (m.byteAt (pa + 3#32))

/-! ## The physical map -/

/-- The aligned physical word an address lies in. -/
def wordIndexOf (pa : Word) : WordIndex := pa.extractLsb' 2 30

/-- Whether a region holds a word. -/
def regionHolds (r : Region) (i : WordIndex) : Bool := decide (r.first.toNat ≤ i.toNat ∧ i.toNat ≤ r.last.toNat)

/-- PhysMap (20_memory R78): what the platform has at a physical address, `none` where it has nothing. -/
def kindAt (p : Params) (pa : Word) : Option PhysKind :=
  (p.physMap.find? fun r => regionHolds r (wordIndexOf pa)).map Region.kind

/-- Under STRICT_CACHE a store makes a word stale that was fetched through a cached segment before (D11). -/
def markStale (log : FetchLog) (i : Nat) : FetchLog :=
  match lookupKey log i with
  | some _ => insertKey log i true
  | none => log

/-- The fetch log after a store at a physical address (D11). -/
def State.fetchedAfterStore (s : State) (pa : Word) : FetchLog :=
  if s.params.strictCache then markStale s.fetched (wordIndexOf pa).toNat else s.fetched

/-- `PhysRead(pa, n)` (20_memory R85, R78, D12): RAM and ROM give their bytes, a device a free value, nothing a fault.
The state comes back because a device read draws. -/
def physRead (s : State) (pa : Word) (sz : Size) : Except Stop (Word × State) :=
  match kindAt s.params pa with
  | none => .error (.fault (.unpopulatedPhysicalAddress pa))
  | some .ram => .ok (s.mem.value pa sz, s)
  | some .rom => .ok (s.mem.value pa sz, s)
  | some .device => .ok (sz.truncate s.any32, s.drawn 1)

/-- `PhysWrite(pa, n, v)` (20_memory R85, R78, D12): RAM takes the bytes, ROM keeps its own (log 8), a device write is an
output, nothing is a fault. -/
def physWrite (s : State) (pa : Word) (sz : Size) (v : Word) : Except Stop State :=
  match kindAt s.params pa with
  | none => .error (.fault (.unpopulatedPhysicalAddress pa))
  | some .ram => .ok { s with mem := s.mem.setBytes pa (sz.split v), fetched := s.fetchedAfterStore pa }
  | some .rom => .ok { s with fetched := s.fetchedAfterStore pa }
  | some .device =>
    .ok { s with outputs := { pa := pa, size := sz, value := sz.truncate v } :: s.outputs, fetched := s.fetchedAfterStore pa }

/-- `PhysWrite` of single bytes at rising addresses from `pa` on (40_load_store R151, R152). -/
def physWriteBytes (s : State) (pa : Word) : List Byte → Except Stop State
  | [] => .ok s
  | b :: rest =>
    match physWrite s pa .byte (b.setWidth 32) with
    | .ok t => physWriteBytes t (pa + 1#32) rest
    | .error e => .error e

/-! ## Translation and logical accesses -/

/-- Whether a logical address lies in kseg0 or kseg1, 0x80000000 to 0xBFFFFFFF (20_memory R67, R68). -/
def inUnmappedSegment (va : Word) : Bool := va.extractLsb' 29 3 == 0b100#3 || va.extractLsb' 29 3 == 0b101#3

/-- Whether an access at a logical address goes through a cache: everywhere but in kseg1 (20_memory R67, R75). -/
def inCachedSegment (va : Word) : Bool := va.extractLsb' 29 3 != 0b101#3

/-- The TLB entry examined for a logical address: the one at index `va[17:12]` (20_memory R68, R70). -/
def State.tlbEntryFor (s : State) (va : Word) : TlbEntry :=
  s.tlb[(va.extractLsb' 12 6).toNat]'(va.extractLsb' 12 6).isLt

/-- `Translate` (20_memory R68): the physical address, or `none` for a TLB miss. It is the same for fetch, load and
store. -/
def State.lookup (s : State) (va : Word) : Option Word :=
  if inUnmappedSegment va then some ((va.extractLsb' 0 29).setWidth 32)
  else
    let e := s.tlbEntryFor va
    if e.lo.v && e.hi.vpn == va.extractLsb' 12 20 then some (e.lo.pfn ++ va.extractLsb' 0 12) else none

/-- `Translate`, raising `TLBMiss(va)` where it fails (20_memory R68, R71). -/
def translate (s : State) (va : Word) : Except Stop Word :=
  match s.lookup va with
  | some pa => .ok pa
  | none => .error (.raise (.tlbMiss va))

/-- `MemRead(addr, n)` (20_memory R85). Under STRICT_CACHE too, a load through one segment reads what a store through
another wrote: 93 A19 names the parameter for it and gives no strict behaviour. DESIGN CHOICE, unsafe (log 19). -/
def memRead (s : State) (addr : Word) (sz : Size) : Except Stop (Word × State) :=
  match translate s addr with
  | .ok pa => physRead s pa sz
  | .error e => .error e

/-- `MemWrite(addr, n, v)` (20_memory R85). -/
def memWrite (s : State) (addr : Word) (sz : Size) (v : Word) : Except Stop State :=
  match translate s addr with
  | .ok pa => physWrite s pa sz v
  | .error e => .error e

/-- An address with its low two bits cleared: the aligned word that holds it. -/
def wordBase (a : Word) : Word := a &&& 0xFFFFFFFC#32

/-- The aligned word that holds a logical address, after one translation, of the address itself (40_load_store R149,
R150). -/
def readWordAround (s : State) (addr : Word) : Except Stop (Word × State) :=
  match translate s addr with
  | .ok pa => physRead s (wordBase pa) .word
  | .error e => .error e

/-- Write bytes into the aligned word that holds a logical address, the first at offset `k` in it, after one translation
of the address itself (40_load_store R151, R152). -/
def writeBytesAround (s : State) (addr : Word) (k : Nat) (bytes : List Byte) : Except Stop State :=
  match translate s addr with
  | .ok pa => physWriteBytes s (wordBase pa + BitVec.ofNat 32 k) bytes
  | .error e => .error e

/-! ## Control registers and the TLB -/

/-- A one-bit field of a register. -/
def bit (b : Bool) : BitVec 1 := BitVec.ofBool b

/-- EntryLo as MFC0 reads it: PFN in bits 31..12, V in bit 9, the others 0 (10_state R31, 47_control R235). -/
def EntryLo.word (e : EntryLo) : Word := e.pfn ++ 0#2 ++ bit e.v ++ 0#9

/-- EntryHi as MFC0 reads it: VPN in bits 31..12, the others 0 (10_state R33, 47_control R235). -/
def EntryHi.word (e : EntryHi) : Word := e.vpn ++ 0#12

/-- SR as MFC0 reads it: IEo, IEp, IEc in bits 4, 2, 0, the others 0 (10_state R34, 47_control R235). -/
def Status.word (sr : Status) : Word := 0#27 ++ bit sr.ieo ++ 0#1 ++ bit sr.iep ++ 0#1 ++ bit sr.iec

/-- Cause as MFC0 reads it: BD in bit 31, ExcCode in bits 6..2, the others 0 (10_state R35, 47_control R235). -/
def Cause.word (c : Cause) : Word := bit c.bd ++ 0#24 ++ c.excCode ++ 0#2

/-- Index as MFC0 reads it: bit 31 is 0, Index in bits 13..8, and the bits named x, 30..14 and 7..0, those of a drawn
value (10_state R30, 47_control R235, D13). -/
def indexWord (index : BitVec 6) (any : Word) : Word := 0#1 ++ any.extractLsb' 14 17 ++ index ++ any.extractLsb' 0 8

/-- What MFC0 reads from control register `c` (47_control R235). Reading Index draws a value for its x bits. -/
def readControl (s : State) (c : Reg) : Except Stop (Word × State) :=
  match c.toNat with
  | 0  => .ok (indexWord s.index s.any32, s.drawn 1)
  | 2  => .ok (s.entryLo.word, s)
  | 9  => .ok (s.badVaddr, s)
  | 10 => .ok (s.entryHi.word, s)
  | 12 => .ok (s.sr.word, s)
  | 13 => .ok (s.cause.word, s)
  | 14 => .ok (s.epc, s)
  | _  => .error (.refuse (.undefinedControlRegister c))

/-- A write to a register that only hardware is documented to write (D13): refused, or made under CREG_POLICY. -/
def writeReadOnly (s : State) (c : Reg) (t : State) : Except Stop State :=
  match s.params.creg with
  | .refuse => .error (.refuse (.readOnlyControlRegister c))
  | .writable => .ok t

/-- What MTC0 of the value `v` does to control register `c` (47_control R236). -/
def writeControl (s : State) (c : Reg) (v : Word) : Except Stop State :=
  match c.toNat with
  | 0  => .ok { s with index := v.extractLsb' 8 6 }
  | 2  => .ok { s with entryLo := { pfn := v.extractLsb' 12 20, v := v.getLsbD 9 } }
  | 9  => writeReadOnly s c { s with badVaddr := v }
  | 10 => .ok { s with entryHi := { vpn := v.extractLsb' 12 20 } }
  | 12 => .ok { s with sr := { ieo := v.getLsbD 4, iep := v.getLsbD 2, iec := v.getLsbD 0 } }
  | 13 => writeReadOnly s c { s with cause := { bd := v.getLsbD 31, excCode := v.extractLsb' 2 5 } }
  | 14 => writeReadOnly s c { s with epc := v }
  | _  => .error (.refuse (.undefinedControlRegister c))

/-- The TLB entry that Index names. -/
def State.indexedEntry (s : State) : TlbEntry := s.tlb[s.index.toNat]'s.index.isLt

/-- What TLBR does: the entry that Index names is copied into EntryHi and EntryLo (47_control R237). -/
def State.readTlb (s : State) : State := { s with entryHi := s.indexedEntry.hi, entryLo := s.indexedEntry.lo }

/-- What TLBWI does: EntryHi and EntryLo are copied into the entry that Index names (47_control R238). -/
def State.writeTlb (s : State) : State :=
  { s with tlb := s.tlb.set s.index.toNat { hi := s.entryHi, lo := s.entryLo } s.index.isLt }

end Sys2Proof.Machine
end

