-- ==== Sys2Proof/Machine/Operands.lean ====
section
/-! DEFINITION. How the operands of an instruction are formed (spec 30_encoding R113) and the operand forms that the
instructions of one family share: loads and stores (40_load_store R140), the write of a result, jumps and branches
(45_jump_branch R218, R219). -/

namespace Sys2Proof.Machine

/-! ## Immediates -/

/-- `sext_32(imm16)` (R113). -/
def signExtend16 (imm : BitVec 16) : Word := imm.signExtend 32

/-- `zext_32(imm16)` (R113). -/
def zeroExtend16 (imm : BitVec 16) : Word := imm.setWidth 32

/-- `imm16 : 0x0000`, the operand of LUI (R113). -/
def upperImmediate (imm : BitVec 16) : Word := imm ++ 0#16

/-- The shift amount of a variable shift: only the low five bits of the register (R113, 43_shift R188). -/
def shiftAmount (v : Word) : BitVec 5 := v.extractLsb' 0 5

/-- The sign extension of the low byte of a loaded value (40_load_store R141). -/
def signExtendByte (v : Word) : Word := (v.setWidth 8).signExtend 32

/-- The sign extension of the low halfword of a loaded value (40_load_store R144). -/
def signExtendHalf (v : Word) : Word := (v.setWidth 16).signExtend 32

/-! ## Addresses -/

/-- The effective address of a load or store: base register plus sign-extended offset, modulo 2^32 (R140). -/
def effectiveAddress (s : State) (rs : Reg) (imm : BitVec 16) : Word := s.gpr rs + signExtend16 imm

/-- Whether an address is a multiple of the width of an access (20_memory R63). -/
def alignedFor (sz : Size) (addr : Word) : Bool :=
  match sz with
  | .byte => true
  | .half => addr.extractLsb' 0 1 == 0#1
  | .word => addr.extractLsb' 0 2 == 0#2

/-- The address of the aligned datum of the given width around an address, for ALIGN_POLICY force-align (D3). -/
def alignDown (sz : Size) (addr : Word) : Word :=
  match sz with
  | .byte => addr
  | .half => addr &&& 0xFFFFFFFE#32
  | .word => addr &&& 0xFFFFFFFC#32

/-- The address an aligned access is made at: the effective address itself, or, where it is misaligned, what
ALIGN_POLICY says (20_memory R64, D3; log 14). Tested before translation. -/
def accessAddress (p : Params) (sz : Size) (addr : Word) : Except Stop Word :=
  if alignedFor sz addr then .ok addr
  else match p.align with
    | .refuse => .error (.refuse (.misalignedAccess addr))
    | .trap code => .error (.raise (.policyTrap code))
    | .forceAlign => .ok (alignDown sz addr)

/-- The data of an aligned load: alignment, translation, access, in that order (R140). -/
def loadData (s : State) (addr : Word) (sz : Size) : Except Stop (Word × State) :=
  match accessAddress s.params sz addr with
  | .ok a => memRead s a sz
  | .error e => .error e

/-- The access of an aligned store: alignment, translation, access, in that order (R140). -/
def storeData (s : State) (addr : Word) (sz : Size) (v : Word) : Except Stop State :=
  match accessAddress s.params sz addr with
  | .ok a => memWrite s a sz v
  | .error e => .error e

/-! ## The shared forms of loads and stores -/

/-- An aligned load: `x[rt] <- extend(MemRead(addr, n))`, then `AdvanceSeq` (R140 to R147). -/
def loadInto (sz : Size) (extend : Word → Word) (rt rs : Reg) (imm : BitVec 16) (s : State) : StepOutcome :=
  settle s <|
    match loadData s (effectiveAddress s rs imm) sz with
    | .ok (v, t) => .ok (t.setGpr rt (extend v)).advanceSeq
    | .error e => .error e

/-- An aligned store: `MemWrite(addr, n, x[rt])`, then `AdvanceSeq` (R143, R146, R148). -/
def storeFrom (sz : Size) (rt rs : Reg) (imm : BitVec 16) (s : State) : StepOutcome :=
  settle s <|
    match storeData s (effectiveAddress s rs imm) sz (s.gpr rt) with
    | .ok t => .ok t.advanceSeq
    | .error e => .error e

/-- The offset of an address in its aligned word: `b = addr[1:0]` (R149). -/
def byteOffset (addr : Word) : Nat := (addr.extractLsb' 0 2).toNat

/-- What LWL makes of the aligned word `w` and the old register value: register bytes 3 down to 3-b receive memory
bytes b down to 0 (R149). -/
def mergeLeft (b : Nat) (w old : Word) : Word :=
  (w <<< (8 * (3 - b))) ||| (old &&& BitVec.ofNat 32 (2 ^ (8 * (3 - b)) - 1))

/-- What LWR makes of the aligned word `w` and the old register value: register bytes 0 up to 3-b receive memory bytes
b up to 3 (R150). -/
def mergeRight (b : Nat) (w old : Word) : Word :=
  (w >>> (8 * b)) ||| (old &&& ~~~(0xFFFFFFFF#32 >>> (8 * b)))

/-- An unaligned load: the aligned word around the address is merged into the register (R149, R150). -/
def loadMerged (merge : Nat → Word → Word → Word) (rt rs : Reg) (imm : BitVec 16) (s : State) : StepOutcome :=
  let addr := effectiveAddress s rs imm
  settle s <|
    match readWordAround s addr with
    | .ok (w, t) => .ok (t.setGpr rt (merge (byteOffset addr) w (s.gpr rt))).advanceSeq
    | .error e => .error e

/-- The bytes SWL stores at offsets 0 to b of the aligned word: bytes 3-b to 3 of the register (R151). -/
def leftBytes (v : Word) (b : Nat) : List Byte := (List.range (b + 1)).map fun k => byteOf v (3 - b + k)

/-- The bytes SWR stores at offsets b to 3 of the aligned word: bytes 0 to 3-b of the register (R152). -/
def rightBytes (v : Word) (b : Nat) : List Byte := (List.range (4 - b)).map fun k => byteOf v k

/-- An unaligned store of bytes into the aligned word around the address, from offset `k` on (R151, R152). -/
def storeAround (s : State) (addr : Word) (k : Nat) (bytes : List Byte) : StepOutcome :=
  settle s <|
    match writeBytesAround s addr k bytes with
    | .ok t => .ok t.advanceSeq
    | .error e => .error e

/-! ## The write of a result -/

/-- `x[rd] <- v`, then `AdvanceSeq`. -/
def writeResult (rd : Reg) (v : Word) (s : State) : StepOutcome := settle s (.ok (s.setGpr rd v).advanceSeq)

/-- `x[rd] <- v` where the value may end the instruction instead, then `AdvanceSeq`. -/
def writeChecked (rd : Reg) (r : Except Stop Word) (s : State) : StepOutcome :=
  settle s <|
    match r with
    | .ok v => .ok (s.setGpr rd v).advanceSeq
    | .error e => .error e

/-- HI and LO receive a result, then `AdvanceSeq`. -/
def writeHiLo (hi lo : Word) (s : State) : StepOutcome := settle s (.ok (s.setHiLo hi lo).advanceSeq)

/-! ## Jumps and branches -/

/-- `T = ((pc + 4) + (sext_32(imm) << 2)) mod 2^32` (R218). -/
def branchTarget (pc : Word) (imm : BitVec 16) : Word := pc + 4#32 + (signExtend16 imm <<< 2)

/-- `T = (pc + 4)[31:28] : index : 0b00` (R210). -/
def jumpTarget (pc : Word) (index : BitVec 26) : Word := (pc + 4#32).extractLsb' 28 4 ++ index ++ 0#2

/-- The link value: the address of the instruction after the delay slot (R211). -/
def linkAddress (pc : Word) : Word := pc + 8#32

/-- The link register that JAL, BLTZAL and BGEZAL write, register 31 (10_state R23). -/
def linkRegister : Reg := 31#5

/-- `if ds = 1: refuse(BranchInDelaySlot)` (R219, D15), else go on. -/
def outsideDelaySlot (s : State) (r : Except Stop State) : Except Stop State :=
  if s.ds then .error (.refuse .branchInDelaySlot) else r

/-- `if pc[27:0] = 0xFFFFFFC: refuse(JumpRegionEdge)` (R210, D19), else go on. -/
def insideRegion (s : State) (r : Except Stop State) : Except Stop State :=
  if s.pc.extractLsb' 0 28 = 0xFFFFFFC#28 then .error (.refuse .jumpRegionEdge) else r

/-- `if T[1:0] != 0: refuse(MisalignedJumpTarget)` (R212, D16), else go on. -/
def toWordTarget (target : Word) (r : Except Stop State) : Except Stop State :=
  if target.extractLsb' 0 2 = 0#2 then r else .error (.refuse (.misalignedJumpTarget target))

/-- A jump within the 256MB region; `t` is the state with the link written, if any (R210, R211). -/
def jumpRegion (s t : State) (index : BitVec 26) : StepOutcome :=
  settle s (outsideDelaySlot s (insideRegion s (.ok (t.advanceBranch true (jumpTarget s.pc index)))))

/-- A jump to a register's address; `t` is the state with the link written, if any (R212, R213). -/
def jumpRegister (s t : State) (target : Word) : StepOutcome :=
  settle s (outsideDelaySlot s (toWordTarget target (.ok (t.advanceBranch true target))))

/-- A conditional branch; `t` is the state with the link written, if any (R214 to R223). -/
def branchIf (s t : State) (taken : Bool) (imm : BitVec 16) : StepOutcome :=
  settle s (outsideDelaySlot s (.ok (t.advanceBranch taken (branchTarget s.pc imm))))

end Sys2Proof.Machine
end

