-- ==== Sys2Proof/Machine/Flags.lean ====
section
/-! DEFINITION. The machine has no flags (spec 10_state R28). What stands for them: the comparisons that SLT and its
kin write to a register and the branches test, and the overflow test of ADD, ADDI and SUB. -/

namespace Sys2Proof.Machine

/-- The value a comparison writes: 1 or 0 (R28, 41_alu_immediate R162). -/
def truthWord (b : Bool) : Word := if b then 1#32 else 0#32

/-- Signed less than, on the true values (42_alu_three_operand R174). -/
def lessSigned (a b : Word) : Bool := decide (a.toInt < b.toInt)

/-- Unsigned less than (42_alu_three_operand R175). -/
def lessUnsigned (a b : Word) : Bool := decide (a.toNat < b.toNat)

/-- Whether an exact integer is the value of a signed 32-bit word. -/
def fitsSigned (x : Int) : Bool := decide (-2 ^ 31 ≤ x ∧ x ≤ 2 ^ 31 - 1)

/-- The result of a signed sum or difference whose exact value is `x`, where it overflows as OVERFLOW_POLICY says
(R160, R170, R172, D2; log 13). -/
def signedResult (p : Params) (x : Int) : Except Stop Word :=
  if fitsSigned x then .ok (BitVec.ofInt 32 x)
  else match p.overflow with
    | .refuse => .error (.refuse .signedOverflow)
    | .wrap => .ok (BitVec.ofInt 32 x)
    | .trap code => .error (.raise (.policyTrap code))

/-- `int_s(v) = 0` or less, and the other three comparisons of a register against zero (45_jump_branch R216, R217,
R220, R221). -/
def lessOrEqualZero (v : Word) : Bool := decide (v.toInt ≤ 0)
/-- See `lessOrEqualZero`. -/
def greaterThanZero (v : Word) : Bool := decide (0 < v.toInt)
/-- See `lessOrEqualZero`. -/
def lessThanZero (v : Word) : Bool := decide (v.toInt < 0)
/-- See `lessOrEqualZero`. -/
def greaterOrEqualZero (v : Word) : Bool := decide (0 ≤ v.toInt)

end Sys2Proof.Machine
end

