-- ==== Sys2Proof/Machine/AluImmediate.lean ====
section
/-! DEFINITION. The eight ALU instructions with an immediate operand (spec 41_alu_immediate R160 to R167). -/

namespace Sys2Proof.Machine

/-- ADDI (R160): signed overflow is as OVERFLOW_POLICY says. -/
def execAddi (rt rs : Reg) (imm : BitVec 16) (s : State) : StepOutcome :=
  writeChecked rt (signedResult s.params ((s.gpr rs).toInt + (signExtend16 imm).toInt)) s

/-- ADDIU (R161). -/
def execAddiu (rt rs : Reg) (imm : BitVec 16) (s : State) : StepOutcome :=
  writeResult rt (s.gpr rs + signExtend16 imm) s

/-- SLTI (R162). -/
def execSlti (rt rs : Reg) (imm : BitVec 16) (s : State) : StepOutcome :=
  writeResult rt (truthWord (lessSigned (s.gpr rs) (signExtend16 imm))) s

/-- SLTIU (R163): the immediate is sign-extended, then compared unsigned. -/
def execSltiu (rt rs : Reg) (imm : BitVec 16) (s : State) : StepOutcome :=
  writeResult rt (truthWord (lessUnsigned (s.gpr rs) (signExtend16 imm))) s

/-- ANDI (R164). -/
def execAndi (rt rs : Reg) (imm : BitVec 16) (s : State) : StepOutcome :=
  writeResult rt (s.gpr rs &&& zeroExtend16 imm) s

/-- ORI (R165). -/
def execOri (rt rs : Reg) (imm : BitVec 16) (s : State) : StepOutcome :=
  writeResult rt (s.gpr rs ||| zeroExtend16 imm) s

/-- XORI (R166). -/
def execXori (rt rs : Reg) (imm : BitVec 16) (s : State) : StepOutcome :=
  writeResult rt (s.gpr rs ^^^ zeroExtend16 imm) s

/-- LUI (R167). -/
def execLui (rt : Reg) (imm : BitVec 16) (s : State) : StepOutcome := writeResult rt (upperImmediate imm) s

end Sys2Proof.Machine
end

