-- ==== Sys2Proof/Machine/AluRegister.lean ====
section
/-! DEFINITION. The ten ALU instructions with three operands (spec 42_alu_three_operand R170 to R179). -/

namespace Sys2Proof.Machine

/-- ADD (R170): signed overflow is as OVERFLOW_POLICY says. -/
def execAdd (rd rs rt : Reg) (s : State) : StepOutcome :=
  writeChecked rd (signedResult s.params ((s.gpr rs).toInt + (s.gpr rt).toInt)) s

/-- ADDU (R171). -/
def execAddu (rd rs rt : Reg) (s : State) : StepOutcome := writeResult rd (s.gpr rs + s.gpr rt) s

/-- SUB (R172): signed overflow is as OVERFLOW_POLICY says. -/
def execSub (rd rs rt : Reg) (s : State) : StepOutcome :=
  writeChecked rd (signedResult s.params ((s.gpr rs).toInt - (s.gpr rt).toInt)) s

/-- SUBU (R173). -/
def execSubu (rd rs rt : Reg) (s : State) : StepOutcome := writeResult rd (s.gpr rs - s.gpr rt) s

/-- SLT (R174). -/
def execSlt (rd rs rt : Reg) (s : State) : StepOutcome :=
  writeResult rd (truthWord (lessSigned (s.gpr rs) (s.gpr rt))) s

/-- SLTU (R175). -/
def execSltu (rd rs rt : Reg) (s : State) : StepOutcome :=
  writeResult rd (truthWord (lessUnsigned (s.gpr rs) (s.gpr rt))) s

/-- AND (R176). -/
def execAnd (rd rs rt : Reg) (s : State) : StepOutcome := writeResult rd (s.gpr rs &&& s.gpr rt) s

/-- OR (R177). -/
def execOr (rd rs rt : Reg) (s : State) : StepOutcome := writeResult rd (s.gpr rs ||| s.gpr rt) s

/-- XOR (R178). -/
def execXor (rd rs rt : Reg) (s : State) : StepOutcome := writeResult rd (s.gpr rs ^^^ s.gpr rt) s

/-- NOR (R179). -/
def execNor (rd rs rt : Reg) (s : State) : StepOutcome := writeResult rd (~~~(s.gpr rs ||| s.gpr rt)) s

end Sys2Proof.Machine
end

