-- ==== Sys2Proof/Machine/Control.lean ====
section
/-! DEFINITION. The two exception instructions (spec 46_exception_instructions R230, R231) and the five control
instructions (47_control R235 to R239). -/

namespace Sys2Proof.Machine

/-- SYSCALL (R230): the code field has no effect on execution. -/
def execSyscall (_code : BitVec 20) (s : State) : StepOutcome := settle s (.error (.raise .syscall))

/-- BREAK (R231). -/
def execBreak (_code : BitVec 20) (s : State) : StepOutcome := settle s (.error (.raise .breakpoint))

/-- MFC0 (R235). -/
def execMfc0 (rt rd : Reg) (s : State) : StepOutcome :=
  settle s <|
    match readControl s rd with
    | .ok (v, t) => .ok (t.setGpr rt v).advanceSeq
    | .error e => .error e

/-- MTC0 (R236). -/
def execMtc0 (rt rd : Reg) (s : State) : StepOutcome :=
  settle s <|
    match writeControl s rd (s.gpr rt) with
    | .ok t => .ok t.advanceSeq
    | .error e => .error e

/-- TLBR (R237). -/
def execTlbr (s : State) : StepOutcome := settle s (.ok s.readTlb.advanceSeq)

/-- TLBWI (R238). -/
def execTlbwi (s : State) : StepOutcome := settle s (.ok s.writeTlb.advanceSeq)

/-- RFE (R239): it pops the interrupt-enable stack and does not jump. -/
def execRfe (s : State) : StepOutcome := settle s (.ok s.popStatus.advanceSeq)

end Sys2Proof.Machine
end

