-- ==== Sys2Proof/Machine/Fetch.lean ====
section
/-! DEFINITION. Fetching an instruction (spec 20_memory R86, R82) and what a reserved word does (30_encoding R121). -/

namespace Sys2Proof.Machine

/-- The fetch log before a fetch at logical address `va`, physical address `pa`: under STRICT_CACHE a fetch through a
cached segment of a word that has gone stale is refused, another is noted (20_memory R82, D11; log 19). -/
def noteFetch (s : State) (va pa : Word) : Except Stop State :=
  if s.params.strictCache && inCachedSegment va then
    match lookupKey s.fetched (wordIndexOf pa).toNat with
    | some true => .error (.refuse (.staleFetch pa))
    | some false => .ok s
    | none => .ok { s with fetched := insertKey s.fetched (wordIndexOf pa).toNat false }
  else .ok s

/-- `Fetch()` (R86): the word at `pc`, and the state with the fetch noted. -/
def fetch (s : State) : Except Stop (Word × State) :=
  match translate s s.pc with
  | .error e => .error e
  | .ok pa =>
    match noteFetch s s.pc pa with
    | .error e => .error e
    | .ok t => physRead t pa .word

/-- The instruction a fetched word stands for; `none` where RESERVED_POLICY makes the word a no-op (30_encoding R115,
R121, D4, D5; log 15). -/
def instructionOf (p : Params) (w : Word) : Except Stop (Option Instr) :=
  let reserved : Except Stop (Option Instr) :=
    match p.reserved with
    | .refuse => .error (.refuse (.reservedEncoding w))
    | .trap code => .error (.raise (.policyTrap code))
    | .nop => .ok none
  match decode w with
  | .ok i => .ok (some i)
  | .error .unassigned => reserved
  | .error (.fieldNotZero i) =>
    match p.mustBeZero with
    | .reserved => reserved
    | .ignored => .ok (some i)

end Sys2Proof.Machine
end

