-- ==== Sys2Proof/Machine/Interrupt.lean ====
section
/-! DEFINITION. The interrupt test and its priority against the instruction's own exception (spec 60_exceptions R254,
R261, D8). -/

namespace Sys2Proof.Machine

/-- The exception a computation ends in, if it ends in one. -/
def raisedBy {α : Type} (r : Except Stop α) : Option Exc :=
  match r with
  | .error (.raise e) => some e
  | .ok _ | .error (.fault _) | .error (.refuse _) => none

/-- The exception an instruction would itself raise when executed in `s` (60_exceptions R250 item 5, R252): a TLB miss
on its data address, SYSCALL, BREAK, or the trap of an override policy. -/
def exceptionOf (i : Instr) (s : State) : Option Exc :=
  match i with
  | .lb _ rs imm | .lbu _ rs imm => raisedBy (loadData s (effectiveAddress s rs imm) .byte)
  | .lh _ rs imm | .lhu _ rs imm => raisedBy (loadData s (effectiveAddress s rs imm) .half)
  | .lw _ rs imm => raisedBy (loadData s (effectiveAddress s rs imm) .word)
  | .sb rt rs imm => raisedBy (storeData s (effectiveAddress s rs imm) .byte (s.gpr rt))
  | .sh rt rs imm => raisedBy (storeData s (effectiveAddress s rs imm) .half (s.gpr rt))
  | .sw rt rs imm => raisedBy (storeData s (effectiveAddress s rs imm) .word (s.gpr rt))
  | .lwl _ rs imm | .lwr _ rs imm | .swl _ rs imm | .swr _ rs imm =>
    raisedBy (translate s (effectiveAddress s rs imm))
  | .addi _ rs imm => raisedBy (signedResult s.params ((s.gpr rs).toInt + (signExtend16 imm).toInt))
  | .add _ rs rt => raisedBy (signedResult s.params ((s.gpr rs).toInt + (s.gpr rt).toInt))
  | .sub _ rs rt => raisedBy (signedResult s.params ((s.gpr rs).toInt - (s.gpr rt).toInt))
  | .syscall _ => some .syscall
  | .brk _ => some .breakpoint
  | .addiu .. | .slti .. | .sltiu .. | .andi .. | .ori .. | .xori .. | .lui ..
  | .addu .. | .subu .. | .slt .. | .sltu .. | .and .. | .or .. | .xor .. | .nor ..
  | .sll .. | .srl .. | .sra .. | .sllv .. | .srlv .. | .srav ..
  | .mult .. | .multu .. | .div .. | .divu .. | .mfhi .. | .mthi .. | .mflo .. | .mtlo ..
  | .j .. | .jal .. | .jr .. | .jalr .. | .beq .. | .bne .. | .blez .. | .bgtz .. | .bltz .. | .bgez ..
  | .bltzal .. | .bgezal .. | .mfc0 .. | .mtc0 .. | .tlbr | .tlbwi | .rfe => none

/-- The exception the instruction at `pc` would itself raise, its fetch and its decoding included (60_exceptions
R261). -/
def pendingException (s : State) : Option Exc :=
  match fetch s with
  | .error e => raisedBy (.error e : Except Stop State)
  | .ok (w, t) =>
    match instructionOf s.params w with
    | .error e => raisedBy (.error e : Except Stop State)
    | .ok none => none
    | .ok (some i) => exceptionOf i t

/-- Whether the interrupt, found pending with SR.IEc = 1 (R254), wins against the instruction at `pc` (R261, D8; log 12):
always, or where that instruction would itself raise nothing, or, under `both`, else by a free bit. -/
def interruptWins (s : State) : Bool :=
  match s.params.intPriority with
  | .interruptFirst => true
  | .instructionFirst => (pendingException s).isNone
  | .both => (pendingException (s.drawn 1)).isNone || s.any32.getLsbD 0

/-- The draws that the choice between the two takes: under `both` the free bit (log 12). -/
def drawsOfChoice : IntPriority → Nat
  | .interruptFirst | .instructionFirst => 0
  | .both => 1

/-- The draws that an interrupt takes: where INT_PRIORITY looks at the instruction at `pc` one more than the choice, the
word that a fetch from a device would give (log 12). -/
def drawsOfInterrupt : IntPriority → Nat
  | .interruptFirst => 0
  | .instructionFirst => 1
  | .both => 2

/-- The interrupt is taken, instead of the instruction at `pc` (R254). -/
def takeInterrupt (s : State) : State :=
  (s.drawn (drawsOfInterrupt s.params.intPriority)).enterException .interrupt

end Sys2Proof.Machine
end

