-- ==== Sys2Proof/Machine/Cycle.lean ====
section
/-! DEFINITION. What a step does before it executes an instruction (spec 60_exceptions R250, items 1 to 4): reset, the
interrupt test, the fetch and the decoding; and where a program's instruction is placed from outside. -/

namespace Sys2Proof.Machine

/-- The first part of a step: it ends there, or an instruction is to be executed in the given state. -/
inductive Begun where
  | ended (o : StepOutcome)
  | execute (i : Instr) (t : State)

/-- Fetch and decode (R250 items 3 and 4). -/
def beginInstruction (s : State) : Begun :=
  match fetch s with
  | .error e => .ended (settle s (.error e))
  | .ok (w, t) =>
    match instructionOf s.params w with
    | .error e => .ended (settle t (.error e))
    | .ok none => .ended (settle t (.ok t.advanceSeq))
    | .ok (some i) => .execute i t

/-- A pending interrupt (R254, R261): it is taken, or INT_PRIORITY has the instruction at `pc` run, which raises its own
exception with all that its fetch does. -/
def beginInterrupted (s : State) : Begun :=
  if interruptWins s then .ended (.next (takeInterrupt s))
  else beginInstruction (s.drawn (drawsOfChoice s.params.intPriority))

/-- R250 items 1 to 4: reset first, then the interrupt, then the fetch (R261). The signals of this step are consumed. -/
def beginStep (s : State) : Begun :=
  let t := s.dropInput
  if s.input.reset then .ended (.next t.resetStep)
  else if s.sr.iec && s.input.irq then beginInterrupted t
  else beginInstruction t

/-- A state whose next step samples no reset and no interrupt it would take. -/
def State.quietInput (s : State) : State :=
  if s.input.reset || (s.sr.iec && s.input.irq) then { s with inputs := { reset := false, irq := false } :: s.inputs.tail }
  else s

/-- The TLB entry that maps the page of an address onto the frame of the same number. -/
def identityEntry (va : Word) : TlbEntry :=
  { hi := { vpn := va.extractLsb' 12 20 }, lo := { pfn := va.extractLsb' 12 20, v := true } }

/-- A state in which the fetch at `pc` translates: itself, or with the page of `pc` mapped onto the frame of the same
number. -/
def State.mapFetch (s : State) : State :=
  match s.lookup s.pc with
  | some _ => s
  | none =>
    let i := s.pc.extractLsb' 12 6
    { s with tlb := s.tlb.set i.toNat (identityEntry s.pc) i.isLt }

/-- The physical address of the fetch, in a state in which it translates. -/
def State.fetchAddress (s : State) : Word := (s.lookup s.pc).getD s.pc

/-- The platform with memory at the word of a physical address: itself where RAM or ROM is there. -/
def memoryAt (p : Params) (pa : Word) : Params :=
  match kindAt p pa with
  | some .ram | some .rom => p
  | some .device | none => { p with physMap := { first := wordIndexOf pa, last := wordIndexOf pa, kind := .ram } :: p.physMap }

/-- The state with an instruction word placed where its next step fetches (log 22). -/
def placeWord (s : State) (w : Word) : State :=
  let t := s.quietInput.mapFetch
  let pa := t.fetchAddress
  { t with
    params := memoryAt t.params pa
    fetched := if lookupKey t.fetched (wordIndexOf pa).toNat = some true then insertKey t.fetched (wordIndexOf pa).toNat false
      else t.fetched
    mem := t.mem.setBytes pa (bytesOfWord w) }

end Sys2Proof.Machine
end

