-- ==== Sys2Proof/Machine/JumpBranch.lean ====
section
/-! DEFINITION. The twelve jumps and branches (spec 45_jump_branch R210 to R223). -/

namespace Sys2Proof.Machine

/-- J (R210). -/
def execJ (index : BitVec 26) (s : State) : StepOutcome := jumpRegion s s index

/-- JAL (R211). -/
def execJal (index : BitVec 26) (s : State) : StepOutcome :=
  jumpRegion s (s.setGpr linkRegister (linkAddress s.pc)) index

/-- JR (R212). -/
def execJr (rs : Reg) (s : State) : StepOutcome := jumpRegister s s (s.gpr rs)

/-- JALR (R213): the target is read before the link is written. -/
def execJalr (rd rs : Reg) (s : State) : StepOutcome :=
  jumpRegister s (s.setGpr rd (linkAddress s.pc)) (s.gpr rs)

/-- BEQ (R214). -/
def execBeq (rs rt : Reg) (imm : BitVec 16) (s : State) : StepOutcome := branchIf s s (s.gpr rs == s.gpr rt) imm

/-- BNE (R215). -/
def execBne (rs rt : Reg) (imm : BitVec 16) (s : State) : StepOutcome := branchIf s s (s.gpr rs != s.gpr rt) imm

/-- BLEZ (R216). -/
def execBlez (rs : Reg) (imm : BitVec 16) (s : State) : StepOutcome := branchIf s s (lessOrEqualZero (s.gpr rs)) imm

/-- BGTZ (R217). -/
def execBgtz (rs : Reg) (imm : BitVec 16) (s : State) : StepOutcome := branchIf s s (greaterThanZero (s.gpr rs)) imm

/-- BLTZ (R220). -/
def execBltz (rs : Reg) (imm : BitVec 16) (s : State) : StepOutcome := branchIf s s (lessThanZero (s.gpr rs)) imm

/-- BGEZ (R221). -/
def execBgez (rs : Reg) (imm : BitVec 16) (s : State) : StepOutcome := branchIf s s (greaterOrEqualZero (s.gpr rs)) imm

/-- BLTZAL (R222): the link is written whether or not the branch is taken; the condition reads the old register. -/
def execBltzal (rs : Reg) (imm : BitVec 16) (s : State) : StepOutcome :=
  branchIf s (s.setGpr linkRegister (linkAddress s.pc)) (lessThanZero (s.gpr rs)) imm

/-- BGEZAL (R223). -/
def execBgezal (rs : Reg) (imm : BitVec 16) (s : State) : StepOutcome :=
  branchIf s (s.setGpr linkRegister (linkAddress s.pc)) (greaterOrEqualZero (s.gpr rs)) imm

end Sys2Proof.Machine
end

