-- ==== Sys2Proof/Machine/LoadStore.lean ====
section
/-! DEFINITION. The twelve loads and stores (spec 40_load_store R140 to R152). -/

namespace Sys2Proof.Machine

/-- LB (R141). -/
def execLb (rt rs : Reg) (imm : BitVec 16) (s : State) : StepOutcome := loadInto .byte signExtendByte rt rs imm s

/-- LBU (R142). -/
def execLbu (rt rs : Reg) (imm : BitVec 16) (s : State) : StepOutcome := loadInto .byte id rt rs imm s

/-- SB (R143). -/
def execSb (rt rs : Reg) (imm : BitVec 16) (s : State) : StepOutcome := storeFrom .byte rt rs imm s

/-- LH (R144). -/
def execLh (rt rs : Reg) (imm : BitVec 16) (s : State) : StepOutcome := loadInto .half signExtendHalf rt rs imm s

/-- LHU (R145). -/
def execLhu (rt rs : Reg) (imm : BitVec 16) (s : State) : StepOutcome := loadInto .half id rt rs imm s

/-- SH (R146). -/
def execSh (rt rs : Reg) (imm : BitVec 16) (s : State) : StepOutcome := storeFrom .half rt rs imm s

/-- LW (R147). -/
def execLw (rt rs : Reg) (imm : BitVec 16) (s : State) : StepOutcome := loadInto .word id rt rs imm s

/-- SW (R148). -/
def execSw (rt rs : Reg) (imm : BitVec 16) (s : State) : StepOutcome := storeFrom .word rt rs imm s

/-- LWL (R149). -/
def execLwl (rt rs : Reg) (imm : BitVec 16) (s : State) : StepOutcome := loadMerged mergeLeft rt rs imm s

/-- LWR (R150). -/
def execLwr (rt rs : Reg) (imm : BitVec 16) (s : State) : StepOutcome := loadMerged mergeRight rt rs imm s

/-- SWL (R151): bytes 3-b to 3 of the register go to offsets 0 to b of the aligned word. -/
def execSwl (rt rs : Reg) (imm : BitVec 16) (s : State) : StepOutcome :=
  let addr := effectiveAddress s rs imm
  storeAround s addr 0 (leftBytes (s.gpr rt) (byteOffset addr))

/-- SWR (R152): bytes 0 to 3-b of the register go to offsets b to 3 of the aligned word. -/
def execSwr (rt rs : Reg) (imm : BitVec 16) (s : State) : StepOutcome :=
  let addr := effectiveAddress s rs imm
  storeAround s addr (byteOffset addr) (rightBytes (s.gpr rt) (byteOffset addr))

end Sys2Proof.Machine
end

