-- ==== Sys2Proof/Machine/MultiplyDivide.lean ====
section
/-! DEFINITION. The eight multiply, divide and HI/LO instructions (spec 44_multiply_divide R195 to R202). -/

namespace Sys2Proof.Machine

/-- The high and the low word of a 64-bit product go to HI and LO (R195, R196). -/
def writeProduct (p : BitVec 64) (s : State) : StepOutcome := writeHiLo (p.extractLsb' 32 32) (p.extractLsb' 0 32) s

/-- A division whose result is undetermined: LO and HI each become a free value, two independent draws (R197, R198,
D17). -/
def writeUndetermined (s : State) : StepOutcome :=
  settle s (.ok ((s.setHiLo (Config.any32 (s.draws + 1)) s.any32).drawn 2).advanceSeq)

/-- MULT (R195). -/
def execMult (rs rt : Reg) (s : State) : StepOutcome :=
  writeProduct (BitVec.ofInt 64 ((s.gpr rs).toInt * (s.gpr rt).toInt)) s

/-- MULTU (R196). -/
def execMultu (rs rt : Reg) (s : State) : StepOutcome :=
  writeProduct (BitVec.ofNat 64 ((s.gpr rs).toNat * (s.gpr rt).toNat)) s

/-- Whether DIV has no determined result: a zero divisor, or -2^31 divided by -1 (R197). -/
def divUndetermined (n d : Word) : Bool := d == 0#32 || (n == 0x80000000#32 && d == 0xFFFFFFFF#32)

/-- DIV (R197): the quotient rounds toward zero, the remainder has the sign of the dividend. -/
def execDiv (rs rt : Reg) (s : State) : StepOutcome :=
  if divUndetermined (s.gpr rs) (s.gpr rt) then writeUndetermined s
  else
    let n := (s.gpr rs).toInt
    let d := (s.gpr rt).toInt
    writeHiLo (BitVec.ofInt 32 (n - n.tdiv d * d)) (BitVec.ofInt 32 (n.tdiv d)) s

/-- DIVU (R198). -/
def execDivu (rs rt : Reg) (s : State) : StepOutcome :=
  if s.gpr rt = 0#32 then writeUndetermined s
  else
    let n := (s.gpr rs).toNat
    let d := (s.gpr rt).toNat
    writeHiLo (BitVec.ofNat 32 (n % d)) (BitVec.ofNat 32 (n / d)) s

/-- MFHI (R199). -/
def execMfhi (rd : Reg) (s : State) : StepOutcome := writeResult rd s.hi s

/-- MTHI (R200). -/
def execMthi (rs : Reg) (s : State) : StepOutcome := writeHiLo (s.gpr rs) s.lo s

/-- MFLO (R201). -/
def execMflo (rd : Reg) (s : State) : StepOutcome := writeResult rd s.lo s

/-- MTLO (R202). -/
def execMtlo (rs : Reg) (s : State) : StepOutcome := writeHiLo s.hi (s.gpr rs) s

end Sys2Proof.Machine
end

