-- ==== Sys2Proof/Machine/Shift.lean ====
section
/-! DEFINITION. The six shifts (spec 43_shift R185 to R190). -/

namespace Sys2Proof.Machine

/-- SLL (R185). -/
def execSll (rd rt : Reg) (shamt : BitVec 5) (s : State) : StepOutcome := writeResult rd (s.gpr rt <<< shamt.toNat) s

/-- SRL (R186). -/
def execSrl (rd rt : Reg) (shamt : BitVec 5) (s : State) : StepOutcome := writeResult rd (s.gpr rt >>> shamt.toNat) s

/-- SRA (R187). -/
def execSra (rd rt : Reg) (shamt : BitVec 5) (s : State) : StepOutcome :=
  writeResult rd ((s.gpr rt).sshiftRight shamt.toNat) s

/-- SLLV (R188). -/
def execSllv (rd rt rs : Reg) (s : State) : StepOutcome :=
  writeResult rd (s.gpr rt <<< (shiftAmount (s.gpr rs)).toNat) s

/-- SRLV (R189). -/
def execSrlv (rd rt rs : Reg) (s : State) : StepOutcome :=
  writeResult rd (s.gpr rt >>> (shiftAmount (s.gpr rs)).toNat) s

/-- SRAV (R190). -/
def execSrav (rd rt rs : Reg) (s : State) : StepOutcome :=
  writeResult rd ((s.gpr rt).sshiftRight (shiftAmount (s.gpr rs)).toNat) s

end Sys2Proof.Machine
end

