-- ==== Sys2Proof/Machine/Step.lean ====
section
/-! DEFINITION. One step of the machine (spec 60_exceptions R250), and the placing of a fetched word. -/

namespace Sys2Proof.Machine

/-- One step (R250). -/
def step (s : State) : Host.Outcome State Fault Refusal :=
  match beginStep s with
  | .ended o => o
  | .execute i t => exec i t

/-- `s` with the instruction whose bits are `w`, numbered from bit 0 and 0 at and above `nbits`, stored where the next
step fetches, and all else that this fetch needs (log 22). -/
def State.withFetchWord (s : State) (nbits w : Nat) : State := placeWord s (BitVec.ofNat 32 (w % 2 ^ nbits))

end Sys2Proof.Machine
end

