-- ==== Sys2Proof/Safety.lean ====
section
/-! DEFINITION. What the statements mean by a state the machine can be in, and by a run. -/

namespace Sys2Proof.Machine

/-- The invariant of every state the machine reaches: `pc` and `npc` are word addresses (spec 10_state R26), outside a
delay slot the next instruction follows the present one (R27), the slot of register 0 is zero (R22), and memory has its
canonical form. -/
structure State.Inv (s : State) : Prop where
  pcAligned : s.pc.extractLsb' 0 2 = 0#2
  npcAligned : s.npc.extractLsb' 0 2 = 0#2
  sequential : s.ds = false → s.npc = s.pc + 4#32
  zeroSlot : s.regs[0] = 0#32
  memWf : s.mem.wf = true

/-- A run of at most `fuel` steps that ends where the end-of-run predicate of D23 first holds; `none` where it does not
get there or a step stops. -/
def runUntil (stop : State → Bool) : Nat → State → Option State
  | 0, s => if stop s then some s else none
  | n + 1, s =>
    if stop s then some s
    else match step s with
      | .next t => runUntil stop n t
      | .fault _ => none
      | .refused _ => none

/-- A state is safe for `n` steps when none of them stops. -/
def safeFor : Nat → State → Bool
  | 0, _ => true
  | n + 1, s =>
    match step s with
    | .next t => safeFor n t
    | .fault _ => false
    | .refused _ => false

/-! ## What a step leaves unchanged

The predicates say what holds of a next state `t` against the state `s` before it. The program counter, `npc` and `ds`
stand apart, in `Sequential` and `Branched`. -/

/-- The control registers and the TLB are unchanged (10_state R29, R38). -/
structure SameControl (s t : State) : Prop where
  index : t.index = s.index
  entryLo : t.entryLo = s.entryLo
  badVaddr : t.badVaddr = s.badVaddr
  entryHi : t.entryHi = s.entryHi
  sr : t.sr = s.sr
  cause : t.cause = s.cause
  epc : t.epc = s.epc
  tlb : t.tlb = s.tlb

/-- Every general register reads as before. -/
def SameGprs (s t : State) : Prop := ∀ r, t.gpr r = s.gpr r

/-- Every byte of memory reads as before. -/
def SameMemory (s t : State) : Prop := ∀ a, t.mem.byteAt a = s.mem.byteAt a

/-- The model's own fields are unchanged, but that `n` free values have been drawn. -/
structure SameModel (s t : State) (n : Nat) : Prop where
  inputs : t.inputs = s.inputs
  outputs : t.outputs = s.outputs
  draws : t.draws = s.draws + n
  fetched : t.fetched = s.fetched
  params : t.params = s.params

/-- Nothing but general registers changes, and `n` free values are drawn. -/
structure SameBesidesGprs (s t : State) (n : Nat) : Prop where
  hi : t.hi = s.hi
  lo : t.lo = s.lo
  control : SameControl s t
  memory : SameMemory s t
  model : SameModel s t n

/-- Nothing changes, and `n` free values are drawn. -/
structure SameData (s t : State) (n : Nat) : Prop where
  gprs : SameGprs s t
  rest : SameBesidesGprs s t n

/-- Register `d` is written with `v`, register 0 discards it (10_state R22), and nothing else changes but that `n` free
values are drawn. -/
structure OnlyGpr (s t : State) (d : Reg) (v : Word) (n : Nat) : Prop where
  dest : t.gpr d = if d = 0#5 then 0#32 else v
  others : ∀ r, r ≠ d → t.gpr r = s.gpr r
  rest : SameBesidesGprs s t n

/-- HI and LO hold `h` and `l`, and nothing else changes but that `n` free values are drawn. -/
structure OnlyHiLo (s t : State) (h l : Word) (n : Nat) : Prop where
  hi : t.hi = h
  lo : t.lo = l
  gprs : SameGprs s t
  control : SameControl s t
  memory : SameMemory s t
  model : SameModel s t n

/-- `n` bytes lie from physical address `pa` on. -/
def InBytes (pa : Word) (n : Nat) (a : Word) : Prop := ∃ k < n, a = pa + BitVec.ofNat 32 k

/-- What a store to the word of `pa` does to the fetch log: under STRICT_CACHE that word, where a cached fetch has noted
it, becomes stale; no other entry changes, and without STRICT_CACHE none (20_memory R82, D11; log 19). -/
structure StoreNoted (s t : State) (pa : Word) : Prop where
  strict : s.params.strictCache = true → ∀ k, lookupKey t.fetched k =
    if k = pa.toNat / 4 ∧ lookupKey s.fetched k ≠ none then some true else lookupKey s.fetched k
  coherent : s.params.strictCache = false → t.fetched = s.fetched

/-- What a fetch at logical address `va`, physical address `pa`, does to the fetch log where it is not refused: under
STRICT_CACHE and outside kseg1 the word is noted as fetched; no other entry changes, and otherwise none (20_memory R82,
D11; log 19). -/
structure FetchNoted (s t : State) (va pa : Word) : Prop where
  cached : s.params.strictCache = true → va.extractLsb' 29 3 ≠ 0b101#3 → ∀ k, lookupKey t.fetched k =
    if k = pa.toNat / 4 then some false else lookupKey s.fetched k
  uncached : s.params.strictCache = false ∨ va.extractLsb' 29 3 = 0b101#3 → t.fetched = s.fetched

/-- The bytes `bytes` stand in memory from `pa` on, every byte outside them reads as before, and nothing else changes but
the fetch log that STRICT_CACHE keeps of stores. -/
structure OnlyBytes (s t : State) (pa : Word) (bytes : List Byte) : Prop where
  stored : ∀ k, (h : k < bytes.length) → t.mem.byteAt (pa + BitVec.ofNat 32 k) = bytes[k]
  outside : ∀ a, ¬ InBytes pa bytes.length a → t.mem.byteAt a = s.mem.byteAt a
  gprs : SameGprs s t
  hi : t.hi = s.hi
  lo : t.lo = s.lo
  control : SameControl s t
  inputs : t.inputs = s.inputs
  outputs : t.outputs = s.outputs
  draws : t.draws = s.draws
  fetched : StoreNoted s t pa
  params : t.params = s.params

/-- A store at `pa` that reaches no RAM: `writes` are put out, newest first, every byte of memory reads as before, and nothing
else changes but the fetch log that STRICT_CACHE keeps of stores. -/
structure OnlyOutputs (s t : State) (pa : Word) (writes : List DeviceWrite) : Prop where
  outputs : t.outputs = writes ++ s.outputs
  memory : SameMemory s t
  gprs : SameGprs s t
  hi : t.hi = s.hi
  lo : t.lo = s.lo
  control : SameControl s t
  inputs : t.inputs = s.inputs
  draws : t.draws = s.draws
  fetched : StoreNoted s t pa
  params : t.params = s.params

/-- `AdvanceSeq()` (00_scope R7). -/
structure Sequential (s t : State) : Prop where
  pc : t.pc = s.npc
  npc : t.npc = s.npc + 4#32
  ds : t.ds = false

/-- The delay slot comes next and then the instruction at `after` (00_scope R7 `AdvanceBranch`). -/
structure Branched (s t : State) (after : Word) : Prop where
  pc : t.pc = s.npc
  npc : t.npc = after
  ds : t.ds = true

/-- The exception entry of 60_exceptions R258 with code `code`, leaving `bad` in BadVaddr. -/
structure Entered (s t : State) (code : ExcCode) (bad : Word) : Prop where
  epc : t.epc = if s.ds then s.pc - 4#32 else s.pc
  bd : t.cause.bd = s.ds
  excCode : t.cause.excCode = code
  badVaddr : t.badVaddr = bad
  ieo : t.sr.ieo = s.sr.iep
  iep : t.sr.iep = s.sr.iec
  iec : t.sr.iec = false
  pc : t.pc = 0xBFC00180#32
  npc : t.npc = 0xBFC00184#32
  ds : t.ds = false
  gprs : SameGprs s t
  hi : t.hi = s.hi
  lo : t.lo = s.lo
  index : t.index = s.index
  entryLo : t.entryLo = s.entryLo
  entryHi : t.entryHi = s.entryHi
  tlb : t.tlb = s.tlb
  memory : SameMemory s t
  model : SameModel s t 0

/-- A word that decodes to `i`, and `i` answers a next state of which `post` holds. -/
def RunsAs (w : Word) (i : Instr) (s : State) (post : State → Prop) : Prop :=
  decode w = .ok i ∧ ∃ t, exec i s = .next t ∧ post t

/-- The state after the fetch at `pc`, and before the instruction runs: under STRICT_CACHE the fetch is noted, and where
the word comes from a device one value is drawn (20_memory R86, R82); the state itself where the fetch raises or stops. -/
def State.afterFetch (s : State) : State :=
  match fetch s with
  | .ok (_, t) => t
  | .error _ => s

/-- What stands at a physical address can be read as memory: RAM or ROM. -/
abbrev isMemory (s : State) (pa : Word) : Prop := kindAt s.params pa = some .ram ∨ kindAt s.params pa = some .rom

/-- The step goes on to fetch: no reset, and no interrupt it takes (60_exceptions R250). -/
abbrev State.quiet (s : State) : Prop := s.input.reset = false ∧ (s.sr.iec && s.input.irq) = false

end Sys2Proof.Machine
end

