-- ==== Sys2Proof/Certificates/Slice0/Obligations.lean ====
section
/-! DEFINITION. The statements, for the provers. The words are written field by field from the spec's encodings; the
results are written in the terms of the spec's rules (integers, bytes, bits), not in those of the meanings. -/

open Sys2Proof Sys2Proof.Machine

/-! ## Encoding -/

/-- Some of the spec's example words decode to the instructions they stand for (rules R141, R167, R176, R185, R211,
R222, R231, R236, R239). -/
def Obligations.SpecExampleWordsDecode : Prop :=
  decode 0x8088FFFF#32 = .ok (.lb 8 4 0xFFFF) ∧
  decode 0x3C088000#32 = .ok (.lui 8 0x8000) ∧
  decode 0x01095024#32 = .ok (.and 10 8 9) ∧
  decode 0x00095100#32 = .ok (.sll 10 9 4) ∧
  decode 0x0C000800#32 = .ok (.jal 0x800) ∧
  decode 0x05100004#32 = .ok (.bltzal 8 4) ∧
  decode 0x000001CD#32 = .ok (.brk 7) ∧
  decode 0x40886000#32 = .ok (.mtc0 8 12) ∧
  decode 0x42000010#32 = .ok .rfe

/-- Decoding the word of any instruction gives the instruction back, with every operand at every value. -/
def Obligations.DecodeInvertsEncode : Prop := ∀ i : Instr, decode (encode i) = .ok i

/-- A word that decodes to an instruction is the word of that instruction: no other word decodes to it, so no bit of a
must-be-zero field is ignored (R115, R120). -/
def Obligations.EncodeInvertsDecode : Prop := ∀ (w : Word) (i : Instr), decode w = .ok i → encode i = w

/-- The numbers that R116, R117, R118 and R119 leave out select no instruction. A COP0 word whose rs field is 0 or 4 does
select MFC0 or MTC0, whatever its function field, which R120 says must be zero: with another function number it is
reserved for that field. -/
def Obligations.UnassignedNumbersSelectNothing : Prop :=
  ∀ w : Word,
    let op := (w.extractLsb' 26 6).toNat
    let funct := (w.extractLsb' 0 6).toNat
    let rt := (w.extractLsb' 16 5).toNat
    let rs := (w.extractLsb' 21 5).toNat
    ((17 ≤ op ∧ op ≤ 31) ∨ op = 39 ∨ op = 44 ∨ op = 45 ∨ 47 ≤ op → decode w = .error .unassigned) ∧
    (op = 0 → (funct = 1 ∨ funct = 5 ∨ funct = 10 ∨ funct = 11 ∨ funct = 14 ∨ funct = 15 ∨ (20 ≤ funct ∧ funct ≤ 23) ∨
      (28 ≤ funct ∧ funct ≤ 31) ∨ funct = 40 ∨ funct = 41 ∨ 44 ≤ funct) → decode w = .error .unassigned) ∧
    (op = 1 → ((2 ≤ rt ∧ rt ≤ 15) ∨ 18 ≤ rt) → decode w = .error .unassigned) ∧
    (op = 16 → ((rs ≠ 0 ∧ rs ≠ 4 ∧ rs ≠ 16) ∨ (rs = 16 ∧ funct ≠ 1 ∧ funct ≠ 2 ∧ funct ≠ 16)) →
      decode w = .error .unassigned) ∧
    (op = 16 → funct ≠ 0 →
      (rs = 0 → decode w = .error (.fieldNotZero (.mfc0 (w.extractLsb' 16 5) (w.extractLsb' 11 5)))) ∧
      (rs = 4 → decode w = .error (.fieldNotZero (.mtc0 (w.extractLsb' 16 5) (w.extractLsb' 11 5)))))

/-! ## Steps -/

/-- A step runs the decoded instruction. Where no reset and no interrupt comes first, `pc` translates, and STRICT_CACHE
has nothing against the fetch, the step runs `exec i` for the word at `pc`, in RAM or ROM, that decodes to `i`: in the
state with the step's signals consumed and, under STRICT_CACHE alone, the fetch noted. From a device address the word is
a free one, after one draw (R86, R78; that it is, the model's choice, log 25; the note, log 19). -/
def Obligations.StepRunsDecodedInstruction : Prop :=
  ∀ (s t : State) (pa : Word),
    s.quiet → s.lookup s.pc = some pa → noteFetch { s with inputs := s.inputs.tail } s.pc pa = .ok t →
    (t = { s with inputs := s.inputs.tail, fetched := t.fetched } ∧ FetchNoted s t s.pc pa) ∧
    (isMemory s pa → ∀ i,
      decode (s.mem.byteAt (pa + 3#32) ++ s.mem.byteAt (pa + 2#32) ++ s.mem.byteAt (pa + 1#32) ++ s.mem.byteAt pa) = .ok i →
      step s = exec i t) ∧
    (kindAt s.params pa = some .device →
      ∃ w, fetch s.dropInput = .ok (w, t.drawn 1) ∧ ∀ i, decode w = .ok i → step s = exec i (t.drawn 1))

/-- The reset step (R290): it clears IEc, goes to the reset vector, and every other piece of state keeps its value (the
step's signals are consumed). That it comes before everything else in the step is the spec's decision D24 (log 23). -/
def Obligations.ResetStepClearsIecOnly : Prop :=
  ∀ s : State, s.input.reset = true →
    step s = .next { s with
      sr := { ieo := s.sr.ieo, iep := s.sr.iep, iec := false }
      pc := 0xBFC00000#32
      npc := 0xBFC00004#32
      ds := false
      inputs := s.inputs.tail }

/-- An interrupt is taken instead of the instruction at `pc` (R254): with the default priority always, and with any
priority where the instruction at `pc` would itself raise nothing. Under the two other priorities the test draws free
values (the model's form, log 12). -/
def Obligations.InterruptTaken : Prop :=
  ∀ s : State, s.input.reset = false → s.sr.iec = true → s.input.irq = true →
    (s.params.intPriority = .interruptFirst ∨
      (s.params.intPriority = .instructionFirst ∧ pendingException s.dropInput = none) ∨
      (s.params.intPriority = .both ∧ pendingException (s.dropInput.drawn 1) = none)) →
    ∃ t n, step s = .next t ∧ Entered (s.dropInput.drawn n) t 0#5 s.badVaddr ∧
      (s.params.intPriority = .interruptFirst → n = 0) ∧ (s.params.intPriority = .instructionFirst → n = 1) ∧
      (s.params.intPriority = .both → n = 2)

/-- The instruction's own exception. Where nothing comes before the instruction, `pendingException` is what it raises: the
step enters `some e`, and with `none` it enters no exception, goes on to the instruction at `npc`, and only an MTC0 or an
RFE writes what an entry writes. Against a pending interrupt (R261, D8): with instruction first that exception is entered,
with all that its fetch does, and with both admitted one of the two is. The spec's decision D8; the draws, and that which
one comes is a free value, are the model's form (log 12). -/
def Obligations.InterruptPriority : Prop :=
  ∀ (s : State) (e : Exc),
    let enters := fun u : State => ∃ t, step s = .next t ∧ Entered u t (e.code s.params) (e.badVaddr s.badVaddr)
    (s.quiet → pendingException s.dropInput = some e → enters s.dropInput.afterFetch) ∧
    (s.quiet → pendingException s.dropInput = none → ∀ t, step s = .next t → t.pc = s.npc ∧
      ((t.epc = s.epc ∧ t.cause = s.cause ∧ t.badVaddr = s.badVaddr ∧ t.sr = s.sr) ∨
        ∃ u i, beginStep s = .execute i u ∧ (i = .rfe ∨ ∃ rt c, i = .mtc0 rt c))) ∧
    (s.input.reset = false → s.sr.iec = true → s.input.irq = true →
      (s.params.intPriority = .instructionFirst → pendingException s.dropInput = some e →
        enters s.dropInput.afterFetch) ∧
      (s.params.intPriority = .both → pendingException (s.dropInput.drawn 1) = some e →
        enters (s.dropInput.drawn 1).afterFetch ∨
          ∃ t, step s = .next t ∧ Entered (s.dropInput.drawn 2) t 0#5 s.badVaddr))

/-- While IEc = 0 the irq input is ignored (R254): the step is the same whatever it is. That the signals of the steps to
come are a list in the state is the model's choice (log 11). -/
def Obligations.InterruptMaskedByIec : Prop :=
  ∀ (s : State) (r a b : Bool) (rest : List Input), s.sr.iec = false →
    step { s with inputs := { reset := r, irq := a } :: rest } = step { s with inputs := { reset := r, irq := b } :: rest }

/-- A TLB miss on the instruction fetch (R260): BadVaddr is `pc`; EPC is `pc`, or in a delay slot the branch before it,
with BD = 1. -/
def Obligations.FetchMissEntersException : Prop :=
  ∀ s : State, s.quiet → s.lookup s.pc = none → ∃ t, step s = .next t ∧ Entered s.dropInput t 1#5 s.pc

/-- A reserved word stops the step by name under the default policies (R121), and under the override policies of D4 and
D5 traps, or does nothing but advance, or, with the loose decoder, runs as the instruction it selects (the spec's
decisions; the model's form of the policies, log 15). -/
def Obligations.ReservedWordOutcome : Prop :=
  ∀ (s t : State) (w : Word) (r : Reserved), s.quiet → fetch s.dropInput = .ok (w, t) → decode w = .error r →
    ((r = .unassigned ∨ s.params.mustBeZero = .reserved) →
      (s.params.reserved = .refuse → step s = .refused (.reservedEncoding w)) ∧
      (∀ c, s.params.reserved = .trap c → ∃ u, step s = .next u ∧ Entered t u c t.badVaddr) ∧
      (s.params.reserved = .nop → ∃ u, step s = .next u ∧ SameData t u 0 ∧ Sequential t u)) ∧
    (∀ i, r = .fieldNotZero i → s.params.mustBeZero = .ignored → step s = exec i t)

/-- STRICT_CACHE (R82, the spec's decision D11; the model's bookkeeping, log 19). A fetch is refused as stale exactly where
the parameter is set, `pc` is outside kseg1, and the word has been stored to since its last cached fetch. Under the
parameter a step that fetches outside kseg1 leaves its word noted, an exception it raises included, and a store of any
width marks a noted word stale. -/
def Obligations.StaleFetchRefused : Prop :=
  ∀ (s : State) (pa : Word),
    let entry := fun t : State => lookupKey t.fetched (pa.toNat / 4)
    (s.quiet → s.lookup s.pc = some pa →
      (step s = .refused (.staleFetch pa) ↔
        s.params.strictCache = true ∧ s.pc.extractLsb' 29 3 ≠ 0b101#3 ∧ entry s = some true) ∧
      (s.params.strictCache = true → s.pc.extractLsb' 29 3 ≠ 0b101#3 → ∀ t, step s = .next t → entry t ≠ none)) ∧
    (∀ (t : State) (rt rs : Reg) (imm : BitVec 16) (i : Instr),
      let addr := s.gpr rs + imm.signExtend 32
      s.params.strictCache = true → entry s ≠ none → s.lookup addr = some pa →
      (i = .sb rt rs imm ∨ i = .swl rt rs imm ∨ i = .swr rt rs imm ∨ (i = .sh rt rs imm ∧ addr.toNat % 2 = 0) ∨
        (i = .sw rt rs imm ∧ addr.toNat % 4 = 0)) →
      exec i s = .next t → entry t = some true)

/-! ## Exceptions and the return -/

/-- `ExceptionEntry(E)` of R258 for the exceptions of R252: what every exception but reset writes, and that it writes
nothing else. -/
def Obligations.ExceptionEntry : Prop :=
  ∀ s : State,
    Entered s (s.enterException .interrupt) 0#5 s.badVaddr ∧
    (∀ va, Entered s (s.enterException (.tlbMiss va)) 1#5 va) ∧
    Entered s (s.enterException .syscall) s.params.excSyscall s.badVaddr ∧
    Entered s (s.enterException .breakpoint) s.params.excBreak s.badVaddr

/-- SYSCALL and BREAK enter the exception whatever their code and whatever IEc (R230, R231, R232). -/
def Obligations.SyscallAndBreakEnter : Prop :=
  ∀ (s : State) (code : BitVec 20),
    RunsAs (0#6 ++ code ++ 12#6) (.syscall code) s (fun t => Entered s t s.params.excSyscall s.badVaddr) ∧
    RunsAs (0#6 ++ code ++ 13#6) (.brk code) s (fun t => Entered s t s.params.excBreak s.badVaddr)

/-- RFE pops the interrupt-enable stack and changes nothing else; it is no jump (R239). -/
def Obligations.RfePopsStack : Prop :=
  ∀ s : State, RunsAs 0x42000010#32 .rfe s fun t =>
    t = { s with
      sr := { ieo := s.sr.ieo, iep := s.sr.ieo, iec := s.sr.iep }
      pc := s.npc
      npc := s.npc + 4#32
      ds := false }

/-- The narrative of R264: two nested exceptions and two returns, seen in (IEo, IEp, IEc). That IEo keeps its value at
each RFE is the spec's own decision D20 (log 23). -/
def Obligations.NestedEntryAndReturn : Prop :=
  ∀ (s : State) (e f : Exc) (a b : Bool), s.sr = { ieo := a, iep := b, iec := true } →
    (s.enterException e).sr = { ieo := b, iep := true, iec := false } ∧
    ((s.enterException e).enterException f).sr = { ieo := true, iep := false, iec := false } ∧
    ∃ t u, exec .rfe ((s.enterException e).enterException f) = .next t ∧
      t.sr = { ieo := true, iep := true, iec := false } ∧
      exec .rfe t = .next u ∧ u.sr = { ieo := true, iep := true, iec := true }

/-- The return sequence of R265: MFC0 of EPC, JR, and RFE in its delay slot bring control to EPC with the stack popped.
That RFE leaves IEo as it was is the spec's own decision D20 (log 23). -/
def Obligations.ReturnSequenceResumes : Prop :=
  ∀ (s : State) (k : Reg), k ≠ 0#5 → s.epc.extractLsb' 0 2 = 0#2 →
    ∃ t u v, exec (.mfc0 k 14) s = .next t ∧ exec (.jr k) t = .next u ∧ exec .rfe u = .next v ∧
      v.pc = s.epc ∧ v.npc = s.epc + 4#32 ∧ v.ds = false ∧
      v.sr = { ieo := s.sr.ieo, iep := s.sr.ieo, iec := s.sr.iep } ∧ (∀ r, r ≠ k → v.gpr r = s.gpr r)

/-! ## ALU, shifts, multiply and divide -/

/-- ADDU, SUBU, SLT, SLTU, AND, OR, XOR, NOR: the word, the result, and that nothing else changes (R171, R173 to R179; the
function numbers and what each name computes are the spec's general knowledge, log 24).
The bitwise results are given bit by bit, the others in integers. -/
def Obligations.ThreeOperandAlu : Prop :=
  ∀ (s : State) (rd rs rt : Reg),
    let a := s.gpr rs
    let b := s.gpr rt
    let runs := fun (funct : BitVec 6) (i : Instr) (v : Word) =>
      RunsAs (0#6 ++ rs ++ rt ++ rd ++ 0#5 ++ funct) i s fun t => OnlyGpr s t rd v 0 ∧ Sequential s t
    runs 33#6 (.addu rd rs rt) (BitVec.ofInt 32 (a.toInt + b.toInt)) ∧
    runs 35#6 (.subu rd rs rt) (BitVec.ofInt 32 (a.toInt - b.toInt)) ∧
    runs 42#6 (.slt rd rs rt) (if a.toInt < b.toInt then 1#32 else 0#32) ∧
    runs 43#6 (.sltu rd rs rt) (if a.toNat < b.toNat then 1#32 else 0#32) ∧
    runs 36#6 (.and rd rs rt) (BitVec.ofFnLE fun k : Fin 32 => a.getLsbD k && b.getLsbD k) ∧
    runs 37#6 (.or rd rs rt) (BitVec.ofFnLE fun k : Fin 32 => a.getLsbD k || b.getLsbD k) ∧
    runs 38#6 (.xor rd rs rt) (BitVec.ofFnLE fun k : Fin 32 => a.getLsbD k ^^ b.getLsbD k) ∧
    runs 39#6 (.nor rd rs rt) (BitVec.ofFnLE fun k : Fin 32 => !(a.getLsbD k || b.getLsbD k))

/-- ADDIU, SLTI, SLTIU, ANDI, ORI, XORI, LUI (R161 to R167; the opcodes and what each name computes are the spec's
general knowledge, log 24). -/
def Obligations.ImmediateAlu : Prop :=
  ∀ (s : State) (rt rs : Reg) (imm : BitVec 16),
    let a := s.gpr rs
    let runs := fun (op : BitVec 6) (i : Instr) (v : Word) =>
      RunsAs (op ++ rs ++ rt ++ imm) i s fun t => OnlyGpr s t rt v 0 ∧ Sequential s t
    runs 9#6 (.addiu rt rs imm) (BitVec.ofInt 32 (a.toInt + imm.toInt)) ∧
    runs 10#6 (.slti rt rs imm) (if a.toInt < imm.toInt then 1#32 else 0#32) ∧
    runs 11#6 (.sltiu rt rs imm) (if a.toNat < (BitVec.ofInt 32 imm.toInt).toNat then 1#32 else 0#32) ∧
    runs 12#6 (.andi rt rs imm) (0#16 ++ (a.extractLsb' 0 16 &&& imm)) ∧
    runs 13#6 (.ori rt rs imm) (a.extractLsb' 16 16 ++ (a.extractLsb' 0 16 ||| imm)) ∧
    runs 14#6 (.xori rt rs imm) (a.extractLsb' 16 16 ++ (a.extractLsb' 0 16 ^^^ imm)) ∧
    RunsAs (15#6 ++ 0#5 ++ rt ++ imm) (.lui rt imm) s
      fun t => OnlyGpr s t rt (BitVec.ofNat 32 (imm.toNat * 65536)) 0 ∧ Sequential s t

/-- SLL, SRL, SRA and SLLV, SRLV, SRAV (R185 to R190): multiplication and floor division by a power of two; a variable
amount is the low five bits of its register. The function numbers, the directions, the fill and the five bits are the
spec's general knowledge (log 24). -/
def Obligations.Shifts : Prop :=
  ∀ (s : State) (rd rs rt : Reg) (n : BitVec 5),
    let v := s.gpr rt
    let left := fun k : Nat => BitVec.ofNat 32 (v.toNat * 2 ^ k)
    let right := fun k : Nat => BitVec.ofNat 32 (v.toNat / 2 ^ k)
    let arith := fun k : Nat => BitVec.ofInt 32 (v.toInt / 2 ^ k)
    let m := (s.gpr rs).toNat % 32
    let fixed := fun (funct : BitVec 6) (i : Instr) (x : Word) =>
      RunsAs (0#6 ++ 0#5 ++ rt ++ rd ++ n ++ funct) i s fun t => OnlyGpr s t rd x 0 ∧ Sequential s t
    let variable' := fun (funct : BitVec 6) (i : Instr) (x : Word) =>
      RunsAs (0#6 ++ rs ++ rt ++ rd ++ 0#5 ++ funct) i s fun t => OnlyGpr s t rd x 0 ∧ Sequential s t
    fixed 0#6 (.sll rd rt n) (left n.toNat) ∧
    fixed 2#6 (.srl rd rt n) (right n.toNat) ∧
    fixed 3#6 (.sra rd rt n) (arith n.toNat) ∧
    variable' 4#6 (.sllv rd rt rs) (left m) ∧
    variable' 6#6 (.srlv rd rt rs) (right m) ∧
    variable' 7#6 (.srav rd rt rs) (arith m)

/-- ADD, SUB, ADDI where the exact signed result fits 32 bits: they write it (R160, R170, R172). -/
def Obligations.SignedArithmeticFits : Prop :=
  ∀ (s : State) (rd rs rt : Reg) (imm : BitVec 16),
    let a := (s.gpr rs).toInt
    let b := (s.gpr rt).toInt
    let c := imm.toInt
    let fits := fun x : Int => -2147483648 ≤ x ∧ x ≤ 2147483647
    (fits (a + b) → RunsAs (0#6 ++ rs ++ rt ++ rd ++ 0#5 ++ 32#6) (.add rd rs rt) s
      fun t => OnlyGpr s t rd (BitVec.ofInt 32 (a + b)) 0 ∧ Sequential s t) ∧
    (fits (a - b) → RunsAs (0#6 ++ rs ++ rt ++ rd ++ 0#5 ++ 34#6) (.sub rd rs rt) s
      fun t => OnlyGpr s t rd (BitVec.ofInt 32 (a - b)) 0 ∧ Sequential s t) ∧
    (fits (a + c) → RunsAs (8#6 ++ rs ++ rd ++ imm) (.addi rd rs imm) s
      fun t => OnlyGpr s t rd (BitVec.ofInt 32 (a + c)) 0 ∧ Sequential s t)

/-- ADD, SUB, ADDI where the exact signed result does not fit (the spec's decision D2; the policies' form, log 13): a
stop by name under the default policy, the wrapped result under `wrap`, an exception under `trap`. -/
def Obligations.SignedOverflowOutcome : Prop :=
  ∀ (s : State) (rd rs rt : Reg) (imm : BitVec 16) (i : Instr) (x : Int),
    (i = .add rd rs rt ∧ x = (s.gpr rs).toInt + (s.gpr rt).toInt) ∨
      (i = .sub rd rs rt ∧ x = (s.gpr rs).toInt - (s.gpr rt).toInt) ∨
      (i = .addi rd rs imm ∧ x = (s.gpr rs).toInt + imm.toInt) →
    (x < -2147483648 ∨ 2147483647 < x) →
    (s.params.overflow = .refuse → exec i s = .refused .signedOverflow) ∧
    (s.params.overflow = .wrap →
      ∃ t, exec i s = .next t ∧ OnlyGpr s t rd (BitVec.ofInt 32 x) 0 ∧ Sequential s t) ∧
    (∀ c, s.params.overflow = .trap c → ∃ t, exec i s = .next t ∧ Entered s t c s.badVaddr)

/-- MULT and MULTU: HI and LO together are the exact product (R195, R196; the signs, the halves and the function numbers
are the spec's general knowledge, log 24). -/
def Obligations.MultiplyExactProduct : Prop :=
  ∀ (s : State) (rs rt : Reg),
    RunsAs (0#6 ++ rs ++ rt ++ 0#5 ++ 0#5 ++ 24#6) (.mult rs rt) s (fun t =>
      (t.hi ++ t.lo).toInt = (s.gpr rs).toInt * (s.gpr rt).toInt ∧ OnlyHiLo s t t.hi t.lo 0 ∧ Sequential s t) ∧
    RunsAs (0#6 ++ rs ++ rt ++ 0#5 ++ 0#5 ++ 25#6) (.multu rs rt) s (fun t =>
      (t.hi ++ t.lo).toNat = (s.gpr rs).toNat * (s.gpr rt).toNat ∧ OnlyHiLo s t t.hi t.lo 0 ∧ Sequential s t)

/-- DIV with a determined result (R197): quotient times divisor plus remainder is the dividend, the remainder is smaller
than the divisor and has the sign of the dividend or is 0. -/
def Obligations.DivideSigned : Prop :=
  ∀ (s : State) (rs rt : Reg),
    let n := (s.gpr rs).toInt
    let d := (s.gpr rt).toInt
    d ≠ 0 → ¬ (n = -2147483648 ∧ d = -1) →
    RunsAs (0#6 ++ rs ++ rt ++ 0#5 ++ 0#5 ++ 26#6) (.div rs rt) s fun t =>
      t.lo.toInt * d + t.hi.toInt = n ∧ t.hi.toInt.natAbs < d.natAbs ∧ (0 ≤ n → 0 ≤ t.hi.toInt) ∧ (n ≤ 0 → t.hi.toInt ≤ 0) ∧
        OnlyHiLo s t t.hi t.lo 0 ∧ Sequential s t

/-- DIVU with a divisor that is not zero (R198). -/
def Obligations.DivideUnsigned : Prop :=
  ∀ (s : State) (rs rt : Reg), s.gpr rt ≠ 0#32 →
    RunsAs (0#6 ++ rs ++ rt ++ 0#5 ++ 0#5 ++ 27#6) (.divu rs rt) s fun t =>
      t.lo.toNat = (s.gpr rs).toNat / (s.gpr rt).toNat ∧ t.hi.toNat = (s.gpr rs).toNat % (s.gpr rt).toNat ∧
        OnlyHiLo s t t.hi t.lo 0 ∧ Sequential s t

/-- A zero divisor, and -2^31 divided by -1, raise nothing: the instruction completes, HI and LO are two free values of
which nothing is said, and nothing else changes (R197, R198, the spec's decision D17; the form of a draw, log 10). -/
def Obligations.DivideUndeterminedCompletes : Prop :=
  ∀ (s : State) (rs rt : Reg),
    (s.gpr rt = 0#32 ∨ (s.gpr rs = 0x80000000#32 ∧ s.gpr rt = 0xFFFFFFFF#32) →
      ∃ t, exec (.div rs rt) s = .next t ∧ OnlyHiLo s t t.hi t.lo 2 ∧ Sequential s t) ∧
    (s.gpr rt = 0#32 → ∃ t, exec (.divu rs rt) s = .next t ∧ OnlyHiLo s t t.hi t.lo 2 ∧ Sequential s t)

/-- MFHI, MTHI, MFLO, MTLO (R199 to R202; the function numbers are the spec's general knowledge, log 24). -/
def Obligations.HiLoMoves : Prop :=
  ∀ (s : State) (r : Reg),
    RunsAs (0#6 ++ 0#5 ++ 0#5 ++ r ++ 0#5 ++ 16#6) (.mfhi r) s (fun t => OnlyGpr s t r s.hi 0 ∧ Sequential s t) ∧
    RunsAs (0#6 ++ r ++ 0#5 ++ 0#5 ++ 0#5 ++ 17#6) (.mthi r) s (fun t => OnlyHiLo s t (s.gpr r) s.lo 0 ∧ Sequential s t) ∧
    RunsAs (0#6 ++ 0#5 ++ 0#5 ++ r ++ 0#5 ++ 18#6) (.mflo r) s (fun t => OnlyGpr s t r s.lo 0 ∧ Sequential s t) ∧
    RunsAs (0#6 ++ r ++ 0#5 ++ 0#5 ++ 0#5 ++ 19#6) (.mtlo r) s (fun t => OnlyHiLo s t s.hi (s.gpr r) 0 ∧ Sequential s t)

/-! ## Loads and stores -/

/-- LB, LBU, LH, LHU, LW at an aligned address that translates to RAM or ROM: the word, the value from the bytes, and
that nothing else changes (R141, R142, R144, R145, R147). -/
def Obligations.AlignedLoads : Prop :=
  ∀ (s : State) (rt rs : Reg) (imm : BitVec 16) (pa : Word),
    let addr := s.gpr rs + imm.signExtend 32
    let byte := fun k : Nat => s.mem.byteAt (pa + BitVec.ofNat 32 k)
    let runs := fun (op : BitVec 6) (i : Instr) (v : Word) =>
      RunsAs (op ++ rs ++ rt ++ imm) i s fun t => OnlyGpr s t rt v 0 ∧ Sequential s t
    s.lookup addr = some pa → isMemory s pa →
    runs 32#6 (.lb rt rs imm) ((byte 0).signExtend 32) ∧
    runs 36#6 (.lbu rt rs imm) ((byte 0).setWidth 32) ∧
    (addr.toNat % 2 = 0 →
      runs 33#6 (.lh rt rs imm) ((byte 1 ++ byte 0).signExtend 32) ∧
      runs 37#6 (.lhu rt rs imm) ((byte 1 ++ byte 0).setWidth 32)) ∧
    (addr.toNat % 4 = 0 → runs 35#6 (.lw rt rs imm) (byte 3 ++ byte 2 ++ byte 1 ++ byte 0))

/-- SB, SH, SW at an aligned address that translates to RAM: the word, the bytes stored, and that nothing else changes
(R143, R146, R148). -/
def Obligations.AlignedStores : Prop :=
  ∀ (s : State) (rt rs : Reg) (imm : BitVec 16) (pa : Word),
    let addr := s.gpr rs + imm.signExtend 32
    let byte := fun k : Nat => (s.gpr rt).extractLsb' (8 * k) 8
    let runs := fun (op : BitVec 6) (i : Instr) (bytes : List Byte) =>
      RunsAs (op ++ rs ++ rt ++ imm) i s fun t => OnlyBytes s t pa bytes ∧ Sequential s t
    s.lookup addr = some pa → kindAt s.params pa = some .ram →
    runs 40#6 (.sb rt rs imm) [byte 0] ∧
    (addr.toNat % 2 = 0 → runs 41#6 (.sh rt rs imm) [byte 0, byte 1]) ∧
    (addr.toNat % 4 = 0 → runs 43#6 (.sw rt rs imm) [byte 0, byte 1, byte 2, byte 3])

/-- LWL and LWR at any address that translates to RAM or ROM: with `b` the offset in the aligned word and `A` its
physical address, the table of R149 and R150. -/
def Obligations.UnalignedLoads : Prop :=
  ∀ (s : State) (rt rs : Reg) (imm : BitVec 16) (pa : Word),
    let addr := s.gpr rs + imm.signExtend 32
    let b := addr.toNat % 4
    let old := s.gpr rt
    let byte := fun k : Nat => s.mem.byteAt ((pa &&& 0xFFFFFFFC#32) + BitVec.ofNat 32 k)
    let left : Word :=
      if b = 0 then byte 0 ++ old.extractLsb' 0 24
      else if b = 1 then byte 1 ++ byte 0 ++ old.extractLsb' 0 16
      else if b = 2 then byte 2 ++ byte 1 ++ byte 0 ++ old.extractLsb' 0 8
      else byte 3 ++ byte 2 ++ byte 1 ++ byte 0
    let right : Word :=
      if b = 0 then byte 3 ++ byte 2 ++ byte 1 ++ byte 0
      else if b = 1 then old.extractLsb' 24 8 ++ byte 3 ++ byte 2 ++ byte 1
      else if b = 2 then old.extractLsb' 16 16 ++ byte 3 ++ byte 2
      else old.extractLsb' 8 24 ++ byte 3
    s.lookup addr = some pa → isMemory s pa →
    RunsAs (34#6 ++ rs ++ rt ++ imm) (.lwl rt rs imm) s (fun t => OnlyGpr s t rt left 0 ∧ Sequential s t) ∧
    RunsAs (38#6 ++ rs ++ rt ++ imm) (.lwr rt rs imm) s (fun t => OnlyGpr s t rt right 0 ∧ Sequential s t)

/-- SWL and SWR at any address that translates to RAM: the bytes of the table of R151 and R152, and no others, are
stored. -/
def Obligations.UnalignedStores : Prop :=
  ∀ (s : State) (rt rs : Reg) (imm : BitVec 16) (pa : Word),
    let addr := s.gpr rs + imm.signExtend 32
    let b := addr.toNat % 4
    let word := pa &&& 0xFFFFFFFC#32
    let byte := fun k : Nat => (s.gpr rt).extractLsb' (8 * k) 8
    let left : List Byte :=
      if b = 0 then [byte 3] else if b = 1 then [byte 2, byte 3] else if b = 2 then [byte 1, byte 2, byte 3]
      else [byte 0, byte 1, byte 2, byte 3]
    let right : List Byte :=
      if b = 0 then [byte 0, byte 1, byte 2, byte 3] else if b = 1 then [byte 0, byte 1, byte 2]
      else if b = 2 then [byte 0, byte 1] else [byte 0]
    s.lookup addr = some pa → kindAt s.params pa = some .ram →
    RunsAs (42#6 ++ rs ++ rt ++ imm) (.swl rt rs imm) s (fun t => OnlyBytes s t word left ∧ Sequential s t) ∧
    RunsAs (46#6 ++ rs ++ rt ++ imm) (.swr rt rs imm) s
      (fun t => OnlyBytes s t (word + BitVec.ofNat 32 b) right ∧ Sequential s t)

/-- Loads from a device address complete with a free value after one draw (R78, D12; the model's choice of form, log 9):
of the value nothing is said but what the extension, or the bytes that LWL and LWR keep, fix. -/
def Obligations.DeviceLoadsComplete : Prop :=
  ∀ (s : State) (rt rs : Reg) (imm : BitVec 16) (pa : Word),
    let addr := s.gpr rs + imm.signExtend 32
    let old := s.gpr rt
    let runs := fun (i : Instr) (shape : Word → Prop) =>
      ∃ t v, exec i s = .next t ∧ shape v ∧ OnlyGpr s t rt v 1 ∧ Sequential s t
    s.lookup addr = some pa → kindAt s.params pa = some .device →
    runs (.lb rt rs imm) (fun v => (v.extractLsb' 0 8).signExtend 32 = v) ∧
    runs (.lbu rt rs imm) (fun v => v.toNat < 256) ∧
    runs (.lwl rt rs imm) (fun v => ∀ k < 24 - 8 * (addr.toNat % 4), v.getLsbD k = old.getLsbD k) ∧
    runs (.lwr rt rs imm) (fun v => ∀ k < 32, 32 - 8 * (addr.toNat % 4) ≤ k → v.getLsbD k = old.getLsbD k) ∧
    (addr.toNat % 2 = 0 →
      runs (.lh rt rs imm) (fun v => (v.extractLsb' 0 16).signExtend 32 = v) ∧
      runs (.lhu rt rs imm) (fun v => v.toNat < 65536)) ∧
    (addr.toNat % 4 = 0 → runs (.lw rt rs imm) fun _ => True)

/-- Stores to a device address are put out, one write for each access, and stores to ROM change nothing; memory keeps
every byte (R78, D12; the model's choice of form, log 8 and log 9). -/
def Obligations.DeviceAndRomStores : Prop :=
  ∀ (s : State) (rt rs : Reg) (imm : BitVec 16) (pa : Word) (dev : Bool),
    let addr := s.gpr rs + imm.signExtend 32
    let b := addr.toNat % 4
    let v := s.gpr rt
    let word := pa &&& 0xFFFFFFFC#32
    let one := fun (sz : Size) (x : Word) => if dev then [DeviceWrite.mk pa sz x] else []
    let byteAt := fun (k n : Nat) =>
      DeviceWrite.mk (word + BitVec.ofNat 32 k) .byte ((v.extractLsb' (8 * n) 8).setWidth 32)
    let runs := fun (i : Instr) (writes : List DeviceWrite) =>
      ∃ t, exec i s = .next t ∧ OnlyOutputs s t pa writes ∧ Sequential s t
    s.lookup addr = some pa → kindAt s.params pa = some (if dev then .device else .rom) →
    runs (.sb rt rs imm) (one .byte ((v.extractLsb' 0 8).setWidth 32)) ∧
    (addr.toNat % 2 = 0 → runs (.sh rt rs imm) (one .half ((v.extractLsb' 0 16).setWidth 32))) ∧
    (addr.toNat % 4 = 0 → runs (.sw rt rs imm) (one .word v)) ∧
    runs (.swl rt rs imm) (if dev then ((List.range (b + 1)).map fun k => byteAt k (3 - b + k)).reverse else []) ∧
    runs (.swr rt rs imm) (if dev then ((List.range (4 - b)).map fun k => byteAt (b + k) k).reverse else [])

/-- A misaligned LH, LHU, SH, LW or SW is decided before translation (R64, the spec's decision D3; log 14): a stop by
name under the default policy, an exception under `trap`. -/
def Obligations.MisalignedAccessOutcome : Prop :=
  ∀ (s : State) (rt rs : Reg) (imm : BitVec 16) (i : Instr),
    let addr := s.gpr rs + imm.signExtend 32
    ((i = .lh rt rs imm ∨ i = .lhu rt rs imm ∨ i = .sh rt rs imm) ∧ addr.toNat % 2 ≠ 0) ∨
      ((i = .lw rt rs imm ∨ i = .sw rt rs imm) ∧ addr.toNat % 4 ≠ 0) →
    (s.params.align = .refuse → exec i s = .refused (.misalignedAccess addr)) ∧
    (∀ c, s.params.align = .trap c → ∃ t, exec i s = .next t ∧ Entered s t c s.badVaddr)

/-- Under the policy `forceAlign` of D3 a misaligned load or store is made at the address with its low bits cleared, in
RAM, ROM, a device or nothing alike, and a TLB miss reports that cleared address (the model's reading of the policy, log
14; ROM and devices, logs 8 and 9). -/
def Obligations.ForcedAlignment : Prop :=
  ∀ (s : State) (rt rs : Reg) (imm : BitVec 16) (pa : Word),
    let addr := s.gpr rs + imm.signExtend 32
    let byte := fun k : Nat => s.mem.byteAt (pa + BitVec.ofNat 32 k)
    let out := fun k : Nat => (s.gpr rt).extractLsb' (8 * k) 8
    let misses := fun (a : Word) (l : List Instr) =>
      s.lookup a = none → ∀ i ∈ l, ∃ t, exec i s = .next t ∧ Entered s t 1#5 a
    let stops := fun l : List Instr =>
      kindAt s.params pa = none → ∀ i ∈ l, exec i s = .fault (.unpopulatedPhysicalAddress pa)
    let loads := fun (i : Instr) (v : Word) (shape : Word → Prop) =>
      (isMemory s pa → ∃ t, exec i s = .next t ∧ OnlyGpr s t rt v 0 ∧ Sequential s t) ∧
      (kindAt s.params pa = some .device → ∃ t x, exec i s = .next t ∧ shape x ∧ OnlyGpr s t rt x 1 ∧ Sequential s t)
    let stores := fun (i : Instr) (sz : Size) (x : Word) (bytes : List Byte) =>
      (kindAt s.params pa = some .ram → ∃ t, exec i s = .next t ∧ OnlyBytes s t pa bytes ∧ Sequential s t) ∧
      (kindAt s.params pa = some .rom → ∃ t, exec i s = .next t ∧ OnlyOutputs s t pa [] ∧ Sequential s t) ∧
      (kindAt s.params pa = some .device →
        ∃ t, exec i s = .next t ∧ OnlyOutputs s t pa [DeviceWrite.mk pa sz x] ∧ Sequential s t)
    let half := addr - 1#32
    let word := addr - BitVec.ofNat 32 (addr.toNat % 4)
    s.params.align = .forceAlign →
    (addr.toNat % 2 ≠ 0 → misses half [.lh rt rs imm, .lhu rt rs imm, .sh rt rs imm] ∧
      (s.lookup half = some pa → stops [.lh rt rs imm, .lhu rt rs imm, .sh rt rs imm] ∧
        loads (.lh rt rs imm) ((byte 1 ++ byte 0).signExtend 32) (fun x => (x.extractLsb' 0 16).signExtend 32 = x) ∧
        loads (.lhu rt rs imm) ((byte 1 ++ byte 0).setWidth 32) (fun x => x.toNat < 65536) ∧
        stores (.sh rt rs imm) .half ((out 1 ++ out 0).setWidth 32) [out 0, out 1])) ∧
    (addr.toNat % 4 ≠ 0 → misses word [.lw rt rs imm, .sw rt rs imm] ∧
      (s.lookup word = some pa → stops [.lw rt rs imm, .sw rt rs imm] ∧
        loads (.lw rt rs imm) (byte 3 ++ byte 2 ++ byte 1 ++ byte 0) (fun _ => True) ∧
        stores (.sw rt rs imm) .word (s.gpr rt) [out 0, out 1, out 2, out 3]))

/-- A TLB miss on the data address of any of the twelve: the exception is entered with the effective address itself in
BadVaddr, no register is written and no byte is stored (R140, R255, R259). -/
def Obligations.DataMissEntersException : Prop :=
  ∀ (s : State) (rt rs : Reg) (imm : BitVec 16),
    let addr := s.gpr rs + imm.signExtend 32
    let misses := fun i : Instr => ∃ t, exec i s = .next t ∧ Entered s t 1#5 addr
    s.lookup addr = none →
    misses (.lb rt rs imm) ∧ misses (.lbu rt rs imm) ∧ misses (.sb rt rs imm) ∧
    misses (.lwl rt rs imm) ∧ misses (.lwr rt rs imm) ∧ misses (.swl rt rs imm) ∧ misses (.swr rt rs imm) ∧
    (addr.toNat % 2 = 0 → misses (.lh rt rs imm) ∧ misses (.lhu rt rs imm) ∧ misses (.sh rt rs imm)) ∧
    (addr.toNat % 4 = 0 → misses (.lw rt rs imm) ∧ misses (.sw rt rs imm))

/-- An access at a physical address where the platform has nothing stops by name, the twelve loads and stores and the
fetch alike (R78, the spec's decision D12; the map's form is the model's, log 7). What the stop of the four unaligned
ones names is the model's reading of R149 to R152 (log 28): LWL and LWR the aligned word, SWL and SWR the first byte. -/
def Obligations.UnpopulatedAddressFaults : Prop :=
  ∀ (s : State) (rt rs : Reg) (imm : BitVec 16) (pa : Word),
    let addr := s.gpr rs + imm.signExtend 32
    let stops := fun (at' : Word) (l : List Instr) => ∀ i ∈ l, exec i s = .fault (.unpopulatedPhysicalAddress at')
    kindAt s.params pa = none →
    (s.lookup addr = some pa →
      stops pa [.lb rt rs imm, .lbu rt rs imm, .sb rt rs imm, .swr rt rs imm] ∧
      stops (pa &&& 0xFFFFFFFC#32) [.lwl rt rs imm, .lwr rt rs imm, .swl rt rs imm] ∧
      (addr.toNat % 2 = 0 → stops pa [.lh rt rs imm, .lhu rt rs imm, .sh rt rs imm]) ∧
      (addr.toNat % 4 = 0 → stops pa [.lw rt rs imm, .sw rt rs imm])) ∧
    (s.quiet → s.params.strictCache = false → s.lookup s.pc = some pa →
      step s = .fault (.unpopulatedPhysicalAddress pa))

/-- A load from RAM returns what a store before it wrote (R79, R85, and R61 for the order of the bytes): after SB, SH or SW
at an aligned address, every load of the same width or a narrower one, at any aligned place within the stored bytes and
with any registers and offset that give that place, gives those bytes of the register stored, extended as the load
says. -/
def Obligations.StoreThenLoadReturnsWord : Prop :=
  ∀ (s t : State) (rt rs : Reg) (imm : BitVec 16) (pa : Word),
    let addr := s.gpr rs + imm.signExtend 32
    let v := s.gpr rt
    let gives := fun (k : Nat) (load : Reg → Reg → BitVec 16 → Instr) (x : Word) =>
      ∀ (ru rb : Reg) (off : BitVec 16), t.gpr rb + off.signExtend 32 = addr + BitVec.ofNat 32 k →
        ∃ u, exec (load ru rb off) t = .next u ∧ u.gpr ru = if ru = 0#5 then 0#32 else x
    let byteAt := fun k : Nat =>
      gives k .lb ((v.extractLsb' (8 * k) 8).signExtend 32) ∧ gives k .lbu ((v.extractLsb' (8 * k) 8).setWidth 32)
    let halfAt := fun k : Nat =>
      gives k .lh ((v.extractLsb' (8 * k) 16).signExtend 32) ∧ gives k .lhu ((v.extractLsb' (8 * k) 16).setWidth 32)
    s.lookup addr = some pa → kindAt s.params pa = some .ram →
    (exec (.sb rt rs imm) s = .next t → byteAt 0) ∧
    (addr.toNat % 2 = 0 → exec (.sh rt rs imm) s = .next t → halfAt 0 ∧ ∀ k < 2, byteAt k) ∧
    (addr.toNat % 4 = 0 → exec (.sw rt rs imm) s = .next t → gives 0 .lw v ∧ halfAt 0 ∧ halfAt 2 ∧ ∀ k < 4, byteAt k)

/-- The unaligned-load idiom of R150: LWR at the address `p` and LWL at `p + 3` load the word whose bytes stand at `p` to
`p + 3`, in either order, also where it crosses a page. -/
def Obligations.UnalignedLoadPair : Prop :=
  ∀ (s : State) (rt rs : Reg) (pa : Nat → Word),
    let p := s.gpr rs
    let byte := fun k : Nat => s.mem.byteAt (pa k)
    rt ≠ 0#5 → rt ≠ rs → (∀ k < 4, s.lookup (p + BitVec.ofNat 32 k) = some (pa k) ∧ isMemory s (pa k)) →
    (∃ t u, exec (.lwr rt rs 0) s = .next t ∧ exec (.lwl rt rs 3) t = .next u ∧
      u.gpr rt = byte 3 ++ byte 2 ++ byte 1 ++ byte 0) ∧
    (∃ t u, exec (.lwl rt rs 3) s = .next t ∧ exec (.lwr rt rs 0) t = .next u ∧
      u.gpr rt = byte 3 ++ byte 2 ++ byte 1 ++ byte 0)

/-- The unaligned-store idiom of R152: SWR at `p` and SWL at `p + 3` store the register's bytes at `p` to `p + 3` and
leave every other byte alone. -/
def Obligations.UnalignedStorePair : Prop :=
  ∀ (s : State) (rt rs : Reg) (pa : Nat → Word),
    let p := s.gpr rs
    (∀ k < 4, s.lookup (p + BitVec.ofNat 32 k) = some (pa k) ∧ kindAt s.params (pa k) = some .ram) →
    ∃ t u, exec (.swr rt rs 0) s = .next t ∧ exec (.swl rt rs 3) t = .next u ∧
      (∀ k < 4, u.mem.byteAt (pa k) = (s.gpr rt).extractLsb' (8 * k) 8) ∧
      (∀ a, (∀ k < 4, a ≠ pa k) → u.mem.byteAt a = s.mem.byteAt a)

/-! ## Translation and the TLB -/

/-- `Translate` (R68): kseg0 and kseg1 map to the low 29 bits of the address; elsewhere the entry at index `va[17:12]`
decides alone, and where it is invalid or its VPN differs, a TLB miss of the whole address is raised. -/
def Obligations.Translation : Prop :=
  ∀ (s : State) (va : Word),
    let e := s.tlb[(va.toNat / 4096) % 64]'(Nat.mod_lt _ (by decide))
    let mapped := va.toNat < 0x80000000 ∨ 0xC0000000 ≤ va.toNat
    (¬ mapped → translate s va = .ok (va &&& 0x1FFFFFFF#32)) ∧
    (mapped → e.lo.v = false → translate s va = .error (.raise (.tlbMiss va))) ∧
    (mapped → e.hi.vpn.toNat ≠ va.toNat / 4096 → translate s va = .error (.raise (.tlbMiss va))) ∧
    (mapped → e.lo.v = true → e.hi.vpn.toNat = va.toNat / 4096 →
      ∃ pa, translate s va = .ok pa ∧ pa.toNat = e.lo.pfn.toNat * 4096 + va.toNat % 4096)

/-- TLBWI writes the entry that Index names from EntryHi and EntryLo and changes nothing else; the very next translation
uses it (R238). -/
def Obligations.TlbwiWritesEntry : Prop :=
  ∀ s : State, RunsAs 0x42000002#32 .tlbwi s fun t =>
    (t.tlb[s.index.toNat]'s.index.isLt = { hi := s.entryHi, lo := s.entryLo }) ∧
    (∀ i : Fin 64, i.val ≠ s.index.toNat → t.tlb[i.val] = s.tlb[i.val]) ∧
    t = { s with tlb := t.tlb, pc := s.npc, npc := s.npc + 4#32, ds := false } ∧
    (∀ va : Word, va.toNat / 4096 = s.entryHi.vpn.toNat → (va.toNat / 4096) % 64 = s.index.toNat →
      (va.toNat < 0x80000000 ∨ 0xC0000000 ≤ va.toNat) →
      (s.entryLo.v = true → t.lookup va = some (s.entryLo.pfn ++ va.extractLsb' 0 12)) ∧
      (s.entryLo.v = false → t.lookup va = none))

/-- TLBR copies the entry that Index names into EntryHi and EntryLo and changes nothing else (R237). -/
def Obligations.TlbrReadsEntry : Prop :=
  ∀ s : State, RunsAs 0x42000001#32 .tlbr s fun t =>
    t = { s with
      entryHi := (s.tlb[s.index.toNat]'s.index.isLt).hi
      entryLo := (s.tlb[s.index.toNat]'s.index.isLt).lo
      pc := s.npc
      npc := s.npc + 4#32
      ds := false }

/-! ## Jumps and branches -/

/-- J and JAL outside a delay slot and not in the last word of a region (R210, R211): the target's low 28 bits are four
times the index, its high 4 bits those of the delay slot's address; JAL links to `pc + 8`. -/
def Obligations.JumpsInRegion : Prop :=
  ∀ (s : State) (index : BitVec 26), s.ds = false → s.pc.toNat % 0x10000000 ≠ 0xFFFFFFC →
    let target := BitVec.ofNat 32 ((s.pc + 4#32).toNat / 0x10000000 * 0x10000000 + index.toNat * 4)
    RunsAs (2#6 ++ index) (.j index) s (fun t => SameData s t 0 ∧ Branched s t target) ∧
    RunsAs (3#6 ++ index) (.jal index) s (fun t => OnlyGpr s t 31#5 (s.pc + 8#32) 0 ∧ Branched s t target)

/-- JR and JALR outside a delay slot to a word address (R212, R213): the target is the register's old value, also where
JALR writes the same register. -/
def Obligations.JumpsToRegister : Prop :=
  ∀ (s : State) (rs rd : Reg), s.ds = false → (s.gpr rs).toNat % 4 = 0 →
    RunsAs (0#6 ++ rs ++ 0#5 ++ 0#5 ++ 0#5 ++ 8#6) (.jr rs) s (fun t => SameData s t 0 ∧ Branched s t (s.gpr rs)) ∧
    RunsAs (0#6 ++ rs ++ 0#5 ++ rd ++ 0#5 ++ 9#6) (.jalr rd rs) s
      (fun t => OnlyGpr s t rd (s.pc + 8#32) 0 ∧ Branched s t (s.gpr rs))

/-- The eight branches outside a delay slot (R214 to R218, R220 to R223): the condition in integers, the target
`pc + 4 + 4 * imm`, the delay slot whether taken or not, and the link of BLTZAL and BGEZAL, taken or not. -/
def Obligations.Branches : Prop :=
  ∀ (s : State) (rs rt : Reg) (imm : BitVec 16), s.ds = false →
    let target := s.pc + 4#32 + BitVec.ofInt 32 (4 * imm.toInt)
    let v := (s.gpr rs).toInt
    let goes := fun (c : Prop) (t : State) => (c → Branched s t target) ∧ (¬ c → Branched s t (s.npc + 4#32))
    let plain := fun (w : Word) (i : Instr) (c : Prop) => RunsAs w i s fun t => SameData s t 0 ∧ goes c t
    let link := fun (w : Word) (i : Instr) (c : Prop) =>
      RunsAs w i s fun t => OnlyGpr s t 31#5 (s.pc + 8#32) 0 ∧ goes c t
    plain (4#6 ++ rs ++ rt ++ imm) (.beq rs rt imm) (s.gpr rs = s.gpr rt) ∧
    plain (5#6 ++ rs ++ rt ++ imm) (.bne rs rt imm) (s.gpr rs ≠ s.gpr rt) ∧
    plain (6#6 ++ rs ++ 0#5 ++ imm) (.blez rs imm) (v ≤ 0) ∧
    plain (7#6 ++ rs ++ 0#5 ++ imm) (.bgtz rs imm) (0 < v) ∧
    plain (1#6 ++ rs ++ 0#5 ++ imm) (.bltz rs imm) (v < 0) ∧
    plain (1#6 ++ rs ++ 1#5 ++ imm) (.bgez rs imm) (0 ≤ v) ∧
    link (1#6 ++ rs ++ 16#5 ++ imm) (.bltzal rs imm) (v < 0) ∧
    link (1#6 ++ rs ++ 17#5 ++ imm) (.bgezal rs imm) (0 ≤ v)

/-- Where a jump or branch stops by name: in a delay slot all twelve (R219), J and JAL in the last word of a region
(R210), JR and JALR to an address that is no word address (R212, R213). The spec's decisions D15, D19 and D16 (logs 18,
23). -/
def Obligations.JumpAndBranchStops : Prop :=
  ∀ (s : State) (rs rt rd : Reg) (imm : BitVec 16) (index : BitVec 26),
    (s.ds = true → ∀ i ∈ [Instr.j index, .jal index, .jr rs, .jalr rd rs, .beq rs rt imm, .bne rs rt imm, .blez rs imm,
      .bgtz rs imm, .bltz rs imm, .bgez rs imm, .bltzal rs imm, .bgezal rs imm], exec i s = .refused .branchInDelaySlot) ∧
    (s.ds = false → s.pc.toNat % 0x10000000 = 0xFFFFFFC →
      exec (.j index) s = .refused .jumpRegionEdge ∧ exec (.jal index) s = .refused .jumpRegionEdge) ∧
    (s.ds = false → (s.gpr rs).toNat % 4 ≠ 0 →
      exec (.jr rs) s = .refused (.misalignedJumpTarget (s.gpr rs)) ∧
      exec (.jalr rd rs) s = .refused (.misalignedJumpTarget (s.gpr rs)))

/-- Delayed branching (R297, R219), for the twelve jumps and branches: the instruction at `npc` comes next, whether the
jump is taken or not, as a delay instruction. When any instruction runs there and answers a next state, control is at the
target, or past the slot where the jump was not taken, and no longer in a delay slot; or it took an exception, and EPC
names the jump, with BD = 1. ADDU in the slot completes, and reads the registers the jump left. -/
def Obligations.DelaySlotRunsBeforeTarget : Prop :=
  ∀ (s t : State) (rs rt rd : Reg) (imm : BitVec 16) (index : BitVec 26) (i : Instr) (taken : Prop) (target : Word),
    let v := s.gpr rs
    let branch := s.pc + 4#32 + BitVec.ofInt 32 (4 * imm.toInt)
    let after := fun u : State =>
      (taken → u.pc = target ∧ u.npc = target + 4#32) ∧ (¬ taken → u.pc = s.pc + 8#32 ∧ u.npc = s.pc + 12#32)
    (((i = .j index ∨ i = .jal index) ∧ taken ∧ target = (s.pc + 4#32).extractLsb' 28 4 ++ index ++ 0#2) ∨
      ((i = .jr rs ∨ i = .jalr rd rs) ∧ taken ∧ target = v) ∨
      (target = branch ∧
        ((i = .beq rs rt imm ∧ (taken ↔ v = s.gpr rt)) ∨ (i = .bne rs rt imm ∧ (taken ↔ v ≠ s.gpr rt)) ∨
          (i = .blez rs imm ∧ (taken ↔ v.toInt ≤ 0)) ∨ (i = .bgtz rs imm ∧ (taken ↔ 0 < v.toInt)) ∨
          ((i = .bltz rs imm ∨ i = .bltzal rs imm) ∧ (taken ↔ v.toInt < 0)) ∨
          ((i = .bgez rs imm ∨ i = .bgezal rs imm) ∧ (taken ↔ 0 ≤ v.toInt))))) →
    s.npc = s.pc + 4#32 → exec i s = .next t →
    t.pc = s.pc + 4#32 ∧ t.ds = true ∧
    (∀ (d : Instr) (u : State), exec d t = .next u → u.ds = false ∧
      (after u ∨ (u.pc = 0xBFC00180#32 ∧ u.npc = 0xBFC00184#32 ∧ u.epc = s.pc ∧ u.cause.bd = true))) ∧
    (∀ a b c : Reg, ∃ u, exec (.addu a b c) t = .next u ∧ after u ∧ u.ds = false ∧
      u.gpr a = if a = 0#5 then 0#32 else t.gpr b + t.gpr c)

/-! ## Control registers -/

/-- MFC0 of the seven registers (R235): the words of their formats; the bits of Index named x are free, and one value is
drawn for them. -/
def Obligations.Mfc0Reads : Prop :=
  ∀ (s : State) (rt : Reg),
    let runs := fun (c : Reg) (v : Word) =>
      RunsAs (16#6 ++ 0#5 ++ rt ++ c ++ 0#5 ++ 0#6) (.mfc0 rt c) s fun t => OnlyGpr s t rt v 0 ∧ Sequential s t
    let b := fun x : Bool => if x then 1 else 0
    runs 2 (BitVec.ofNat 32 (s.entryLo.pfn.toNat * 4096 + b s.entryLo.v * 512)) ∧
    runs 9 s.badVaddr ∧
    runs 10 (BitVec.ofNat 32 (s.entryHi.vpn.toNat * 4096)) ∧
    runs 12 (BitVec.ofNat 32 (b s.sr.ieo * 16 + b s.sr.iep * 4 + b s.sr.iec)) ∧
    runs 13 (BitVec.ofNat 32 (b s.cause.bd * 2147483648 + s.cause.excCode.toNat * 4)) ∧
    runs 14 s.epc ∧
    (∃ v, v.getLsbD 31 = false ∧ v.extractLsb' 8 6 = s.index ∧
      RunsAs (16#6 ++ 0#5 ++ rt ++ 0#5 ++ 0#5 ++ 0#6) (.mfc0 rt 0) s fun t => OnlyGpr s t rt v 1 ∧ Sequential s t)

/-- MTC0 to Index, EntryLo, EntryHi and SR writes their live fields from the register and changes nothing else, the TLB
not either (R236). That all three fields of SR are written is the spec's own decision D21, that the other bits are ignored
its decision D13 (log 23). -/
def Obligations.Mtc0Writes : Prop :=
  ∀ (s : State) (rt : Reg),
    let v := s.gpr rt
    let runs := fun (c : Reg) (after : State) =>
      RunsAs (16#6 ++ 4#5 ++ rt ++ c ++ 0#5 ++ 0#6) (.mtc0 rt c) s fun t =>
        t = { after with pc := s.npc, npc := s.npc + 4#32, ds := false }
    runs 0 { s with index := v.extractLsb' 8 6 } ∧
    runs 2 { s with entryLo := { pfn := v.extractLsb' 12 20, v := v.getLsbD 9 } } ∧
    runs 10 { s with entryHi := { vpn := v.extractLsb' 12 20 } } ∧
    runs 12 { s with sr := { iec := v.getLsbD 0, iep := v.getLsbD 2, ieo := v.getLsbD 4 } }

/-- MTC0 to BadVaddr, Cause and EPC (R236, the spec's decision D13; log 16): a stop by name under the default policy, a
plain write of the live fields under `writable`. -/
def Obligations.Mtc0ReadOnlyRegisters : Prop :=
  ∀ (s : State) (rt : Reg),
    let v := s.gpr rt
    (s.params.creg = .refuse → ∀ c ∈ [9#5, 13#5, 14#5], exec (.mtc0 rt c) s = .refused (.readOnlyControlRegister c)) ∧
    (s.params.creg = .writable →
      let advanced := { s with pc := s.npc, npc := s.npc + 4#32, ds := false }
      exec (.mtc0 rt 9) s = .next { advanced with badVaddr := v } ∧
      exec (.mtc0 rt 13) s = .next { advanced with cause := { bd := v.getLsbD 31, excCode := v.extractLsb' 2 5 } } ∧
      exec (.mtc0 rt 14) s = .next { advanced with epc := v })

/-- MFC0 and MTC0 with an index that names no register stop by name (R37, the spec's decision D14, log 23). -/
def Obligations.UndefinedControlRegisterRefused : Prop :=
  ∀ (s : State) (rt c : Reg), c.toNat ∉ [0, 2, 9, 10, 12, 13, 14] →
    exec (.mfc0 rt c) s = .refused (.undefinedControlRegister c) ∧
    exec (.mtc0 rt c) s = .refused (.undefinedControlRegister c)

/-! ## Reset, and what every step keeps -/

/-- The values R43 states for reset. -/
def Obligations.ResetStatedValues : Prop :=
  State.reset.pc = 0xBFC00000#32 ∧ State.reset.npc = 0xBFC00004#32 ∧ State.reset.ds = false ∧
    State.reset.sr.iec = false ∧ State.reset.gpr 0#5 = 0#32

/-- The state after reset meets the invariant. -/
def Obligations.ResetMeetsInvariant : Prop := State.reset.Inv

/-- Every step keeps the invariant: `pc` and `npc` stay word addresses (R26), outside a delay slot the next instruction
follows the present one (R27), the slot of register 0 stays zero, memory keeps its form. -/
def Obligations.StepKeepsInvariant : Prop := ∀ s t : State, s.Inv → step s = .next t → t.Inv

/-- Register 0 reads 0 in every state, a write to it is discarded, and an instruction whose destination is register 0
performs every other effect it has (R22). The 23 instructions that only compute change nothing; ADD, SUB and ADDI the
same, and where they overflow they stop or trap by policy as ever (R160, R170, R172, D2). A load still misses, and still
draws where it reads a device; MFC0 of Index still draws; JALR still jumps. -/
def Obligations.RegisterZeroDiscards : Prop :=
  ∀ (s : State) (rs rt : Reg) (imm : BitVec 16) (n : BitVec 5),
    let addr := s.gpr rs + imm.signExtend 32
    let same := fun (i : Instr) (k : Nat) => ∃ t, exec i s = .next t ∧ SameData s t k ∧ Sequential s t
    let sum := fun (i : Instr) (x : Int) =>
      (-2147483648 ≤ x ∧ x ≤ 2147483647 → same i 0) ∧
      (x < -2147483648 ∨ 2147483647 < x →
        (s.params.overflow = .refuse → exec i s = .refused .signedOverflow) ∧
        (s.params.overflow = .wrap → same i 0) ∧
        (∀ c, s.params.overflow = .trap c → ∃ t, exec i s = .next t ∧ Entered s t c s.badVaddr))
    let loads := fun l : List Instr => ∀ i ∈ l,
      (s.lookup addr = none → ∃ t, exec i s = .next t ∧ Entered s t 1#5 addr) ∧
      (∀ pa, s.lookup addr = some pa →
        (isMemory s pa → same i 0) ∧ (kindAt s.params pa = some .device → same i 1) ∧
        (kindAt s.params pa = none → ∃ q, exec i s = .fault (.unpopulatedPhysicalAddress q)))
    s.gpr 0#5 = 0#32 ∧ (∀ v : Word, SameGprs s (s.setGpr 0#5 v)) ∧
    (∀ i ∈ [Instr.addu 0 rs rt, .subu 0 rs rt, .slt 0 rs rt, .sltu 0 rs rt, .and 0 rs rt, .or 0 rs rt, .xor 0 rs rt,
      .nor 0 rs rt, .addiu 0 rs imm, .slti 0 rs imm, .sltiu 0 rs imm, .andi 0 rs imm, .ori 0 rs imm, .xori 0 rs imm,
      .lui 0 imm, .sll 0 rt n, .srl 0 rt n, .sra 0 rt n, .sllv 0 rt rs, .srlv 0 rt rs, .srav 0 rt rs, .mfhi 0, .mflo 0],
      same i 0) ∧
    sum (.add 0 rs rt) ((s.gpr rs).toInt + (s.gpr rt).toInt) ∧
    sum (.sub 0 rs rt) ((s.gpr rs).toInt - (s.gpr rt).toInt) ∧
    sum (.addi 0 rs imm) ((s.gpr rs).toInt + imm.toInt) ∧
    loads [.lb 0 rs imm, .lbu 0 rs imm, .lwl 0 rs imm, .lwr 0 rs imm] ∧
    (addr.toNat % 2 = 0 → loads [.lh 0 rs imm, .lhu 0 rs imm]) ∧ (addr.toNat % 4 = 0 → loads [.lw 0 rs imm]) ∧
    same (.mfc0 0 0) 1 ∧ (∀ c ∈ [2#5, 9#5, 10#5, 12#5, 13#5, 14#5], same (.mfc0 0 c) 0) ∧
    (s.ds = false → (s.gpr rs).toNat % 4 = 0 →
      ∃ t, exec (.jalr 0 rs) s = .next t ∧ SameData s t 0 ∧ Branched s t (s.gpr rs))

/-- Nothing but TLBWI writes the TLB (R38): a step after which it differs executed a TLBWI. -/
def Obligations.OnlyTlbwiWritesTlb : Prop :=
  ∀ s t : State, step s = .next t → t.tlb ≠ s.tlb → ∃ u, beginStep s = .execute .tlbwi u

/-- Only the multiplies, the divides, MTHI and MTLO write HI or LO, and no exception entry does (R25). -/
def Obligations.OnlyMultiplyFamilyWritesHiLo : Prop :=
  ∀ s t : State, step s = .next t → (t.hi ≠ s.hi ∨ t.lo ≠ s.lo) →
    ∃ u i, beginStep s = .execute i u ∧ ∃ rs rt, i = .mult rs rt ∨ i = .multu rs rt ∨ i = .div rs rt ∨ i = .divu rs rt ∨
      i = .mthi rs ∨ i = .mtlo rs

/-- Only the five stores write memory, and fetch, loads, exceptions, interrupts and reset leave it alone (R84, R259). -/
def Obligations.OnlyStoresWriteMemory : Prop :=
  ∀ s t : State, step s = .next t → t.mem ≠ s.mem →
    ∃ u i, beginStep s = .execute i u ∧ ∃ rt rs imm, i = .sb rt rs imm ∨ i = .sh rt rs imm ∨ i = .sw rt rs imm ∨
      i = .swl rt rs imm ∨ i = .swr rt rs imm

/-- A step sets IEc only by MTC0 to SR or by RFE (R34). -/
def Obligations.OnlyMtc0AndRfeEnableInterrupts : Prop :=
  ∀ s t : State, step s = .next t → s.sr.iec = false → t.sr.iec = true →
    ∃ u i, beginStep s = .execute i u ∧ (i = .rfe ∨ ∃ rt, i = .mtc0 rt 12)
end

