-- ==== Sys2Proof/Laws/Encoding.lean ====
section
/-! SUPPORT. The fields of a word that one of the formats of the encoder lays out (spec 30_encoding R111, R112), and the
value of a word from its fields. -/

namespace Sys2Proof

/-- The value of a concatenation. -/
theorem toNat_append_add {m n : Nat} (x : BitVec m) (y : BitVec n) :
    (x ++ y).toNat = x.toNat * 2 ^ n + y.toNat := by
  rw [BitVec.toNat_append, ← Nat.shiftLeft_add_eq_or_of_lt y.isLt, Nat.shiftLeft_eq]

/-- The value of a bit field. -/
theorem toNat_field {n : Nat} (x : BitVec n) (start len : Nat) :
    (x.extractLsb' start len).toNat = x.toNat / 2 ^ start % 2 ^ len := by
  rw [BitVec.extractLsb'_toNat, Nat.shiftRight_eq_div_pow]

/-! ## `rType` -/

@[simp] theorem fieldOpcode_rType (op : BitVec 6) (rs rt rd : Reg) (sh : BitVec 5) (fn : BitVec 6) :
    fieldOpcode (rType op rs rt rd sh fn) = op := by
  apply BitVec.eq_of_toNat_eq
  simp only [fieldOpcode, rType, toNat_field, toNat_append_add]
  have := op.isLt; have := rs.isLt; have := rt.isLt; have := rd.isLt; have := sh.isLt; have := fn.isLt
  omega

@[simp] theorem fieldRs_rType (op : BitVec 6) (rs rt rd : Reg) (sh : BitVec 5) (fn : BitVec 6) :
    fieldRs (rType op rs rt rd sh fn) = rs := by
  apply BitVec.eq_of_toNat_eq
  simp only [fieldRs, rType, toNat_field, toNat_append_add]
  have := op.isLt; have := rs.isLt; have := rt.isLt; have := rd.isLt; have := sh.isLt; have := fn.isLt
  omega

@[simp] theorem fieldRt_rType (op : BitVec 6) (rs rt rd : Reg) (sh : BitVec 5) (fn : BitVec 6) :
    fieldRt (rType op rs rt rd sh fn) = rt := by
  apply BitVec.eq_of_toNat_eq
  simp only [fieldRt, rType, toNat_field, toNat_append_add]
  have := op.isLt; have := rs.isLt; have := rt.isLt; have := rd.isLt; have := sh.isLt; have := fn.isLt
  omega

@[simp] theorem fieldRd_rType (op : BitVec 6) (rs rt rd : Reg) (sh : BitVec 5) (fn : BitVec 6) :
    fieldRd (rType op rs rt rd sh fn) = rd := by
  apply BitVec.eq_of_toNat_eq
  simp only [fieldRd, rType, toNat_field, toNat_append_add]
  have := op.isLt; have := rs.isLt; have := rt.isLt; have := rd.isLt; have := sh.isLt; have := fn.isLt
  omega

@[simp] theorem fieldShamt_rType (op : BitVec 6) (rs rt rd : Reg) (sh : BitVec 5) (fn : BitVec 6) :
    fieldShamt (rType op rs rt rd sh fn) = sh := by
  apply BitVec.eq_of_toNat_eq
  simp only [fieldShamt, rType, toNat_field, toNat_append_add]
  have := op.isLt; have := rs.isLt; have := rt.isLt; have := rd.isLt; have := sh.isLt; have := fn.isLt
  omega

@[simp] theorem fieldFunct_rType (op : BitVec 6) (rs rt rd : Reg) (sh : BitVec 5) (fn : BitVec 6) :
    fieldFunct (rType op rs rt rd sh fn) = fn := by
  apply BitVec.eq_of_toNat_eq
  simp only [fieldFunct, rType, toNat_field, toNat_append_add]
  have := op.isLt; have := rs.isLt; have := rt.isLt; have := rd.isLt; have := sh.isLt; have := fn.isLt
  omega

/-! ## `iType` -/

@[simp] theorem fieldOpcode_iType (op : BitVec 6) (rs rt : Reg) (imm : BitVec 16) :
    fieldOpcode (iType op rs rt imm) = op := by
  apply BitVec.eq_of_toNat_eq
  simp only [fieldOpcode, iType, toNat_field, toNat_append_add]
  have := op.isLt; have := rs.isLt; have := rt.isLt; have := imm.isLt
  omega

@[simp] theorem fieldRs_iType (op : BitVec 6) (rs rt : Reg) (imm : BitVec 16) :
    fieldRs (iType op rs rt imm) = rs := by
  apply BitVec.eq_of_toNat_eq
  simp only [fieldRs, iType, toNat_field, toNat_append_add]
  have := op.isLt; have := rs.isLt; have := rt.isLt; have := imm.isLt
  omega

@[simp] theorem fieldRt_iType (op : BitVec 6) (rs rt : Reg) (imm : BitVec 16) :
    fieldRt (iType op rs rt imm) = rt := by
  apply BitVec.eq_of_toNat_eq
  simp only [fieldRt, iType, toNat_field, toNat_append_add]
  have := op.isLt; have := rs.isLt; have := rt.isLt; have := imm.isLt
  omega

@[simp] theorem fieldImm_iType (op : BitVec 6) (rs rt : Reg) (imm : BitVec 16) :
    fieldImm (iType op rs rt imm) = imm := by
  apply BitVec.eq_of_toNat_eq
  simp only [fieldImm, iType, toNat_field, toNat_append_add]
  have := op.isLt; have := rs.isLt; have := rt.isLt; have := imm.isLt
  omega

/-! ## `jType` -/

@[simp] theorem fieldOpcode_jType (op : BitVec 6) (index : BitVec 26) :
    fieldOpcode (jType op index) = op := by
  apply BitVec.eq_of_toNat_eq
  simp only [fieldOpcode, jType, toNat_field, toNat_append_add]
  have := op.isLt; have := index.isLt
  omega

@[simp] theorem fieldIndex_jType (op : BitVec 6) (index : BitVec 26) :
    fieldIndex (jType op index) = index := by
  apply BitVec.eq_of_toNat_eq
  simp only [fieldIndex, jType, toNat_field, toNat_append_add]
  have := op.isLt; have := index.isLt
  omega

/-! ## `codeType` -/

@[simp] theorem fieldOpcode_codeType (code : BitVec 20) (fn : BitVec 6) :
    fieldOpcode (codeType code fn) = 0#6 := by
  apply BitVec.eq_of_toNat_eq
  simp only [fieldOpcode, codeType, toNat_field, toNat_append_add]
  have := code.isLt; have := fn.isLt
  omega

@[simp] theorem fieldCode_codeType (code : BitVec 20) (fn : BitVec 6) :
    fieldCode (codeType code fn) = code := by
  apply BitVec.eq_of_toNat_eq
  simp only [fieldCode, codeType, toNat_field, toNat_append_add]
  have := code.isLt; have := fn.isLt
  omega

@[simp] theorem fieldFunct_codeType (code : BitVec 20) (fn : BitVec 6) :
    fieldFunct (codeType code fn) = fn := by
  apply BitVec.eq_of_toNat_eq
  simp only [fieldFunct, codeType, toNat_field, toNat_append_add]
  have := code.isLt; have := fn.isLt
  omega

/-! ## A word from its fields -/

/-- A word is the R-TYPE word of its fields. -/
theorem rType_of_fields (w : Word) :
    rType (fieldOpcode w) (fieldRs w) (fieldRt w) (fieldRd w) (fieldShamt w) (fieldFunct w) = w := by
  apply BitVec.eq_of_toNat_eq
  simp only [fieldOpcode, fieldRs, fieldRt, fieldRd, fieldShamt, fieldFunct, rType, toNat_field, toNat_append_add]
  have := w.isLt
  omega

/-- A word is the I-TYPE word of its fields. -/
theorem iType_of_fields (w : Word) : iType (fieldOpcode w) (fieldRs w) (fieldRt w) (fieldImm w) = w := by
  apply BitVec.eq_of_toNat_eq
  simp only [fieldOpcode, fieldRs, fieldRt, fieldImm, iType, toNat_field, toNat_append_add]
  have := w.isLt
  omega

/-- A word is the J-TYPE word of its fields. -/
theorem jType_of_fields (w : Word) : jType (fieldOpcode w) (fieldIndex w) = w := by
  apply BitVec.eq_of_toNat_eq
  simp only [fieldOpcode, fieldIndex, jType, toNat_field, toNat_append_add]
  have := w.isLt
  omega

/-- A SPECIAL word is the code word of its fields. -/
theorem codeType_of_fields (w : Word) (h : fieldOpcode w = 0#6) : codeType (fieldCode w) (fieldFunct w) = w := by
  apply BitVec.eq_of_toNat_eq
  have h' := congrArg BitVec.toNat h
  simp only [fieldOpcode, fieldCode, fieldFunct, codeType, toNat_field, toNat_append_add] at h' ⊢
  have := w.isLt
  simp at h' ⊢
  omega

end Sys2Proof
end

