-- ==== Sys2Proof/Laws/State.lean ====
section
/-! SUPPORT. For each named update of the state, what every field is after it: one lemma per field, true by unfolding,
and what the general registers read. -/

namespace Sys2Proof.Machine

variable (s : State)

/-! ## `State.setGpr` -/

@[simp] theorem State.setGpr_regs (r : Reg) (v : Word) : (s.setGpr r v).regs = if r = 0#5 then s.regs else s.regs.set r.toNat v r.isLt := rfl
@[simp] theorem State.setGpr_hi (r : Reg) (v : Word) : (s.setGpr r v).hi = s.hi := rfl
@[simp] theorem State.setGpr_lo (r : Reg) (v : Word) : (s.setGpr r v).lo = s.lo := rfl
@[simp] theorem State.setGpr_pc (r : Reg) (v : Word) : (s.setGpr r v).pc = s.pc := rfl
@[simp] theorem State.setGpr_npc (r : Reg) (v : Word) : (s.setGpr r v).npc = s.npc := rfl
@[simp] theorem State.setGpr_ds (r : Reg) (v : Word) : (s.setGpr r v).ds = s.ds := rfl
@[simp] theorem State.setGpr_index (r : Reg) (v : Word) : (s.setGpr r v).index = s.index := rfl
@[simp] theorem State.setGpr_entryLo (r : Reg) (v : Word) : (s.setGpr r v).entryLo = s.entryLo := rfl
@[simp] theorem State.setGpr_badVaddr (r : Reg) (v : Word) : (s.setGpr r v).badVaddr = s.badVaddr := rfl
@[simp] theorem State.setGpr_entryHi (r : Reg) (v : Word) : (s.setGpr r v).entryHi = s.entryHi := rfl
@[simp] theorem State.setGpr_sr (r : Reg) (v : Word) : (s.setGpr r v).sr = s.sr := rfl
@[simp] theorem State.setGpr_cause (r : Reg) (v : Word) : (s.setGpr r v).cause = s.cause := rfl
@[simp] theorem State.setGpr_epc (r : Reg) (v : Word) : (s.setGpr r v).epc = s.epc := rfl
@[simp] theorem State.setGpr_tlb (r : Reg) (v : Word) : (s.setGpr r v).tlb = s.tlb := rfl
@[simp] theorem State.setGpr_mem (r : Reg) (v : Word) : (s.setGpr r v).mem = s.mem := rfl
@[simp] theorem State.setGpr_inputs (r : Reg) (v : Word) : (s.setGpr r v).inputs = s.inputs := rfl
@[simp] theorem State.setGpr_outputs (r : Reg) (v : Word) : (s.setGpr r v).outputs = s.outputs := rfl
@[simp] theorem State.setGpr_draws (r : Reg) (v : Word) : (s.setGpr r v).draws = s.draws := rfl
@[simp] theorem State.setGpr_fetched (r : Reg) (v : Word) : (s.setGpr r v).fetched = s.fetched := rfl
@[simp] theorem State.setGpr_params (r : Reg) (v : Word) : (s.setGpr r v).params = s.params := rfl
@[simp] theorem State.setGpr_lookup (r : Reg) (v : Word) (va : Word) : (s.setGpr r v).lookup va = s.lookup va := rfl

/-! ## `State.setHiLo` -/

@[simp] theorem State.setHiLo_regs (h l : Word) : (s.setHiLo h l).regs = s.regs := rfl
@[simp] theorem State.setHiLo_hi (h l : Word) : (s.setHiLo h l).hi = h := rfl
@[simp] theorem State.setHiLo_lo (h l : Word) : (s.setHiLo h l).lo = l := rfl
@[simp] theorem State.setHiLo_pc (h l : Word) : (s.setHiLo h l).pc = s.pc := rfl
@[simp] theorem State.setHiLo_npc (h l : Word) : (s.setHiLo h l).npc = s.npc := rfl
@[simp] theorem State.setHiLo_ds (h l : Word) : (s.setHiLo h l).ds = s.ds := rfl
@[simp] theorem State.setHiLo_index (h l : Word) : (s.setHiLo h l).index = s.index := rfl
@[simp] theorem State.setHiLo_entryLo (h l : Word) : (s.setHiLo h l).entryLo = s.entryLo := rfl
@[simp] theorem State.setHiLo_badVaddr (h l : Word) : (s.setHiLo h l).badVaddr = s.badVaddr := rfl
@[simp] theorem State.setHiLo_entryHi (h l : Word) : (s.setHiLo h l).entryHi = s.entryHi := rfl
@[simp] theorem State.setHiLo_sr (h l : Word) : (s.setHiLo h l).sr = s.sr := rfl
@[simp] theorem State.setHiLo_cause (h l : Word) : (s.setHiLo h l).cause = s.cause := rfl
@[simp] theorem State.setHiLo_epc (h l : Word) : (s.setHiLo h l).epc = s.epc := rfl
@[simp] theorem State.setHiLo_tlb (h l : Word) : (s.setHiLo h l).tlb = s.tlb := rfl
@[simp] theorem State.setHiLo_mem (h l : Word) : (s.setHiLo h l).mem = s.mem := rfl
@[simp] theorem State.setHiLo_inputs (h l : Word) : (s.setHiLo h l).inputs = s.inputs := rfl
@[simp] theorem State.setHiLo_outputs (h l : Word) : (s.setHiLo h l).outputs = s.outputs := rfl
@[simp] theorem State.setHiLo_draws (h l : Word) : (s.setHiLo h l).draws = s.draws := rfl
@[simp] theorem State.setHiLo_fetched (h l : Word) : (s.setHiLo h l).fetched = s.fetched := rfl
@[simp] theorem State.setHiLo_params (h l : Word) : (s.setHiLo h l).params = s.params := rfl
@[simp] theorem State.setHiLo_gpr (h l : Word) (q : Reg) : (s.setHiLo h l).gpr q = s.gpr q := rfl
@[simp] theorem State.setHiLo_lookup (h l : Word) (va : Word) : (s.setHiLo h l).lookup va = s.lookup va := rfl

/-! ## `State.advanceSeq` -/

@[simp] theorem State.advanceSeq_regs : (s.advanceSeq).regs = s.regs := rfl
@[simp] theorem State.advanceSeq_hi : (s.advanceSeq).hi = s.hi := rfl
@[simp] theorem State.advanceSeq_lo : (s.advanceSeq).lo = s.lo := rfl
@[simp] theorem State.advanceSeq_pc : (s.advanceSeq).pc = s.npc := rfl
@[simp] theorem State.advanceSeq_npc : (s.advanceSeq).npc = s.npc + 4#32 := rfl
@[simp] theorem State.advanceSeq_ds : (s.advanceSeq).ds = false := rfl
@[simp] theorem State.advanceSeq_index : (s.advanceSeq).index = s.index := rfl
@[simp] theorem State.advanceSeq_entryLo : (s.advanceSeq).entryLo = s.entryLo := rfl
@[simp] theorem State.advanceSeq_badVaddr : (s.advanceSeq).badVaddr = s.badVaddr := rfl
@[simp] theorem State.advanceSeq_entryHi : (s.advanceSeq).entryHi = s.entryHi := rfl
@[simp] theorem State.advanceSeq_sr : (s.advanceSeq).sr = s.sr := rfl
@[simp] theorem State.advanceSeq_cause : (s.advanceSeq).cause = s.cause := rfl
@[simp] theorem State.advanceSeq_epc : (s.advanceSeq).epc = s.epc := rfl
@[simp] theorem State.advanceSeq_tlb : (s.advanceSeq).tlb = s.tlb := rfl
@[simp] theorem State.advanceSeq_mem : (s.advanceSeq).mem = s.mem := rfl
@[simp] theorem State.advanceSeq_inputs : (s.advanceSeq).inputs = s.inputs := rfl
@[simp] theorem State.advanceSeq_outputs : (s.advanceSeq).outputs = s.outputs := rfl
@[simp] theorem State.advanceSeq_draws : (s.advanceSeq).draws = s.draws := rfl
@[simp] theorem State.advanceSeq_fetched : (s.advanceSeq).fetched = s.fetched := rfl
@[simp] theorem State.advanceSeq_params : (s.advanceSeq).params = s.params := rfl
@[simp] theorem State.advanceSeq_gpr (q : Reg) : (s.advanceSeq).gpr q = s.gpr q := rfl
@[simp] theorem State.advanceSeq_lookup (va : Word) : (s.advanceSeq).lookup va = s.lookup va := rfl

/-! ## `State.advanceBranch` -/

@[simp] theorem State.advanceBranch_regs (c : Bool) (a : Word) : (s.advanceBranch c a).regs = s.regs := rfl
@[simp] theorem State.advanceBranch_hi (c : Bool) (a : Word) : (s.advanceBranch c a).hi = s.hi := rfl
@[simp] theorem State.advanceBranch_lo (c : Bool) (a : Word) : (s.advanceBranch c a).lo = s.lo := rfl
@[simp] theorem State.advanceBranch_pc (c : Bool) (a : Word) : (s.advanceBranch c a).pc = s.npc := rfl
@[simp] theorem State.advanceBranch_npc (c : Bool) (a : Word) : (s.advanceBranch c a).npc = if c then a else s.npc + 4#32 := rfl
@[simp] theorem State.advanceBranch_ds (c : Bool) (a : Word) : (s.advanceBranch c a).ds = true := rfl
@[simp] theorem State.advanceBranch_index (c : Bool) (a : Word) : (s.advanceBranch c a).index = s.index := rfl
@[simp] theorem State.advanceBranch_entryLo (c : Bool) (a : Word) : (s.advanceBranch c a).entryLo = s.entryLo := rfl
@[simp] theorem State.advanceBranch_badVaddr (c : Bool) (a : Word) : (s.advanceBranch c a).badVaddr = s.badVaddr := rfl
@[simp] theorem State.advanceBranch_entryHi (c : Bool) (a : Word) : (s.advanceBranch c a).entryHi = s.entryHi := rfl
@[simp] theorem State.advanceBranch_sr (c : Bool) (a : Word) : (s.advanceBranch c a).sr = s.sr := rfl
@[simp] theorem State.advanceBranch_cause (c : Bool) (a : Word) : (s.advanceBranch c a).cause = s.cause := rfl
@[simp] theorem State.advanceBranch_epc (c : Bool) (a : Word) : (s.advanceBranch c a).epc = s.epc := rfl
@[simp] theorem State.advanceBranch_tlb (c : Bool) (a : Word) : (s.advanceBranch c a).tlb = s.tlb := rfl
@[simp] theorem State.advanceBranch_mem (c : Bool) (a : Word) : (s.advanceBranch c a).mem = s.mem := rfl
@[simp] theorem State.advanceBranch_inputs (c : Bool) (a : Word) : (s.advanceBranch c a).inputs = s.inputs := rfl
@[simp] theorem State.advanceBranch_outputs (c : Bool) (a : Word) : (s.advanceBranch c a).outputs = s.outputs := rfl
@[simp] theorem State.advanceBranch_draws (c : Bool) (a : Word) : (s.advanceBranch c a).draws = s.draws := rfl
@[simp] theorem State.advanceBranch_fetched (c : Bool) (a : Word) : (s.advanceBranch c a).fetched = s.fetched := rfl
@[simp] theorem State.advanceBranch_params (c : Bool) (a : Word) : (s.advanceBranch c a).params = s.params := rfl
@[simp] theorem State.advanceBranch_gpr (c : Bool) (a : Word) (q : Reg) : (s.advanceBranch c a).gpr q = s.gpr q := rfl
@[simp] theorem State.advanceBranch_lookup (c : Bool) (a : Word) (va : Word) : (s.advanceBranch c a).lookup va = s.lookup va := rfl

/-! ## `State.enterException` -/

@[simp] theorem State.enterException_regs (e : Exc) : (s.enterException e).regs = s.regs := rfl
@[simp] theorem State.enterException_hi (e : Exc) : (s.enterException e).hi = s.hi := rfl
@[simp] theorem State.enterException_lo (e : Exc) : (s.enterException e).lo = s.lo := rfl
@[simp] theorem State.enterException_pc (e : Exc) : (s.enterException e).pc = exceptionVector := rfl
@[simp] theorem State.enterException_npc (e : Exc) : (s.enterException e).npc = exceptionVector + 4#32 := rfl
@[simp] theorem State.enterException_ds (e : Exc) : (s.enterException e).ds = false := rfl
@[simp] theorem State.enterException_index (e : Exc) : (s.enterException e).index = s.index := rfl
@[simp] theorem State.enterException_entryLo (e : Exc) : (s.enterException e).entryLo = s.entryLo := rfl
@[simp] theorem State.enterException_badVaddr (e : Exc) : (s.enterException e).badVaddr = e.badVaddr s.badVaddr := rfl
@[simp] theorem State.enterException_entryHi (e : Exc) : (s.enterException e).entryHi = s.entryHi := rfl
@[simp] theorem State.enterException_sr (e : Exc) : (s.enterException e).sr = s.sr.push := rfl
@[simp] theorem State.enterException_cause (e : Exc) : (s.enterException e).cause = { bd := s.ds, excCode := e.code s.params } := rfl
@[simp] theorem State.enterException_epc (e : Exc) : (s.enterException e).epc = s.restartPc := rfl
@[simp] theorem State.enterException_tlb (e : Exc) : (s.enterException e).tlb = s.tlb := rfl
@[simp] theorem State.enterException_mem (e : Exc) : (s.enterException e).mem = s.mem := rfl
@[simp] theorem State.enterException_inputs (e : Exc) : (s.enterException e).inputs = s.inputs := rfl
@[simp] theorem State.enterException_outputs (e : Exc) : (s.enterException e).outputs = s.outputs := rfl
@[simp] theorem State.enterException_draws (e : Exc) : (s.enterException e).draws = s.draws := rfl
@[simp] theorem State.enterException_fetched (e : Exc) : (s.enterException e).fetched = s.fetched := rfl
@[simp] theorem State.enterException_params (e : Exc) : (s.enterException e).params = s.params := rfl
@[simp] theorem State.enterException_gpr (e : Exc) (q : Reg) : (s.enterException e).gpr q = s.gpr q := rfl
@[simp] theorem State.enterException_lookup (e : Exc) (va : Word) : (s.enterException e).lookup va = s.lookup va := rfl

/-! ## `State.popStatus` -/

@[simp] theorem State.popStatus_regs : (s.popStatus).regs = s.regs := rfl
@[simp] theorem State.popStatus_hi : (s.popStatus).hi = s.hi := rfl
@[simp] theorem State.popStatus_lo : (s.popStatus).lo = s.lo := rfl
@[simp] theorem State.popStatus_pc : (s.popStatus).pc = s.pc := rfl
@[simp] theorem State.popStatus_npc : (s.popStatus).npc = s.npc := rfl
@[simp] theorem State.popStatus_ds : (s.popStatus).ds = s.ds := rfl
@[simp] theorem State.popStatus_index : (s.popStatus).index = s.index := rfl
@[simp] theorem State.popStatus_entryLo : (s.popStatus).entryLo = s.entryLo := rfl
@[simp] theorem State.popStatus_badVaddr : (s.popStatus).badVaddr = s.badVaddr := rfl
@[simp] theorem State.popStatus_entryHi : (s.popStatus).entryHi = s.entryHi := rfl
@[simp] theorem State.popStatus_sr : (s.popStatus).sr = s.sr.pop := rfl
@[simp] theorem State.popStatus_cause : (s.popStatus).cause = s.cause := rfl
@[simp] theorem State.popStatus_epc : (s.popStatus).epc = s.epc := rfl
@[simp] theorem State.popStatus_tlb : (s.popStatus).tlb = s.tlb := rfl
@[simp] theorem State.popStatus_mem : (s.popStatus).mem = s.mem := rfl
@[simp] theorem State.popStatus_inputs : (s.popStatus).inputs = s.inputs := rfl
@[simp] theorem State.popStatus_outputs : (s.popStatus).outputs = s.outputs := rfl
@[simp] theorem State.popStatus_draws : (s.popStatus).draws = s.draws := rfl
@[simp] theorem State.popStatus_fetched : (s.popStatus).fetched = s.fetched := rfl
@[simp] theorem State.popStatus_params : (s.popStatus).params = s.params := rfl
@[simp] theorem State.popStatus_gpr (q : Reg) : (s.popStatus).gpr q = s.gpr q := rfl
@[simp] theorem State.popStatus_lookup (va : Word) : (s.popStatus).lookup va = s.lookup va := rfl

/-! ## `State.resetStep` -/

@[simp] theorem State.resetStep_regs : (s.resetStep).regs = s.regs := rfl
@[simp] theorem State.resetStep_hi : (s.resetStep).hi = s.hi := rfl
@[simp] theorem State.resetStep_lo : (s.resetStep).lo = s.lo := rfl
@[simp] theorem State.resetStep_pc : (s.resetStep).pc = resetVector := rfl
@[simp] theorem State.resetStep_npc : (s.resetStep).npc = resetVector + 4#32 := rfl
@[simp] theorem State.resetStep_ds : (s.resetStep).ds = false := rfl
@[simp] theorem State.resetStep_index : (s.resetStep).index = s.index := rfl
@[simp] theorem State.resetStep_entryLo : (s.resetStep).entryLo = s.entryLo := rfl
@[simp] theorem State.resetStep_badVaddr : (s.resetStep).badVaddr = s.badVaddr := rfl
@[simp] theorem State.resetStep_entryHi : (s.resetStep).entryHi = s.entryHi := rfl
@[simp] theorem State.resetStep_sr : (s.resetStep).sr = { s.sr with iec := false } := rfl
@[simp] theorem State.resetStep_cause : (s.resetStep).cause = s.cause := rfl
@[simp] theorem State.resetStep_epc : (s.resetStep).epc = s.epc := rfl
@[simp] theorem State.resetStep_tlb : (s.resetStep).tlb = s.tlb := rfl
@[simp] theorem State.resetStep_mem : (s.resetStep).mem = s.mem := rfl
@[simp] theorem State.resetStep_inputs : (s.resetStep).inputs = s.inputs := rfl
@[simp] theorem State.resetStep_outputs : (s.resetStep).outputs = s.outputs := rfl
@[simp] theorem State.resetStep_draws : (s.resetStep).draws = s.draws := rfl
@[simp] theorem State.resetStep_fetched : (s.resetStep).fetched = s.fetched := rfl
@[simp] theorem State.resetStep_params : (s.resetStep).params = s.params := rfl
@[simp] theorem State.resetStep_gpr (q : Reg) : (s.resetStep).gpr q = s.gpr q := rfl
@[simp] theorem State.resetStep_lookup (va : Word) : (s.resetStep).lookup va = s.lookup va := rfl

/-! ## `State.dropInput` -/

@[simp] theorem State.dropInput_regs : (s.dropInput).regs = s.regs := rfl
@[simp] theorem State.dropInput_hi : (s.dropInput).hi = s.hi := rfl
@[simp] theorem State.dropInput_lo : (s.dropInput).lo = s.lo := rfl
@[simp] theorem State.dropInput_pc : (s.dropInput).pc = s.pc := rfl
@[simp] theorem State.dropInput_npc : (s.dropInput).npc = s.npc := rfl
@[simp] theorem State.dropInput_ds : (s.dropInput).ds = s.ds := rfl
@[simp] theorem State.dropInput_index : (s.dropInput).index = s.index := rfl
@[simp] theorem State.dropInput_entryLo : (s.dropInput).entryLo = s.entryLo := rfl
@[simp] theorem State.dropInput_badVaddr : (s.dropInput).badVaddr = s.badVaddr := rfl
@[simp] theorem State.dropInput_entryHi : (s.dropInput).entryHi = s.entryHi := rfl
@[simp] theorem State.dropInput_sr : (s.dropInput).sr = s.sr := rfl
@[simp] theorem State.dropInput_cause : (s.dropInput).cause = s.cause := rfl
@[simp] theorem State.dropInput_epc : (s.dropInput).epc = s.epc := rfl
@[simp] theorem State.dropInput_tlb : (s.dropInput).tlb = s.tlb := rfl
@[simp] theorem State.dropInput_mem : (s.dropInput).mem = s.mem := rfl
@[simp] theorem State.dropInput_inputs : (s.dropInput).inputs = s.inputs.tail := rfl
@[simp] theorem State.dropInput_outputs : (s.dropInput).outputs = s.outputs := rfl
@[simp] theorem State.dropInput_draws : (s.dropInput).draws = s.draws := rfl
@[simp] theorem State.dropInput_fetched : (s.dropInput).fetched = s.fetched := rfl
@[simp] theorem State.dropInput_params : (s.dropInput).params = s.params := rfl
@[simp] theorem State.dropInput_gpr (q : Reg) : (s.dropInput).gpr q = s.gpr q := rfl
@[simp] theorem State.dropInput_lookup (va : Word) : (s.dropInput).lookup va = s.lookup va := rfl

/-! ## `State.drawn` -/

@[simp] theorem State.drawn_regs (n : Nat) : (s.drawn n).regs = s.regs := rfl
@[simp] theorem State.drawn_hi (n : Nat) : (s.drawn n).hi = s.hi := rfl
@[simp] theorem State.drawn_lo (n : Nat) : (s.drawn n).lo = s.lo := rfl
@[simp] theorem State.drawn_pc (n : Nat) : (s.drawn n).pc = s.pc := rfl
@[simp] theorem State.drawn_npc (n : Nat) : (s.drawn n).npc = s.npc := rfl
@[simp] theorem State.drawn_ds (n : Nat) : (s.drawn n).ds = s.ds := rfl
@[simp] theorem State.drawn_index (n : Nat) : (s.drawn n).index = s.index := rfl
@[simp] theorem State.drawn_entryLo (n : Nat) : (s.drawn n).entryLo = s.entryLo := rfl
@[simp] theorem State.drawn_badVaddr (n : Nat) : (s.drawn n).badVaddr = s.badVaddr := rfl
@[simp] theorem State.drawn_entryHi (n : Nat) : (s.drawn n).entryHi = s.entryHi := rfl
@[simp] theorem State.drawn_sr (n : Nat) : (s.drawn n).sr = s.sr := rfl
@[simp] theorem State.drawn_cause (n : Nat) : (s.drawn n).cause = s.cause := rfl
@[simp] theorem State.drawn_epc (n : Nat) : (s.drawn n).epc = s.epc := rfl
@[simp] theorem State.drawn_tlb (n : Nat) : (s.drawn n).tlb = s.tlb := rfl
@[simp] theorem State.drawn_mem (n : Nat) : (s.drawn n).mem = s.mem := rfl
@[simp] theorem State.drawn_inputs (n : Nat) : (s.drawn n).inputs = s.inputs := rfl
@[simp] theorem State.drawn_outputs (n : Nat) : (s.drawn n).outputs = s.outputs := rfl
@[simp] theorem State.drawn_draws (n : Nat) : (s.drawn n).draws = s.draws + n := rfl
@[simp] theorem State.drawn_fetched (n : Nat) : (s.drawn n).fetched = s.fetched := rfl
@[simp] theorem State.drawn_params (n : Nat) : (s.drawn n).params = s.params := rfl
@[simp] theorem State.drawn_gpr (n : Nat) (q : Reg) : (s.drawn n).gpr q = s.gpr q := rfl
@[simp] theorem State.drawn_lookup (n : Nat) (va : Word) : (s.drawn n).lookup va = s.lookup va := rfl

/-! ## `State.readTlb` -/

@[simp] theorem State.readTlb_regs : (s.readTlb).regs = s.regs := rfl
@[simp] theorem State.readTlb_hi : (s.readTlb).hi = s.hi := rfl
@[simp] theorem State.readTlb_lo : (s.readTlb).lo = s.lo := rfl
@[simp] theorem State.readTlb_pc : (s.readTlb).pc = s.pc := rfl
@[simp] theorem State.readTlb_npc : (s.readTlb).npc = s.npc := rfl
@[simp] theorem State.readTlb_ds : (s.readTlb).ds = s.ds := rfl
@[simp] theorem State.readTlb_index : (s.readTlb).index = s.index := rfl
@[simp] theorem State.readTlb_entryLo : (s.readTlb).entryLo = s.indexedEntry.lo := rfl
@[simp] theorem State.readTlb_badVaddr : (s.readTlb).badVaddr = s.badVaddr := rfl
@[simp] theorem State.readTlb_entryHi : (s.readTlb).entryHi = s.indexedEntry.hi := rfl
@[simp] theorem State.readTlb_sr : (s.readTlb).sr = s.sr := rfl
@[simp] theorem State.readTlb_cause : (s.readTlb).cause = s.cause := rfl
@[simp] theorem State.readTlb_epc : (s.readTlb).epc = s.epc := rfl
@[simp] theorem State.readTlb_tlb : (s.readTlb).tlb = s.tlb := rfl
@[simp] theorem State.readTlb_mem : (s.readTlb).mem = s.mem := rfl
@[simp] theorem State.readTlb_inputs : (s.readTlb).inputs = s.inputs := rfl
@[simp] theorem State.readTlb_outputs : (s.readTlb).outputs = s.outputs := rfl
@[simp] theorem State.readTlb_draws : (s.readTlb).draws = s.draws := rfl
@[simp] theorem State.readTlb_fetched : (s.readTlb).fetched = s.fetched := rfl
@[simp] theorem State.readTlb_params : (s.readTlb).params = s.params := rfl
@[simp] theorem State.readTlb_gpr (q : Reg) : (s.readTlb).gpr q = s.gpr q := rfl
@[simp] theorem State.readTlb_lookup (va : Word) : (s.readTlb).lookup va = s.lookup va := rfl

/-! ## `State.writeTlb` -/

@[simp] theorem State.writeTlb_regs : (s.writeTlb).regs = s.regs := rfl
@[simp] theorem State.writeTlb_hi : (s.writeTlb).hi = s.hi := rfl
@[simp] theorem State.writeTlb_lo : (s.writeTlb).lo = s.lo := rfl
@[simp] theorem State.writeTlb_pc : (s.writeTlb).pc = s.pc := rfl
@[simp] theorem State.writeTlb_npc : (s.writeTlb).npc = s.npc := rfl
@[simp] theorem State.writeTlb_ds : (s.writeTlb).ds = s.ds := rfl
@[simp] theorem State.writeTlb_index : (s.writeTlb).index = s.index := rfl
@[simp] theorem State.writeTlb_entryLo : (s.writeTlb).entryLo = s.entryLo := rfl
@[simp] theorem State.writeTlb_badVaddr : (s.writeTlb).badVaddr = s.badVaddr := rfl
@[simp] theorem State.writeTlb_entryHi : (s.writeTlb).entryHi = s.entryHi := rfl
@[simp] theorem State.writeTlb_sr : (s.writeTlb).sr = s.sr := rfl
@[simp] theorem State.writeTlb_cause : (s.writeTlb).cause = s.cause := rfl
@[simp] theorem State.writeTlb_epc : (s.writeTlb).epc = s.epc := rfl
@[simp] theorem State.writeTlb_tlb : (s.writeTlb).tlb = s.tlb.set s.index.toNat { hi := s.entryHi, lo := s.entryLo } s.index.isLt := rfl
@[simp] theorem State.writeTlb_mem : (s.writeTlb).mem = s.mem := rfl
@[simp] theorem State.writeTlb_inputs : (s.writeTlb).inputs = s.inputs := rfl
@[simp] theorem State.writeTlb_outputs : (s.writeTlb).outputs = s.outputs := rfl
@[simp] theorem State.writeTlb_draws : (s.writeTlb).draws = s.draws := rfl
@[simp] theorem State.writeTlb_fetched : (s.writeTlb).fetched = s.fetched := rfl
@[simp] theorem State.writeTlb_params : (s.writeTlb).params = s.params := rfl
@[simp] theorem State.writeTlb_gpr (q : Reg) : (s.writeTlb).gpr q = s.gpr q := rfl

/-! ## General registers -/

/-- "Register 0 is always zero" (10_state R22). -/
@[simp] theorem State.gpr_zero : s.gpr 0#5 = 0#32 := rfl

/-- What a register reads after a write to a register (10_state R22). -/
theorem State.gpr_setGpr (r q : Reg) (v : Word) :
    (s.setGpr r v).gpr q = if q = r ∧ q ≠ 0#5 then v else s.gpr q := by
  unfold State.gpr
  by_cases hq : q = 0#5
  · simp [hq]
  by_cases hr : r = 0#5
  · have : q ≠ r := fun h => hq (h.trans hr)
    simp [State.setGpr, hq, hr]
  · by_cases hqr : q = r
    · subst hqr
      simp [State.setGpr, hq]
    · have hne : r.toNat ≠ q.toNat := fun h => hqr (BitVec.eq_of_toNat_eq h.symm)
      simp [State.setGpr, hq, hr, hqr, hne]

/-- Another register keeps its value. -/
theorem State.gpr_setGpr_of_ne {r q : Reg} (v : Word) (h : q ≠ r) : (s.setGpr r v).gpr q = s.gpr q := by
  simp [State.gpr_setGpr, h]

/-- The register written reads the value, but for register 0. -/
theorem State.gpr_setGpr_self (r : Reg) (v : Word) : (s.setGpr r v).gpr r = if r = 0#5 then 0#32 else v := by
  by_cases h : r = 0#5
  · simp [h]
  · simp [State.gpr_setGpr, h]

/-- The slot of register 0 is never written. -/
theorem State.setGpr_zeroSlot (r : Reg) (v : Word) : (s.setGpr r v).regs[0] = s.regs[0] := by
  by_cases h : r = 0#5
  · simp [h]
  · have hne : r.toNat ≠ 0 := fun h0 => h (BitVec.eq_of_toNat_eq (by simpa using h0))
    simp [h, hne]

end Sys2Proof.Machine
end

