-- ==== Sys2Proof/Laws/Memory.lean ====
section
/-! SUPPORT. The laws of memory as a list in one form: a read after a write, and that every write keeps the form. -/

namespace Sys2Proof.Machine

/-! ## Keyed lists -/

theorem lookupKey_insertKey_self {α : Type} (l : List (Nat × α)) (a : Nat) (x : α) :
    lookupKey (insertKey l a x) a = some x := by
  induction l with
  | nil => simp [insertKey, lookupKey]
  | cons c rest ih =>
    obtain ⟨k, v⟩ := c
    unfold insertKey
    split
    · simp [lookupKey]
    · split
      · simp [lookupKey]
      · next h1 h2 => simp [lookupKey, h2, ih]

theorem lookupKey_insertKey_ne {α : Type} (l : List (Nat × α)) {a b : Nat} (x : α) (h : b ≠ a) :
    lookupKey (insertKey l a x) b = lookupKey l b := by
  induction l with
  | nil => simp [insertKey, lookupKey, h]
  | cons c rest ih =>
    obtain ⟨k, v⟩ := c
    unfold insertKey
    split
    · simp [lookupKey, h]
    · split
      · next h1 h2 => subst h2; simp [lookupKey, h]
      · simp [lookupKey, ih]

theorem risingFrom_insertKey {α : Type} (l : List (Nat × α)) (lo a : Nat) (x : α) (hlo : lo ≤ a)
    (h : risingFrom lo l = true) : risingFrom lo (insertKey l a x) = true := by
  induction l generalizing lo with
  | nil => simp [insertKey, risingFrom, hlo]
  | cons c rest ih =>
    obtain ⟨k, v⟩ := c
    simp only [risingFrom, Bool.and_eq_true, decide_eq_true_eq] at h
    unfold insertKey
    split
    · next h1 => simp only [risingFrom, Bool.and_eq_true, decide_eq_true_eq]; exact ⟨hlo, h1, h.2⟩
    · split
      · next h1 h2 => subst h2; simp only [risingFrom, Bool.and_eq_true, decide_eq_true_eq]; exact ⟨hlo, h.2⟩
      · next h1 h2 =>
        simp only [risingFrom, Bool.and_eq_true, decide_eq_true_eq]
        exact ⟨h.1, ih (k + 1) (by omega) h.2⟩

theorem all_insertKey {α : Type} (l : List (Nat × α)) (a : Nat) (x : α) (p : Nat × α → Bool) (hx : p (a, x) = true)
    (h : l.all p = true) : (insertKey l a x).all p = true := by
  induction l with
  | nil => simp [insertKey, hx]
  | cons c rest ih =>
    obtain ⟨k, v⟩ := c
    simp only [List.all_cons, Bool.and_eq_true] at h
    unfold insertKey
    split
    · simp [hx, h.1, h.2]
    · split
      · simp [hx, h.2]
      · simp [h.1, ih h.2]

/-! ## Bytes of memory -/

/-- A byte reads as it was written. -/
@[simp] theorem Memory.byteAt_setByte_self (m : Memory) (pa : Word) (b : Byte) : (m.setByte pa b).byteAt pa = b := by
  simp [Memory.byteAt, Memory.setByte, lookupKey_insertKey_self]

/-- A write leaves every other byte alone. -/
theorem Memory.byteAt_setByte_ne (m : Memory) {pa q : Word} (b : Byte) (h : q ≠ pa) :
    (m.setByte pa b).byteAt q = m.byteAt q := by
  have : q.toNat ≠ pa.toNat := fun hn => h (BitVec.eq_of_toNat_eq hn)
  simp [Memory.byteAt, Memory.setByte, lookupKey_insertKey_ne _ _ this]

/-- What a byte reads after the write of one byte. -/
theorem Memory.byteAt_setByte (m : Memory) (pa q : Word) (b : Byte) :
    (m.setByte pa b).byteAt q = if q = pa then b else m.byteAt q := by
  by_cases h : q = pa
  · subst h; simp
  · simp [h, Memory.byteAt_setByte_ne m b h]

/-- A write of bytes leaves every address outside them alone. -/
theorem Memory.byteAt_setBytes_outside (m : Memory) (pa q : Word) (bytes : List Byte)
    (h : ∀ k < bytes.length, q ≠ pa + BitVec.ofNat 32 k) : (m.setBytes pa bytes).byteAt q = m.byteAt q := by
  induction bytes generalizing m pa with
  | nil => rfl
  | cons b rest ih =>
    have h0 : q ≠ pa := by simpa using h 0 (by simp)
    rw [Memory.setBytes, ih, Memory.byteAt_setByte_ne m b h0]
    intro k hk hq
    apply h (k + 1) (by simpa using hk)
    rw [hq, BitVec.add_assoc, BitVec.ofNat_add, BitVec.add_comm (1#32)]

/-! ## The canonical form -/

/-- Memory with nothing listed has the form. -/
theorem Memory.wf_nil : Memory.wf [] = true := rfl

/-- The write of a byte keeps the form. -/
theorem Memory.wf_setByte {m : Memory} (pa : Word) (b : Byte) (h : m.wf = true) : (m.setByte pa b).wf = true := by
  simp only [Memory.wf, Bool.and_eq_true] at h ⊢
  exact ⟨risingFrom_insertKey m 0 _ b (Nat.zero_le _) h.1, all_insertKey m _ b _ (by simpa using pa.isLt) h.2⟩

/-- The write of bytes keeps the form. -/
theorem Memory.wf_setBytes {m : Memory} (pa : Word) (bytes : List Byte) (h : m.wf = true) :
    (m.setBytes pa bytes).wf = true := by
  induction bytes generalizing m pa with
  | nil => exact h
  | cons b rest ih => exact ih (pa + 1#32) (Memory.wf_setByte pa b h)

/-- The memory after reset has the form. -/
theorem Memory.wf_reset : State.reset.mem.wf = true := rfl

end Sys2Proof.Machine
end

