-- ==== Sys2Proof/Laws/Ops.lean ====
section
/-! SUPPORT. For each shared operation, once, everything it can do: "if it answers so, then one of these cases". -/

namespace Sys2Proof.Machine

/-! ## `settle` -/

@[simp] theorem settle_ok (s t : State) : settle s (.ok t) = .next t := rfl
@[simp] theorem settle_raise (s : State) (e : Exc) : settle s (.error (.raise e)) = .next (s.enterException e) := rfl
@[simp] theorem settle_fault (s : State) (f : Fault) : settle s (.error (.fault f)) = .fault f := rfl
@[simp] theorem settle_refuse (s : State) (x : Refusal) : settle s (.error (.refuse x)) = .refused x := rfl

/-- A settled instruction that answers a next state ended normally there or took an exception from `s`. -/
theorem settle_eq_next {s t : State} {r : Except Stop State} (h : settle s r = .next t) :
    r = .ok t ∨ ∃ e, r = .error (.raise e) ∧ t = s.enterException e := by
  match r, h with
  | .ok u, h => exact .inl (by simpa [settle] using h)
  | .error (.raise e), h => exact .inr ⟨e, rfl, by simpa [settle, eq_comm] using h⟩
  | .error (.fault _), h => simp [settle] at h
  | .error (.refuse _), h => simp [settle] at h

/-! ## The register file slot and the split of a value -/

@[simp] theorem Size.split_length (sz : Size) (v : Word) : (sz.split v).length = sz.bytes := by cases sz <;> rfl

/-! ## Translation -/

/-- `translate` answers exactly the address that the lookup gives. -/
theorem translate_eq_ok {s : State} {va pa : Word} (h : translate s va = .ok pa) : s.lookup va = some pa := by
  unfold translate at h
  split at h
  · next p hp => simpa [hp] using h
  · simp at h

/-- A translation that does not answer raises a TLB miss of the address itself (20_memory R71). -/
theorem translate_eq_error {s : State} {va : Word} {e : Stop} (h : translate s va = .error e) :
    s.lookup va = none ∧ e = .raise (.tlbMiss va) := by
  unfold translate at h
  split at h
  · simp at h
  · next hp => exact ⟨hp, by simpa [eq_comm] using h⟩

@[simp] theorem translate_of_lookup {s : State} {va pa : Word} (h : s.lookup va = some pa) :
    translate s va = .ok pa := by simp [translate, h]

@[simp] theorem translate_of_miss {s : State} {va : Word} (h : s.lookup va = none) :
    translate s va = .error (.raise (.tlbMiss va)) := by simp [translate, h]

/-! ## Physical accesses -/

/-- A physical read answers the bytes of RAM or ROM in the same state, or a device's free value after one draw. -/
theorem physRead_eq_ok {s t : State} {pa v : Word} {sz : Size} (h : physRead s pa sz = .ok (v, t)) :
    ((kindAt s.params pa = some .ram ∨ kindAt s.params pa = some .rom) ∧ v = s.mem.value pa sz ∧ t = s) ∨
      (kindAt s.params pa = some .device ∧ v = sz.truncate s.any32 ∧ t = s.drawn 1) := by
  unfold physRead at h
  split at h <;> simp at h
  · next hk => exact .inl ⟨.inl hk, h.1.symm, h.2.symm⟩
  · next hk => exact .inl ⟨.inr hk, h.1.symm, h.2.symm⟩
  · next hk => exact .inr ⟨hk, h.1.symm, h.2.symm⟩

/-- A physical read stops only where nothing is. -/
theorem physRead_eq_error {s : State} {pa : Word} {sz : Size} {e : Stop} (h : physRead s pa sz = .error e) :
    kindAt s.params pa = none ∧ e = .fault (.unpopulatedPhysicalAddress pa) := by
  unfold physRead at h
  split at h <;> simp at h
  next hk => exact ⟨hk, h.symm⟩

/-- A physical write changes memory, the outputs and the fetch log alone, as the map says. -/
theorem physWrite_eq_ok {s t : State} {pa v : Word} {sz : Size} (h : physWrite s pa sz v = .ok t) :
    (kindAt s.params pa = some .ram ∧
      t = { s with mem := s.mem.setBytes pa (sz.split v), fetched := s.fetchedAfterStore pa }) ∨
    (kindAt s.params pa = some .rom ∧ t = { s with fetched := s.fetchedAfterStore pa }) ∨
    (kindAt s.params pa = some .device ∧
      t = { s with
            outputs := { pa := pa, size := sz, value := sz.truncate v } :: s.outputs
            fetched := s.fetchedAfterStore pa }) := by
  unfold physWrite at h
  split at h <;> simp at h
  · next hk => exact .inl ⟨hk, h.symm⟩
  · next hk => exact .inr (.inl ⟨hk, h.symm⟩)
  · next hk => exact .inr (.inr ⟨hk, h.symm⟩)

/-- A physical write stops only where nothing is. -/
theorem physWrite_eq_error {s : State} {pa v : Word} {sz : Size} {e : Stop} (h : physWrite s pa sz v = .error e) :
    kindAt s.params pa = none ∧ e = .fault (.unpopulatedPhysicalAddress pa) := by
  unfold physWrite at h
  split at h <;> simp at h
  next hk => exact ⟨hk, h.symm⟩

/-! ## What a store and a read may change -/

/-- `t` is `s` but for memory, the outputs and the fetch log, and the bytes outside `inside` read as before. -/
structure StoredInto (s t : State) (inside : Word → Prop) : Prop where
  besides : t = { s with mem := t.mem, outputs := t.outputs, fetched := t.fetched }
  wf : s.mem.wf = true → t.mem.wf = true
  outside : ∀ q, ¬ inside q → t.mem.byteAt q = s.mem.byteAt q

theorem StoredInto.refl (s : State) (inside : Word → Prop) : StoredInto s s inside :=
  ⟨rfl, id, fun _ _ => rfl⟩

theorem StoredInto.trans {s t u : State} {inside : Word → Prop} (h : StoredInto s t inside)
    (k : StoredInto t u inside) : StoredInto s u inside where
  besides := by rw [k.besides, h.besides]
  wf hw := k.wf (h.wf hw)
  outside q hq := (k.outside q hq).trans (h.outside q hq)

theorem StoredInto.mono {s t : State} {inside wider : Word → Prop} (h : StoredInto s t inside)
    (hw : ∀ q, inside q → wider q) : StoredInto s t wider :=
  ⟨h.besides, h.wf, fun q hq => h.outside q fun hi => hq (hw q hi)⟩

/-- The addresses of `n` bytes from `pa` on. -/
def bytesFrom (pa : Word) (n : Nat) (q : Word) : Prop := ∃ k < n, q = pa + BitVec.ofNat 32 k

theorem physWrite_stored {s t : State} {pa v : Word} {sz : Size} (h : physWrite s pa sz v = .ok t) :
    StoredInto s t (bytesFrom pa sz.bytes) := by
  rcases physWrite_eq_ok h with ⟨-, rfl⟩ | ⟨-, rfl⟩ | ⟨-, rfl⟩
  · refine ⟨rfl, fun hw => Memory.wf_setBytes _ _ hw, fun q hq => ?_⟩
    apply Memory.byteAt_setBytes_outside
    intro k hk hqk
    exact hq ⟨k, by simpa using hk, hqk⟩
  · exact ⟨rfl, id, fun _ _ => rfl⟩
  · exact ⟨rfl, id, fun _ _ => rfl⟩

theorem physWriteBytes_stored {s t : State} {pa : Word} {bytes : List Byte} (h : physWriteBytes s pa bytes = .ok t) :
    StoredInto s t (bytesFrom pa bytes.length) := by
  induction bytes generalizing s pa with
  | nil => simp [physWriteBytes] at h; subst h; exact .refl _ _
  | cons b rest ih =>
    unfold physWriteBytes at h
    split at h
    · next u hu =>
      refine ((physWrite_stored hu).mono ?_).trans ((ih h).mono ?_)
      · rintro q ⟨k, hk, rfl⟩
        exact ⟨k, by simp [Size.bytes] at hk ⊢; omega, rfl⟩
      · rintro q ⟨k, hk, rfl⟩
        refine ⟨k + 1, by simpa using hk, ?_⟩
        rw [BitVec.add_assoc, BitVec.ofNat_add, BitVec.add_comm (1#32)]
    · simp at h

/-! ## Aligned loads and stores -/

/-- The address of an aligned access: the effective address where it is aligned, the address cleared of its low bits
where the policy forces it. -/
theorem accessAddress_eq_ok {p : Params} {sz : Size} {addr a : Word} (h : accessAddress p sz addr = .ok a) :
    (alignedFor sz addr = true ∧ a = addr) ∨
      (alignedFor sz addr = false ∧ p.align = .forceAlign ∧ a = alignDown sz addr) := by
  unfold accessAddress at h
  split at h
  · next ha => exact .inl ⟨ha, by simpa [eq_comm] using h⟩
  · next ha =>
    split at h <;> simp at h
    next hp => exact .inr ⟨by simpa using ha, hp, h.symm⟩

@[simp] theorem accessAddress_of_aligned {p : Params} {sz : Size} {addr : Word} (h : alignedFor sz addr = true) :
    accessAddress p sz addr = .ok addr := by simp [accessAddress, h]

/-- A load's data comes from one translation and one physical read. -/
theorem loadData_eq_ok {s t : State} {addr v : Word} {sz : Size} (h : loadData s addr sz = .ok (v, t)) :
    ∃ a pa, accessAddress s.params sz addr = .ok a ∧ s.lookup a = some pa ∧ physRead s pa sz = .ok (v, t) := by
  unfold loadData at h
  split at h
  · next a ha =>
    unfold memRead at h
    split at h
    · next pa hpa => exact ⟨a, pa, ha, translate_eq_ok hpa, h⟩
    · simp at h
  · simp at h

/-- A store's access is one translation and one physical write. -/
theorem storeData_eq_ok {s t : State} {addr v : Word} {sz : Size} (h : storeData s addr sz v = .ok t) :
    ∃ a pa, accessAddress s.params sz addr = .ok a ∧ s.lookup a = some pa ∧ physWrite s pa sz v = .ok t := by
  unfold storeData at h
  split at h
  · next a ha =>
    unfold memWrite at h
    split at h
    · next pa hpa => exact ⟨a, pa, ha, translate_eq_ok hpa, h⟩
    · simp at h
  · simp at h

/-- A read leaves the state alone, or draws one value. -/
theorem physRead_state {s t : State} {pa v : Word} {sz : Size} (h : physRead s pa sz = .ok (v, t)) :
    t = s ∨ t = s.drawn 1 := by
  rcases physRead_eq_ok h with ⟨-, -, rfl⟩ | ⟨-, -, rfl⟩ <;> simp

theorem loadData_state {s t : State} {addr v : Word} {sz : Size} (h : loadData s addr sz = .ok (v, t)) :
    t = s ∨ t = s.drawn 1 := by
  obtain ⟨a, pa, -, -, hr⟩ := loadData_eq_ok h
  exact physRead_state hr

theorem readWordAround_state {s t : State} {addr w : Word} (h : readWordAround s addr = .ok (w, t)) :
    t = s ∨ t = s.drawn 1 := by
  unfold readWordAround at h
  split at h
  · exact physRead_state h
  · simp at h

/-- A read around an address raises only where its translation does. -/
theorem translate_of_readWordAround_raises {s : State} {addr : Word} {e : Exc}
    (h : readWordAround s addr = .error (.raise e)) : translate s addr = .error (.raise e) := by
  unfold readWordAround at h
  split at h
  · have := (physRead_eq_error h).2
    simp at this
  · next e' he => rw [he]; simpa using h

/-- Writes of bytes stop only where nothing is. -/
theorem physWriteBytes_eq_error {s : State} {pa : Word} {bytes : List Byte} {e : Stop}
    (h : physWriteBytes s pa bytes = .error e) : ∃ q, e = .fault (.unpopulatedPhysicalAddress q) := by
  induction bytes generalizing s pa with
  | nil => simp [physWriteBytes] at h
  | cons b rest ih =>
    unfold physWriteBytes at h
    split at h
    · exact ih h
    · next e' he =>
      have := (physWrite_eq_error he).2
      exact ⟨pa, by simp at h; rw [← h, this]⟩

/-- A write around an address raises only where its translation does. -/
theorem translate_of_writeBytesAround_raises {s : State} {addr : Word} {k : Nat} {bytes : List Byte} {e : Exc}
    (h : writeBytesAround s addr k bytes = .error (.raise e)) : translate s addr = .error (.raise e) := by
  unfold writeBytesAround at h
  split at h
  · obtain ⟨q, hq⟩ := physWriteBytes_eq_error h
    simp at hq
  · next e' he => rw [he]; simpa using h

theorem writeBytesAround_eq_ok {s t : State} {addr : Word} {k : Nat} {bytes : List Byte}
    (h : writeBytesAround s addr k bytes = .ok t) :
    ∃ pa, s.lookup addr = some pa ∧ physWriteBytes s (wordBase pa + BitVec.ofNat 32 k) bytes = .ok t := by
  unfold writeBytesAround at h
  split at h
  · next pa hpa => exact ⟨pa, translate_eq_ok hpa, h⟩
  · simp at h

/-! ## The shared forms of instructions -/

/-- Everything an aligned load can do when it answers a next state. -/
theorem loadInto_eq_next {sz : Size} {f : Word → Word} {rt rs : Reg} {imm : BitVec 16} {s u : State}
    (h : loadInto sz f rt rs imm s = .next u) :
    (∃ v t, loadData s (effectiveAddress s rs imm) sz = .ok (v, t) ∧ u = (t.setGpr rt (f v)).advanceSeq) ∨
      ∃ e, loadData s (effectiveAddress s rs imm) sz = .error (.raise e) ∧ u = s.enterException e := by
  unfold loadInto at h
  split at h
  · next v t hd => exact .inl ⟨v, t, hd, by simpa [eq_comm] using h⟩
  · next e hd =>
    rcases settle_eq_next h with hx | ⟨x, hx, hu⟩
    · simp at hx
    · exact .inr ⟨x, by rw [hd]; simpa using hx, hu⟩

/-- Everything an aligned store can do when it answers a next state. -/
theorem storeFrom_eq_next {sz : Size} {rt rs : Reg} {imm : BitVec 16} {s u : State}
    (h : storeFrom sz rt rs imm s = .next u) :
    (∃ t, storeData s (effectiveAddress s rs imm) sz (s.gpr rt) = .ok t ∧ u = t.advanceSeq) ∨
      ∃ e, storeData s (effectiveAddress s rs imm) sz (s.gpr rt) = .error (.raise e) ∧ u = s.enterException e := by
  unfold storeFrom at h
  split at h
  · next t hd => exact .inl ⟨t, hd, by simpa [eq_comm] using h⟩
  · next e hd =>
    rcases settle_eq_next h with hx | ⟨x, hx, hu⟩
    · simp at hx
    · exact .inr ⟨x, by rw [hd]; simpa using hx, hu⟩

/-- Everything an unaligned load can do when it answers a next state. -/
theorem loadMerged_eq_next {f : Nat → Word → Word → Word} {rt rs : Reg} {imm : BitVec 16} {s u : State}
    (h : loadMerged f rt rs imm s = .next u) :
    (∃ w t, readWordAround s (effectiveAddress s rs imm) = .ok (w, t) ∧
      u = (t.setGpr rt (f (byteOffset (effectiveAddress s rs imm)) w (s.gpr rt))).advanceSeq) ∨
      ∃ e, readWordAround s (effectiveAddress s rs imm) = .error (.raise e) ∧ u = s.enterException e := by
  unfold loadMerged at h
  simp only at h
  split at h
  · next w t hd => exact .inl ⟨w, t, hd, by simpa [eq_comm] using h⟩
  · next e hd =>
    rcases settle_eq_next h with hx | ⟨x, hx, hu⟩
    · simp at hx
    · exact .inr ⟨x, by rw [hd]; simpa using hx, hu⟩

/-- Everything an unaligned store can do when it answers a next state. -/
theorem storeAround_eq_next {s u : State} {addr : Word} {k : Nat} {bytes : List Byte}
    (h : storeAround s addr k bytes = .next u) :
    (∃ t, writeBytesAround s addr k bytes = .ok t ∧ u = t.advanceSeq) ∨
      ∃ e, writeBytesAround s addr k bytes = .error (.raise e) ∧ u = s.enterException e := by
  unfold storeAround at h
  split at h
  · next t hd => exact .inl ⟨t, hd, by simpa [eq_comm] using h⟩
  · next e hd =>
    rcases settle_eq_next h with hx | ⟨x, hx, hu⟩
    · simp at hx
    · exact .inr ⟨x, by rw [hd]; simpa using hx, hu⟩

@[simp] theorem writeResult_eq (rd : Reg) (v : Word) (s : State) :
    writeResult rd v s = .next (s.setGpr rd v).advanceSeq := rfl

@[simp] theorem writeHiLo_eq (h l : Word) (s : State) : writeHiLo h l s = .next (s.setHiLo h l).advanceSeq := rfl

theorem writeChecked_eq_next {rd : Reg} {r : Except Stop Word} {s u : State} (h : writeChecked rd r s = .next u) :
    (∃ v, r = .ok v ∧ u = (s.setGpr rd v).advanceSeq) ∨ ∃ e, r = .error (.raise e) ∧ u = s.enterException e := by
  unfold writeChecked at h
  split at h
  · next v => exact .inl ⟨v, rfl, by simpa [eq_comm] using h⟩
  · next e =>
    rcases settle_eq_next h with hx | ⟨x, hx, hu⟩
    · simp at hx
    · exact .inr ⟨x, by simpa using hx, hu⟩

/-- Everything a jump within the region can do when it answers a next state. -/
theorem jumpRegion_eq_next {s t u : State} {index : BitVec 26} (h : jumpRegion s t index = .next u) :
    s.ds = false ∧ s.pc.extractLsb' 0 28 ≠ 0xFFFFFFC#28 ∧ u = t.advanceBranch true (jumpTarget s.pc index) := by
  unfold jumpRegion outsideDelaySlot insideRegion at h
  split at h
  · simp at h
  · split at h
    · simp at h
    · next h1 h2 => exact ⟨by simpa using h1, h2, by simpa [eq_comm] using h⟩

/-- Everything a jump to a register's address can do when it answers a next state. -/
theorem jumpRegister_eq_next {s t u : State} {target : Word} (h : jumpRegister s t target = .next u) :
    s.ds = false ∧ target.extractLsb' 0 2 = 0#2 ∧ u = t.advanceBranch true target := by
  unfold jumpRegister outsideDelaySlot toWordTarget at h
  split at h
  · simp at h
  · split at h
    · next h1 h2 => exact ⟨by simpa using h1, h2, by simpa [eq_comm] using h⟩
    · simp at h

/-- Everything a branch can do when it answers a next state. -/
theorem branchIf_eq_next {s t u : State} {c : Bool} {imm : BitVec 16} (h : branchIf s t c imm = .next u) :
    s.ds = false ∧ u = t.advanceBranch c (branchTarget s.pc imm) := by
  unfold branchIf outsideDelaySlot at h
  split at h
  · simp at h
  · next h1 => exact ⟨by simpa using h1, by simpa [eq_comm] using h⟩

/-! ## Control registers -/

/-- A read of a control register leaves the state alone, or, for Index, draws one value. -/
theorem readControl_eq_ok {s t : State} {c : Reg} {v : Word} (h : readControl s c = .ok (v, t)) :
    (c = 0#5 ∧ v = indexWord s.index s.any32 ∧ t = s.drawn 1) ∨
    (t = s ∧ ((c = 2#5 ∧ v = s.entryLo.word) ∨ (c = 9#5 ∧ v = s.badVaddr) ∨ (c = 10#5 ∧ v = s.entryHi.word) ∨
      (c = 12#5 ∧ v = s.sr.word) ∨ (c = 13#5 ∧ v = s.cause.word) ∨ (c = 14#5 ∧ v = s.epc))) := by
  have hc : ∀ n : Nat, c.toNat = n → c = BitVec.ofNat 5 n := fun n hn => by
    rw [← hn, BitVec.ofNat_toNat, BitVec.setWidth_eq]
  unfold readControl at h
  split at h <;> simp at h <;> (obtain ⟨rfl, rfl⟩ := h) <;> simp [hc _ (by assumption)]

/-- A read of a control register stops only where the number names none. -/
theorem readControl_eq_error {s : State} {c : Reg} {e : Stop} (h : readControl s c = .error e) :
    e = .refuse (.undefinedControlRegister c) := by
  unfold readControl at h
  split at h <;> simp at h
  exact h.symm

/-- What MTC0 can do: write one of Index, EntryLo, EntryHi, SR, or, under CREG_POLICY writable, BadVaddr, Cause, EPC. -/
theorem writeControl_eq_ok {s t : State} {c : Reg} {v : Word} (h : writeControl s c v = .ok t) :
    (c = 0#5 ∧ t = { s with index := v.extractLsb' 8 6 }) ∨
    (c = 2#5 ∧ t = { s with entryLo := { pfn := v.extractLsb' 12 20, v := v.getLsbD 9 } }) ∨
    (c = 10#5 ∧ t = { s with entryHi := { vpn := v.extractLsb' 12 20 } }) ∨
    (c = 12#5 ∧ t = { s with sr := { ieo := v.getLsbD 4, iep := v.getLsbD 2, iec := v.getLsbD 0 } }) ∨
    (s.params.creg = .writable ∧
      ((c = 9#5 ∧ t = { s with badVaddr := v }) ∨
       (c = 13#5 ∧ t = { s with cause := { bd := v.getLsbD 31, excCode := v.extractLsb' 2 5 } }) ∨
       (c = 14#5 ∧ t = { s with epc := v }))) := by
  have hc : ∀ n : Nat, c.toNat = n → c = BitVec.ofNat 5 n := fun n hn => by
    rw [← hn, BitVec.ofNat_toNat, BitVec.setWidth_eq]
  unfold writeControl at h
  split at h
  all_goals first
    | contradiction
    | (simp only [Except.ok.injEq] at h; subst h; simp [hc _ (by assumption)])
    | (unfold writeReadOnly at h
       split at h
       · simp at h
       · next hp => simp only [Except.ok.injEq] at h; subst h; simp [hc _ (by assumption), hp])

/-- MTC0 stops only by a refusal. -/
theorem writeControl_eq_error {s : State} {c : Reg} {v : Word} {e : Stop} (h : writeControl s c v = .error e) :
    ∃ x, e = .refuse x := by
  unfold writeControl writeReadOnly at h
  (repeat' split at h) <;> simp at h <;> exact ⟨_, h.symm⟩

/-! ## Fetch, interrupt, and the first part of a step -/

/-- A noted fetch changes the fetch log alone. -/
theorem noteFetch_eq_ok {s t : State} {va pa : Word} (h : noteFetch s va pa = .ok t) :
    t = { s with fetched := t.fetched } := by
  unfold noteFetch at h
  split at h
  · split at h <;> simp at h <;> subst h <;> rfl
  · simp at h; subst h; rfl

/-- A fetch changes the fetch log, and draws a value where the word comes from a device. -/
theorem fetch_eq_ok {s t : State} {w : Word} (h : fetch s = .ok (w, t)) :
    ∃ pa, s.lookup s.pc = some pa ∧
      (t = { s with fetched := t.fetched } ∨ t = State.drawn { s with fetched := t.fetched } 1) := by
  unfold fetch at h
  split at h
  · simp at h
  · next pa hpa =>
    refine ⟨pa, translate_eq_ok hpa, ?_⟩
    split at h
    · simp at h
    · next u hu =>
      have hu' := noteFetch_eq_ok hu
      rcases physRead_state h with ht | ht
      · left; rw [ht]; exact hu'
      · right; rw [ht]; exact congrArg (fun x => State.drawn x 1) hu'

/-- Everything that can come of a pending interrupt. -/
theorem beginInterrupted_cases (s : State) :
    (interruptWins s = true ∧
      beginInterrupted s = .ended (.next ((s.drawn (drawsOfInterrupt s.params.intPriority)).enterException .interrupt))) ∨
    (interruptWins s = false ∧ s.params.intPriority ≠ .interruptFirst ∧
      beginInterrupted s = beginInstruction (s.drawn (drawsOfChoice s.params.intPriority))) := by
  unfold beginInterrupted
  by_cases h : interruptWins s = true
  · exact .inl ⟨h, by rw [if_pos h]; rfl⟩
  · refine .inr ⟨by simpa using h, fun hp => h (by simp [interruptWins, hp]), by rw [if_neg h]⟩

/-- Everything a step can do before it executes an instruction. -/
theorem beginStep_cases (s : State) :
    (s.input.reset = true ∧ beginStep s = .ended (.next s.dropInput.resetStep)) ∨
    (s.input.reset = false ∧ (s.sr.iec && s.input.irq) = true ∧ beginStep s = beginInterrupted s.dropInput) ∨
    (s.input.reset = false ∧ (s.sr.iec && s.input.irq) = false ∧ beginStep s = beginInstruction s.dropInput) := by
  unfold beginStep
  by_cases h : s.input.reset = true
  · simp [h]
  · by_cases k : (s.sr.iec && s.input.irq) = true
    · right; left
      exact ⟨by simpa using h, k, by simp only [h, k]; rfl⟩
    · right; right
      exact ⟨by simpa using h, by simpa using k, by simp only [h, k]; rfl⟩

/-- Everything the fetch and the decoding can do. -/
theorem beginInstruction_cases (s : State) :
    (∃ e, fetch s = .error e ∧ beginInstruction s = .ended (settle s (.error e))) ∨
    (∃ w t e, fetch s = .ok (w, t) ∧ instructionOf s.params w = .error e ∧
      beginInstruction s = .ended (settle t (.error e))) ∨
    (∃ w t, fetch s = .ok (w, t) ∧ instructionOf s.params w = .ok none ∧
      beginInstruction s = .ended (.next t.advanceSeq)) ∨
    (∃ w t i, fetch s = .ok (w, t) ∧ instructionOf s.params w = .ok (some i) ∧ beginInstruction s = .execute i t) := by
  unfold beginInstruction
  split
  · next e he => exact .inl ⟨e, he, rfl⟩
  · next w t hf =>
    right
    split
    · next e he => exact .inl ⟨w, t, e, hf, he, rfl⟩
    · next he => exact .inr (.inl ⟨w, t, hf, he, rfl⟩)
    · next i he => exact .inr (.inr ⟨w, t, i, hf, he, rfl⟩)

end Sys2Proof.Machine
end

