-- ==== Sys2Proof/Laws/FetchLog.lean ====
section
/-! SUPPORT. What fetches and stores do to the fetch log of STRICT_CACHE (spec 20_memory R82, D11), said once. -/

namespace Sys2Proof.Machine

/-- The word number of an address is the address divided by 4. -/
@[simp] theorem wordIndexOf_toNat (pa : Word) : (wordIndexOf pa).toNat = pa.toNat / 4 := by
  have := pa.isLt
  simp [wordIndexOf, BitVec.extractLsb'_toNat, Nat.shiftRight_eq_div_pow]
  omega

/-- A word is stale after a store to it where it was noted, and every other entry is as before. -/
theorem lookupKey_markStale (l : FetchLog) (i k : Nat) :
    lookupKey (markStale l i) k = if k = i ∧ lookupKey l k ≠ none then some true else lookupKey l k := by
  unfold markStale
  split
  · next v hv =>
    by_cases h : k = i
    · subst h; simp [lookupKey_insertKey_self, hv]
    · simp [lookupKey_insertKey_ne _ _ h, h]
  · next hv =>
    by_cases h : k = i
    · subst h; simp [hv]
    · simp [h]

/-- What one physical write leaves in the fetch log. -/
theorem StoreNoted.of_fetchedAfterStore {s t : State} {pa : Word} (h : t.fetched = s.fetchedAfterStore pa) :
    StoreNoted s t pa where
  strict hs k := by rw [h, State.fetchedAfterStore, if_pos hs, lookupKey_markStale, wordIndexOf_toNat]
  coherent hs := by rw [h, State.fetchedAfterStore, if_neg (by simp [hs])]

/-- Two stores to one word leave in the fetch log what one leaves. -/
theorem StoreNoted.trans {s t u : State} {pa qa : Word} (h : StoreNoted s t pa) (g : StoreNoted t u qa)
    (hp : t.params = s.params) (hw : qa.toNat / 4 = pa.toNat / 4) : StoreNoted s u pa where
  strict hs k := by
    rw [g.strict (by rw [hp]; exact hs), h.strict hs, hw]
    by_cases hk : k = pa.toNat / 4 <;> by_cases hn : lookupKey s.fetched k = none <;> simp [hk, hn] <;> simp_all
  coherent hs := (g.coherent (by rw [hp]; exact hs)).trans (h.coherent hs)

/-- A physical write that answers leaves its word stale where it was noted. -/
theorem StoreNoted.of_physWrite {s t : State} {pa v : Word} {sz : Size} (h : physWrite s pa sz v = .ok t) :
    StoreNoted s t pa := by
  rcases physWrite_eq_ok h with ⟨-, rfl⟩ | ⟨-, rfl⟩ | ⟨-, rfl⟩ <;> exact .of_fetchedAfterStore rfl

/-- Writes of bytes within one word do the same. -/
theorem StoreNoted.of_physWriteBytes {s t : State} {pa : Word} {bytes : List Byte} (hne : bytes ≠ [])
    (hw : pa.toNat % 4 + bytes.length ≤ 4) (h : physWriteBytes s pa bytes = .ok t) : StoreNoted s t pa := by
  induction bytes generalizing s pa with
  | nil => exact absurd rfl hne
  | cons b rest ih =>
    unfold physWriteBytes at h
    split at h
    · next u hu =>
      have hs := StoreNoted.of_physWrite hu
      by_cases hr : rest = []
      · subst hr; simp [physWriteBytes] at h; subst h; exact hs
      · have hlen : 0 < rest.length := List.length_pos_iff.mpr hr
        simp only [List.length_cons] at hw
        have := pa.isLt
        have hn : (pa + 1#32).toNat = pa.toNat + 1 := by rw [BitVec.toNat_add]; simp; omega
        have hp : u.params = s.params := by rw [(physWrite_stored hu).besides]
        exact hs.trans (ih hr (by omega) h) hp (by omega)
    · simp at h

/-- A fetch that is not refused leaves its word noted under STRICT_CACHE outside kseg1, and nothing else. -/
theorem FetchNoted.of_noteFetch {s t : State} {va pa : Word} (h : noteFetch s va pa = .ok t) :
    FetchNoted s t va pa := by
  unfold noteFetch at h
  split at h
  · next hc =>
    simp only [Bool.and_eq_true, inCachedSegment, bne_iff_ne, ne_eq] at hc
    refine ⟨fun _ _ k => ?_, fun hu => ?_⟩
    · split at h
      · simp at h
      · next hl =>
        simp at h; subst h
        by_cases hk : k = pa.toNat / 4
        · rw [wordIndexOf_toNat] at hl; simp [hk, hl]
        · simp [hk]
      · simp only [Except.ok.injEq] at h; subst h
        by_cases hk : k = pa.toNat / 4
        · simp [hk, lookupKey_insertKey_self]
        · simp [hk, lookupKey_insertKey_ne]
    · rcases hu with hu | hu
      · rw [hu] at hc; simp at hc
      · exact absurd hu hc.2
  · next hc =>
    simp only [Except.ok.injEq] at h; subst h
    refine ⟨fun hs hk => ?_, fun _ => rfl⟩
    exact absurd (by simp [hs, inCachedSegment, hk]) hc

end Sys2Proof.Machine
end

