-- ==== Sys2Proof/Laws/Step.lean ====
section
/-! SUPPORT. Once for all 63 instructions, and once for a whole step: everything that can stand between a state and the
next one. What holds after every step follows from these cases. -/

namespace Sys2Proof.Machine

/-! ## The two remaining operations that may stop -/

/-- A signed result that fits 32 bits is the result, whatever the policy. -/
theorem signedResult_of_fits {p : Params} {x : Int} (h : -2147483648 ≤ x ∧ x ≤ 2147483647) :
    signedResult p x = .ok (BitVec.ofInt 32 x) := by
  have hf : fitsSigned x = true := by simp [fitsSigned]; omega
  simp [signedResult, hf]

/-- A settled instruction that answers a refusal ended in it. -/
theorem settle_eq_refused {s : State} {r : Except Stop State} {x : Refusal} (h : settle s r = .refused x) :
    r = .error (.refuse x) := by
  match r, h with
  | .ok u, h => simp at h
  | .error (.raise e), h => simp at h
  | .error (.fault _), h => simp at h
  | .error (.refuse _), h => simpa using h

/-! ## One instruction -/

/-- The instructions that write HI or LO. -/
def writesHiLo (i : Instr) : Prop :=
  ∃ rs rt, i = .mult rs rt ∨ i = .multu rs rt ∨ i = .div rs rt ∨ i = .divu rs rt ∨ i = .mthi rs ∨ i = .mtlo rs

/-- The instructions that store. -/
def stores (i : Instr) : Prop :=
  ∃ rt rs imm, i = .sb rt rs imm ∨ i = .sh rt rs imm ∨ i = .sw rt rs imm ∨ i = .swl rt rs imm ∨ i = .swr rt rs imm

/-- What an instruction `i` executed in `s` can have done when it answers the next state `u`. -/
inductive ExecShape (i : Instr) (s u : State) : Prop
  /-- it took the exception that the interrupt test says it would raise -/
  | entered (e : Exc) (hr : exceptionOf i s = some e) (h : u = s.enterException e)
  /-- it wrote a register after `n` draws -/
  | register (rd : Reg) (v : Word) (n : Nat) (h : u = ((s.drawn n).setGpr rd v).advanceSeq)
  /-- it wrote HI and LO after `n` draws -/
  | hiLo (a b : Word) (n : Nat) (hi : writesHiLo i) (h : u = ((s.setHiLo a b).drawn n).advanceSeq)
  /-- it stored -/
  | stored (t : State) (hi : stores i) (ht : StoredInto s t fun _ => True) (h : u = t.advanceSeq)
  /-- it jumped or branched, with or without a link -/
  | jumped (rd : Reg) (v : Word) (c : Bool) (target : Word)
      (ht : s.pc.extractLsb' 0 2 = 0#2 → target.extractLsb' 0 2 = 0#2) (hds : s.ds = false)
      (h : u = (s.setGpr rd v).advanceBranch c target)
  /-- it wrote a control register -/
  | control (rt c : Reg) (v : Word) (t : State) (hi : i = .mtc0 rt c) (ht : writeControl s c v = .ok t)
      (h : u = t.advanceSeq)
  | tlbRead (hi : i = .tlbr) (h : u = s.readTlb.advanceSeq)
  | tlbWrite (hi : i = .tlbwi) (h : u = s.writeTlb.advanceSeq)
  | popped (hi : i = .rfe) (h : u = s.popStatus.advanceSeq)

/-- A word is a multiple of 4 when its low two bits are 0. -/
theorem low_bits_zero_iff {a : Word} : a.extractLsb' 0 2 = 0#2 ↔ a.toNat % 4 = 0 := by
  rw [← BitVec.toNat_inj, BitVec.extractLsb'_toNat]; simp

/-- A branch target is a word address where `pc` is one. -/
theorem branchTarget_aligned (pc : Word) (imm : BitVec 16) (h : pc.extractLsb' 0 2 = 0#2) :
    (branchTarget pc imm).extractLsb' 0 2 = 0#2 := by
  rw [low_bits_zero_iff] at h ⊢
  unfold branchTarget
  generalize signExtend16 imm = x
  rw [BitVec.toNat_add, BitVec.toNat_add, BitVec.toNat_shiftLeft, Nat.shiftLeft_eq]
  have := pc.isLt
  simp
  omega

/-- A jump target in a region is a word address. -/
theorem jumpTarget_aligned (pc : Word) (index : BitVec 26) : (jumpTarget pc index).extractLsb' 0 2 = 0#2 := by
  rw [low_bits_zero_iff, jumpTarget, BitVec.toNat_append, ← Nat.shiftLeft_add_eq_or_of_lt (0#2).isLt, Nat.shiftLeft_eq]
  simp

theorem ExecShape.of_loadInto {i : Instr} {s u : State} {sz : Size} {f : Word → Word} {rt rs : Reg} {imm : BitVec 16}
    (hr : exceptionOf i s = raisedBy (loadData s (effectiveAddress s rs imm) sz))
    (h : loadInto sz f rt rs imm s = .next u) : ExecShape i s u := by
  rcases loadInto_eq_next h with ⟨v, t, hd, rfl⟩ | ⟨e, hd, rfl⟩
  · rcases loadData_state hd with rfl | rfl
    · exact .register rt (f v) 0 rfl
    · exact .register rt (f v) 1 rfl
  · exact .entered e (by rw [hr, hd]; rfl) rfl

theorem ExecShape.of_loadMerged {i : Instr} {s u : State} {f : Nat → Word → Word → Word} {rt rs : Reg}
    {imm : BitVec 16} (hr : exceptionOf i s = raisedBy (translate s (effectiveAddress s rs imm)))
    (h : loadMerged f rt rs imm s = .next u) : ExecShape i s u := by
  rcases loadMerged_eq_next h with ⟨v, t, hd, rfl⟩ | ⟨e, hd, rfl⟩
  · rcases readWordAround_state hd with rfl | rfl
    · exact .register rt _ 0 rfl
    · exact .register rt _ 1 rfl
  · exact .entered e (by rw [hr, translate_of_readWordAround_raises hd]; rfl) rfl

theorem ExecShape.of_storeFrom {i : Instr} {s u : State} {sz : Size} {rt rs : Reg} {imm : BitVec 16} (hi : stores i)
    (hr : exceptionOf i s = raisedBy (storeData s (effectiveAddress s rs imm) sz (s.gpr rt)))
    (h : storeFrom sz rt rs imm s = .next u) : ExecShape i s u := by
  rcases storeFrom_eq_next h with ⟨t, hd, rfl⟩ | ⟨e, hd, rfl⟩
  · obtain ⟨a, pa, -, -, hw⟩ := storeData_eq_ok hd
    exact .stored t hi ((physWrite_stored hw).mono fun _ _ => trivial) rfl
  · exact .entered e (by rw [hr, hd]; rfl) rfl

theorem ExecShape.of_storeAround {i : Instr} {s u : State} {addr : Word} {k : Nat} {bytes : List Byte} (hi : stores i)
    (hr : exceptionOf i s = raisedBy (translate s addr)) (h : storeAround s addr k bytes = .next u) :
    ExecShape i s u := by
  rcases storeAround_eq_next h with ⟨t, hd, rfl⟩ | ⟨e, hd, rfl⟩
  · obtain ⟨pa, -, hw⟩ := writeBytesAround_eq_ok hd
    exact .stored t hi ((physWriteBytes_stored hw).mono fun _ _ => trivial) rfl
  · exact .entered e (by rw [hr, translate_of_writeBytesAround_raises hd]; rfl) rfl

theorem ExecShape.of_writeResult {i : Instr} {s u : State} {rd : Reg} {v : Word} (h : writeResult rd v s = .next u) :
    ExecShape i s u := by
  simp at h
  exact .register rd v 0 h.symm

theorem ExecShape.of_writeChecked {i : Instr} {s u : State} {rd : Reg} {r : Except Stop Word}
    (hr : exceptionOf i s = raisedBy r) (h : writeChecked rd r s = .next u) : ExecShape i s u := by
  rcases writeChecked_eq_next h with ⟨v, -, rfl⟩ | ⟨e, he, rfl⟩
  · exact .register rd v 0 rfl
  · exact .entered e (by rw [hr, he]; rfl) rfl

theorem ExecShape.of_writeHiLo {i : Instr} {s u : State} {a b : Word} (hi : writesHiLo i)
    (h : writeHiLo a b s = .next u) : ExecShape i s u := by
  simp at h
  exact .hiLo a b 0 hi h.symm

theorem ExecShape.of_writeUndetermined {i : Instr} {s u : State} (hi : writesHiLo i)
    (h : writeUndetermined s = .next u) : ExecShape i s u := by
  simp [writeUndetermined] at h
  exact .hiLo _ _ 2 hi h.symm

/-- Everything an instruction can do when it answers a next state. -/
theorem exec_cases {i : Instr} {s u : State} (h : exec i s = .next u) : ExecShape i s u := by
  cases i with
  | lb | lbu | lh | lhu | lw => exact .of_loadInto rfl h
  | lwl | lwr => exact .of_loadMerged rfl h
  | sb a b c | sh a b c | sw a b c => exact .of_storeFrom ⟨a, b, c, by simp⟩ rfl h
  | swl a b c | swr a b c => exact .of_storeAround ⟨a, b, c, by simp⟩ rfl h
  | add | sub | addi => exact .of_writeChecked rfl h
  | addiu | slti | sltiu | andi | ori | xori | lui | addu | subu | slt | sltu | and | or | xor | nor
  | sll | srl | sra | sllv | srlv | srav | mfhi | mflo => exact .of_writeResult h
  | mult a b | multu a b => exact .of_writeHiLo ⟨a, b, by simp⟩ h
  | mthi a | mtlo a => exact .of_writeHiLo ⟨a, a, by simp⟩ h
  | div a b =>
    simp only [exec, execDiv] at h
    split at h
    · exact .of_writeUndetermined ⟨a, b, by simp⟩ h
    · exact .of_writeHiLo ⟨a, b, by simp⟩ h
  | divu a b =>
    simp only [exec, execDivu] at h
    split at h
    · exact .of_writeUndetermined ⟨a, b, by simp⟩ h
    · exact .of_writeHiLo ⟨a, b, by simp⟩ h
  | j =>
    obtain ⟨hds, -, rfl⟩ := jumpRegion_eq_next h
    exact .jumped 0#5 0#32 _ _ (fun _ => jumpTarget_aligned _ _) hds rfl
  | jal =>
    obtain ⟨hds, -, rfl⟩ := jumpRegion_eq_next h
    exact .jumped _ _ _ _ (fun _ => jumpTarget_aligned _ _) hds rfl
  | jr =>
    obtain ⟨hds, ha, rfl⟩ := jumpRegister_eq_next h
    exact .jumped 0#5 0#32 _ _ (fun _ => ha) hds rfl
  | jalr =>
    obtain ⟨hds, ha, rfl⟩ := jumpRegister_eq_next h
    exact .jumped _ _ _ _ (fun _ => ha) hds rfl
  | beq _ _ imm | bne _ _ imm | blez _ imm | bgtz _ imm | bltz _ imm | bgez _ imm =>
    obtain ⟨hds, rfl⟩ := branchIf_eq_next h
    exact .jumped 0#5 0#32 _ _ (branchTarget_aligned s.pc imm) hds rfl
  | bltzal _ imm | bgezal _ imm =>
    obtain ⟨hds, rfl⟩ := branchIf_eq_next h
    exact .jumped _ _ _ _ (branchTarget_aligned s.pc imm) hds rfl
  | syscall | brk =>
    simp [exec, execSyscall, execBreak] at h
    exact .entered _ rfl h.symm
  | mfc0 rt c =>
    simp only [exec, execMfc0] at h
    split at h
    · next v t hd =>
      simp at h
      subst h
      rcases readControl_eq_ok hd with ⟨-, -, rfl⟩ | ⟨rfl, -⟩
      · exact .register rt v 1 rfl
      · exact .register rt v 0 rfl
    · next e hd =>
      rw [readControl_eq_error hd] at h
      simp at h
  | mtc0 rt c =>
    simp only [exec, execMtc0] at h
    split at h
    · next t hd =>
      simp at h
      exact .control rt c _ t rfl hd h.symm
    · next e hd =>
      obtain ⟨x, rfl⟩ := writeControl_eq_error hd
      simp at h
  | tlbr => simp [exec, execTlbr] at h; exact .tlbRead rfl h.symm
  | tlbwi => simp [exec, execTlbwi] at h; exact .tlbWrite rfl h.symm
  | rfe => simp [exec, execRfe] at h; exact .popped rfl h.symm

/-! ## One step -/

/-- The state in which an instruction executes: the signals consumed, the fetch noted, `n` values drawn. -/
def State.begun (s : State) (f : FetchLog) (n : Nat) : State := State.drawn { s.dropInput with fetched := f } n

/-- What a step from `s` can have done when it answers the next state `t`. -/
inductive StepShape (s t : State) : Prop
  | reset (h : t = s.dropInput.resetStep)
  /-- an exception before the execution of an instruction: an interrupt, the fetch, a reserved word -/
  | entered (e : Exc) (f : FetchLog) (n : Nat) (h : t = (s.begun f n).enterException e)
  /-- a reserved word that RESERVED_POLICY makes a no-op -/
  | nop (f : FetchLog) (n : Nat) (h : t = (s.begun f n).advanceSeq)
  | executed (i : Instr) (f : FetchLog) (n : Nat) (hb : beginStep s = .execute i (s.begun f n))
      (h : exec i (s.begun f n) = .next t)

theorem fetch_state {s t : State} {w : Word} {n : Nat} (h : fetch (s.dropInput.drawn n) = .ok (w, t)) :
    ∃ f m, t = s.begun f m := by
  obtain ⟨pa, -, h | h⟩ := fetch_eq_ok h
  · exact ⟨t.fetched, n, h⟩
  · exact ⟨t.fetched, n + 1, h⟩

/-- Everything the fetch, the decoding and the execution can do when they answer a next state, after `n` draws. -/
theorem StepShape.of_beginInstruction {s t : State} {n : Nat} (hb : beginStep s = beginInstruction (s.dropInput.drawn n))
    (h : step s = .next t) : StepShape s t := by
  unfold step at h
  rcases beginInstruction_cases (s.dropInput.drawn n) with
    ⟨e, -, hc⟩ | ⟨w, u, e, hf, -, hc⟩ | ⟨w, u, hf, -, hc⟩ | ⟨w, u, i, hf, -, hc⟩
  · rw [hb, hc] at h
    rcases settle_eq_next h with hx | ⟨x, -, hu⟩
    · simp at hx
    · exact .entered x s.fetched n hu
  · rw [hb, hc] at h
    obtain ⟨f, m, rfl⟩ := fetch_state hf
    rcases settle_eq_next h with hx | ⟨x, -, hu⟩
    · simp at hx
    · exact .entered x f m hu
  · rw [hb, hc] at h
    simp at h
    obtain ⟨f, m, rfl⟩ := fetch_state hf
    exact .nop f m h.symm
  · rw [hb, hc] at h
    obtain ⟨f, m, rfl⟩ := fetch_state hf
    exact .executed i f m (by rw [hb, hc]) h

/-- Everything a step can do when it answers a next state. -/
theorem step_cases {s t : State} (h : step s = .next t) : StepShape s t := by
  rcases beginStep_cases s with ⟨-, hb⟩ | ⟨-, -, hb⟩ | ⟨-, -, hb⟩
  · simp [step, hb] at h
    exact .reset h.symm
  · rcases beginInterrupted_cases s.dropInput with ⟨-, hc⟩ | ⟨-, -, hc⟩
    · simp [step, hb, hc] at h
      exact .entered .interrupt s.fetched _ h.symm
    · exact .of_beginInstruction (hb.trans hc) h
  · exact .of_beginInstruction (n := 0) hb h

/-! ## What an instruction would itself raise -/

/-- The exception a computation ends in. -/
theorem raisedBy_eq_some {α : Type} {r : Except Stop α} {e : Exc} (h : raisedBy r = some e) : r = .error (.raise e) := by
  unfold raisedBy at h
  split at h <;> simp_all

@[simp] theorem raisedBy_raise {α : Type} (e : Exc) : raisedBy (.error (.raise e) : Except Stop α) = some e := rfl

theorem loadInto_of_raises {sz : Size} {f : Word → Word} {rt rs : Reg} {imm : BitVec 16} {s : State} {e : Exc}
    (h : raisedBy (loadData s (effectiveAddress s rs imm) sz) = some e) :
    loadInto sz f rt rs imm s = .next (s.enterException e) := by
  simp [loadInto, raisedBy_eq_some h]

theorem storeFrom_of_raises {sz : Size} {rt rs : Reg} {imm : BitVec 16} {s : State} {e : Exc}
    (h : raisedBy (storeData s (effectiveAddress s rs imm) sz (s.gpr rt)) = some e) :
    storeFrom sz rt rs imm s = .next (s.enterException e) := by
  simp [storeFrom, raisedBy_eq_some h]

theorem writeChecked_of_raises {rd : Reg} {r : Except Stop Word} {s : State} {e : Exc} (h : raisedBy r = some e) :
    writeChecked rd r s = .next (s.enterException e) := by
  simp [writeChecked, raisedBy_eq_some h]

/-- An instruction takes the exception that the interrupt test says it would raise. -/
theorem exec_of_exceptionOf {i : Instr} {s : State} {e : Exc} (h : exceptionOf i s = some e) :
    exec i s = .next (s.enterException e) := by
  cases i with
  | lb | lbu | lh | lhu | lw => exact loadInto_of_raises h
  | sb | sh | sw => exact storeFrom_of_raises h
  | lwl | lwr =>
    have := raisedBy_eq_some h
    simp [exec, execLwl, execLwr, loadMerged, readWordAround, this]
  | swl | swr =>
    have := raisedBy_eq_some h
    simp [exec, execSwl, execSwr, storeAround, writeBytesAround, this]
  | add | sub | addi => exact writeChecked_of_raises h
  | syscall | brk => simp [exceptionOf] at h; subst h; rfl
  | _ => simp [exceptionOf] at h

/-- An instruction that the interrupt test says would raise nothing enters no exception: it goes on to the instruction at
`npc`, and only MTC0 and RFE write what an entry writes. -/
theorem exec_of_exceptionOf_none {i : Instr} {s t : State} (h : exceptionOf i s = none) (hx : exec i s = .next t) :
    t.pc = s.npc ∧ ((t.epc = s.epc ∧ t.cause = s.cause ∧ t.badVaddr = s.badVaddr ∧ t.sr = s.sr) ∨
      i = .rfe ∨ ∃ rt c, i = .mtc0 rt c) := by
  cases exec_cases hx with
  | entered e hr hu => rw [h] at hr; contradiction
  | register rd v n hu => subst hu; simp
  | hiLo a b n hi hu => subst hu; simp
  | stored u hi ht hu => subst hu; rw [ht.besides]; simp
  | jumped rd v c target ht hds hu => subst hu; simp
  | control rt c v u hi ht hu =>
    subst hu
    refine ⟨?_, .inr (.inr ⟨rt, c, hi⟩)⟩
    obtain ⟨-, rfl⟩ | ⟨-, rfl⟩ | ⟨-, rfl⟩ | ⟨-, rfl⟩ | ⟨-, ⟨-, rfl⟩ | ⟨-, rfl⟩ | ⟨-, rfl⟩⟩ := writeControl_eq_ok ht <;> rfl
  | tlbRead hi hu => subst hu; exact ⟨rfl, .inl ⟨rfl, rfl, rfl, rfl⟩⟩
  | tlbWrite hi hu => subst hu; exact ⟨rfl, .inl ⟨rfl, rfl, rfl, rfl⟩⟩
  | popped hi hu => subst hu; exact ⟨rfl, .inr (.inl hi)⟩

end Sys2Proof.Machine
end

