-- ==== Sys2Proof/Tests/Slice0.lean ====
section
/-! SUPPORT. Tests. Every word and every expected value is the spec's own: the examples of the instruction rules, the
vectors of 95_test_vectors part 2, and F8M's worked examples of its part 1. -/

namespace Sys2Proof.Machine.Slice0

/-! ## Well-formedness: each check refuses an ill-formed term -/

/-- R37: 1 (Random on an R3000) names no control register here. -/
theorem test_wellFormed_mfc0_refuses : (Instr.mfc0 8 1).wellFormed = false := by decide
/-- R37: 15 (PRId on an R3000) names no control register here. -/
theorem test_wellFormed_mtc0_refuses : (Instr.mtc0 8 15).wellFormed = false := by decide
/-- R29: EPC is one of the seven. -/
theorem test_wellFormed_mfc0_accepts : (Instr.mfc0 27 14).wellFormed = true := by decide
/-- R213: software must not use `rd = rs`. -/
theorem test_restartable_jalr_refuses : (Instr.jalr 25 25).restartable = false := by decide
/-- R222: software must not use `rs = 31`. -/
theorem test_restartable_bltzal_refuses : (Instr.bltzal 31 4).restartable = false := by decide
/-- R223. -/
theorem test_restartable_bgezal_refuses : (Instr.bgezal 31 4).restartable = false := by decide

/-! ## Decoding: for every constructor a word written out from the spec's encoding of it -/

/-- R141. -/
theorem test_decode_lb : decode 0b100000_00100_01000_1111111111111111#32 = .ok (.lb 8 4 0xFFFF) := by decide
/-- R142. -/
theorem test_decode_lbu : decode 0b100100_00100_01000_0000000000000011#32 = .ok (.lbu 8 4 3) := by decide
/-- R143. -/
theorem test_decode_sb : decode 0b101000_00100_01000_0000000000000000#32 = .ok (.sb 8 4 0) := by decide
/-- R144. -/
theorem test_decode_lh : decode 0b100001_00100_01000_0000000000000010#32 = .ok (.lh 8 4 2) := by decide
/-- R145. -/
theorem test_decode_lhu : decode 0b100101_00100_01000_0000000000000010#32 = .ok (.lhu 8 4 2) := by decide
/-- R146. -/
theorem test_decode_sh : decode 0b101001_00100_01000_0000000000000110#32 = .ok (.sh 8 4 6) := by decide
/-- R147. -/
theorem test_decode_lw : decode 0b100011_11101_01000_0000000000001000#32 = .ok (.lw 8 29 8) := by decide
/-- R148. -/
theorem test_decode_sw : decode 0b101011_11101_11111_1111111111111100#32 = .ok (.sw 31 29 0xFFFC) := by decide
/-- R149. -/
theorem test_decode_lwl : decode 0b100010_00100_01000_0000000000000011#32 = .ok (.lwl 8 4 3) := by decide
/-- R150. -/
theorem test_decode_lwr : decode 0b100110_00100_01000_0000000000000000#32 = .ok (.lwr 8 4 0) := by decide
/-- R151. -/
theorem test_decode_swl : decode 0b101010_00100_01000_0000000000000011#32 = .ok (.swl 8 4 3) := by decide
/-- R152. -/
theorem test_decode_swr : decode 0b101110_00100_01000_0000000000000000#32 = .ok (.swr 8 4 0) := by decide
/-- R160. -/
theorem test_decode_addi : decode 0b001000_01001_01000_1111111111111111#32 = .ok (.addi 8 9 0xFFFF) := by decide
/-- R161. -/
theorem test_decode_addiu : decode 0b001001_11101_11101_1111111111100000#32 = .ok (.addiu 29 29 0xFFE0) := by decide
/-- R162. -/
theorem test_decode_slti : decode 0b001010_01001_01000_1111111111111011#32 = .ok (.slti 8 9 0xFFFB) := by decide
/-- R163. -/
theorem test_decode_sltiu : decode 0b001011_01001_01000_1111111111111111#32 = .ok (.sltiu 8 9 0xFFFF) := by decide
/-- R164. -/
theorem test_decode_andi : decode 0b001100_01001_01000_1111111100000000#32 = .ok (.andi 8 9 0xFF00) := by decide
/-- R165. -/
theorem test_decode_ori : decode 0b001101_00000_01000_1000000000000000#32 = .ok (.ori 8 0 0x8000) := by decide
/-- R166. -/
theorem test_decode_xori : decode 0b001110_01001_01000_1111111111111111#32 = .ok (.xori 8 9 0xFFFF) := by decide
/-- R167. -/
theorem test_decode_lui : decode 0b001111_00000_01000_1000000000000000#32 = .ok (.lui 8 0x8000) := by decide
/-- R170. -/
theorem test_decode_add : decode 0b000000_01000_01001_01010_00000_100000#32 = .ok (.add 10 8 9) := by decide
/-- R171. -/
theorem test_decode_addu : decode 0b000000_01000_01001_01010_00000_100001#32 = .ok (.addu 10 8 9) := by decide
/-- R172. -/
theorem test_decode_sub : decode 0b000000_01000_01001_01010_00000_100010#32 = .ok (.sub 10 8 9) := by decide
/-- R173. -/
theorem test_decode_subu : decode 0b000000_01000_01001_01010_00000_100011#32 = .ok (.subu 10 8 9) := by decide
/-- R174. -/
theorem test_decode_slt : decode 0b000000_01000_01001_01010_00000_101010#32 = .ok (.slt 10 8 9) := by decide
/-- R175. -/
theorem test_decode_sltu : decode 0b000000_01000_01001_01010_00000_101011#32 = .ok (.sltu 10 8 9) := by decide
/-- R176. -/
theorem test_decode_and : decode 0b000000_01000_01001_01010_00000_100100#32 = .ok (.and 10 8 9) := by decide
/-- R177. -/
theorem test_decode_or : decode 0b000000_01000_01001_01010_00000_100101#32 = .ok (.or 10 8 9) := by decide
/-- R178. -/
theorem test_decode_xor : decode 0b000000_01000_01001_01010_00000_100110#32 = .ok (.xor 10 8 9) := by decide
/-- R179. -/
theorem test_decode_nor : decode 0b000000_01000_01001_01010_00000_100111#32 = .ok (.nor 10 8 9) := by decide
/-- R185. -/
theorem test_decode_sll : decode 0b000000_00000_01001_01010_00100_000000#32 = .ok (.sll 10 9 4) := by decide
/-- R186. -/
theorem test_decode_srl : decode 0b000000_00000_01001_01010_00100_000010#32 = .ok (.srl 10 9 4) := by decide
/-- R187. -/
theorem test_decode_sra : decode 0b000000_00000_01001_01010_00100_000011#32 = .ok (.sra 10 9 4) := by decide
/-- R188. -/
theorem test_decode_sllv : decode 0b000000_01000_01001_01010_00000_000100#32 = .ok (.sllv 10 9 8) := by decide
/-- R189. -/
theorem test_decode_srlv : decode 0b000000_01000_01001_01010_00000_000110#32 = .ok (.srlv 10 9 8) := by decide
/-- R190. -/
theorem test_decode_srav : decode 0b000000_01000_01001_01010_00000_000111#32 = .ok (.srav 10 9 8) := by decide
/-- R195. -/
theorem test_decode_mult : decode 0b000000_01000_01001_00000_00000_011000#32 = .ok (.mult 8 9) := by decide
/-- R196. -/
theorem test_decode_multu : decode 0b000000_01000_01001_00000_00000_011001#32 = .ok (.multu 8 9) := by decide
/-- R197. -/
theorem test_decode_div : decode 0b000000_01000_01001_00000_00000_011010#32 = .ok (.div 8 9) := by decide
/-- R198. -/
theorem test_decode_divu : decode 0b000000_01000_01001_00000_00000_011011#32 = .ok (.divu 8 9) := by decide
/-- R199. -/
theorem test_decode_mfhi : decode 0b000000_00000_00000_01010_00000_010000#32 = .ok (.mfhi 10) := by decide
/-- R200. -/
theorem test_decode_mthi : decode 0b000000_01000_00000_00000_00000_010001#32 = .ok (.mthi 8) := by decide
/-- R201. -/
theorem test_decode_mflo : decode 0b000000_00000_00000_01010_00000_010010#32 = .ok (.mflo 10) := by decide
/-- R202. -/
theorem test_decode_mtlo : decode 0b000000_01000_00000_00000_00000_010011#32 = .ok (.mtlo 8) := by decide
/-- R210. -/
theorem test_decode_j : decode 0b000010_00000000000000010000010000#32 = .ok (.j 0x410) := by decide
/-- R211. -/
theorem test_decode_jal : decode 0b000011_00000000000000100000000000#32 = .ok (.jal 0x800) := by decide
/-- R212. -/
theorem test_decode_jr : decode 0b000000_11111_00000_00000_00000_001000#32 = .ok (.jr 31) := by decide
/-- R213. -/
theorem test_decode_jalr : decode 0b000000_11001_00000_11111_00000_001001#32 = .ok (.jalr 31 25) := by decide
/-- R214. -/
theorem test_decode_beq : decode 0b000100_01000_01001_0000000000000011#32 = .ok (.beq 8 9 3) := by decide
/-- R215. -/
theorem test_decode_bne : decode 0b000101_01000_00000_1111111111111101#32 = .ok (.bne 8 0 0xFFFD) := by decide
/-- R216. -/
theorem test_decode_blez : decode 0b000110_01000_00000_0000000000000010#32 = .ok (.blez 8 2) := by decide
/-- R217. -/
theorem test_decode_bgtz : decode 0b000111_01000_00000_1111111111111111#32 = .ok (.bgtz 8 0xFFFF) := by decide
/-- R220. -/
theorem test_decode_bltz : decode 0b000001_01000_00000_0000000000000100#32 = .ok (.bltz 8 4) := by decide
/-- R221. -/
theorem test_decode_bgez : decode 0b000001_01000_00001_0000000000000100#32 = .ok (.bgez 8 4) := by decide
/-- R222. -/
theorem test_decode_bltzal : decode 0b000001_01000_10000_0000000000000100#32 = .ok (.bltzal 8 4) := by decide
/-- R223. -/
theorem test_decode_bgezal : decode 0b000001_01000_10001_0000000000000100#32 = .ok (.bgezal 8 4) := by decide
/-- R230. -/
theorem test_decode_syscall : decode 0b000000_00010010001101000101_001100#32 = .ok (.syscall 0x12345) := by decide
/-- R231. -/
theorem test_decode_brk : decode 0b000000_00000000000000000111_001101#32 = .ok (.brk 7) := by decide
/-- R235. -/
theorem test_decode_mfc0 : decode 0b010000_00000_11010_01101_00000_000000#32 = .ok (.mfc0 26 13) := by decide
/-- R236. -/
theorem test_decode_mtc0 : decode 0b010000_00100_01000_01100_00000_000000#32 = .ok (.mtc0 8 12) := by decide
/-- R237. -/
theorem test_decode_tlbr : decode 0b010000_10000_00000_00000_00000_000001#32 = .ok .tlbr := by decide
/-- R238. -/
theorem test_decode_tlbwi : decode 0b010000_10000_00000_00000_00000_000010#32 = .ok .tlbwi := by decide
/-- R239. -/
theorem test_decode_rfe : decode 0b010000_10000_00000_00000_00000_010000#32 = .ok .rfe := by decide
/-- R121, 95 2.6: REGIMM with rt = 2 selects no instruction. -/
theorem test_decode_reserved_regimm : decode 0x05020004#32 = .error .unassigned := by decide
/-- R119, 95 2.8: the word of TLBP on an R3000. -/
theorem test_decode_reserved_tlbp : decode 0x42000008#32 = .error .unassigned := by decide
/-- R121: coprocessor 1 opcode 17. -/
theorem test_decode_reserved_cop1 : decode 0x44000000#32 = .error .unassigned := by decide
/-- R120, 95 2.2: LUI with rs = 1. -/
theorem test_decode_lui_rs : decode 0x3C288000#32 = .error (.fieldNotZero (.lui 8 0x8000)) := by decide
/-- R120, 95 2.3: ADD with shamt = 1. -/
theorem test_decode_add_shamt : decode 0x01095060#32 = .error (.fieldNotZero (.add 10 8 9)) := by decide
/-- R120, 95 2.6: BLEZ with rt = 1. -/
theorem test_decode_blez_rt : decode 0x19010002#32 = .error (.fieldNotZero (.blez 8 2)) := by decide
/-- R122: the all-zero word is `sll $0,$0,0`. -/
theorem test_decode_nop : decode 0#32 = .ok (.sll 0 0 0) := by decide
/-- The table's numbering of the bits is the word's (R62). -/
theorem test_decodeTableWord : decodeTableWord 32 0x0320F809 = some (.jalr 31 25) := by decide

/-! ## States and readings for the tests (the conventions of 95_test_vectors) -/

/-- The instruction is at 0x80001000 and every register is 0. -/
def base : State := { State.reset with pc := 0x80001000#32, npc := 0x80001004#32 }

/-- `base` with some registers set. -/
def withGprs (l : List (Reg × Word)) : State := l.foldl (fun s p => s.setGpr p.1 p.2) base

/-- A state with a word of RAM set. -/
def putWord (s : State) (pa v : Word) : State := { s with mem := s.mem.setBytes pa (bytesOfWord v) }

/-- A part of the next state, if there is one. -/
def after {α : Type} (o : StepOutcome) (f : State → α) : Option α :=
  match o with
  | .next t => some (f t)
  | .fault _ => none
  | .refused _ => none

/-- The name of the refusal, if there is one. -/
def refusal (o : StepOutcome) : Option Refusal :=
  match o with
  | .refused r => some r
  | .next _ => none
  | .fault _ => none

/-- Where control stands: pc, npc, ds. -/
def flow (s : State) : Word × Word × Bool := (s.pc, s.npc, s.ds)

/-- The word of RAM at physical 0x2000, logical 0x80002000. -/
def wordM (s : State) : Word := s.mem.value 0x2000#32 .word

/-- $a0 = 0x80002000, $t0 = 0xAABBCCDD and bytes 11 22 33 44 at 0x80002000 (95 2.1). -/
def unalignedStart : State :=
  putWord (withGprs [(4, 0x80002000#32), (8, 0xAABBCCDD#32)]) 0x2000#32 0x44332211#32

/-- TLB[5] invalid, $a0 = 0x00405002 in kuseg, SR = 1 (95 2.1). -/
def missStart : State := { withGprs [(4, 0x00405002#32), (8, 7#32)] with sr := { ieo := false, iep := false, iec := true } }

/-! ## Loads and stores (95 2.1) -/

theorem test_lb : after (exec (.lb 8 4 0xFFFF) (putWord (withGprs [(4, 0x80002004#32)]) 0x2000#32 0x80FFFF7F#32))
    (·.gpr 8) = some 0xFFFFFF80#32 := by decide
theorem test_lbu : after (exec (.lbu 8 4 3) (putWord (withGprs [(4, 0x80002000#32)]) 0x2000#32 0x80FFFF7F#32))
    (·.gpr 8) = some 0x00000080#32 := by decide
theorem test_lh : after (exec (.lh 8 4 2) (putWord (withGprs [(4, 0x80002000#32)]) 0x2000#32 0x8001FFFF#32))
    (·.gpr 8) = some 0xFFFF8001#32 := by decide
theorem test_lh_misaligned : refusal (exec (.lh 8 4 1) (withGprs [(4, 0x80002000#32)])) =
    some (.misalignedAccess 0x80002001#32) := by decide
theorem test_lhu : after (exec (.lhu 8 4 2) (putWord (withGprs [(4, 0x80002000#32)]) 0x2000#32 0x8001FFFF#32))
    (·.gpr 8) = some 0x00008001#32 := by decide
theorem test_lw : after (exec (.lw 8 29 8) (putWord (withGprs [(29, 0x80002000#32)]) 0x2008#32 0xCAFEBABE#32))
    (·.gpr 8) = some 0xCAFEBABE#32 := by decide
/-- The TLB miss row: `lw $t0,0($a0)` with `$a0 = 0x00405000`, `TLB[5].V = 0`, SR = 1. -/
theorem test_lw_miss : after (exec (.lw 8 4 0xFFFE) missStart)
    (fun t => (t.epc, t.badVaddr, t.cause.word, t.sr.word, t.pc, t.gpr 8)) =
    some (0x80001000#32, 0x00405000#32, 0x00000004#32, 0x04#32, 0xBFC00180#32, 7#32) := by decide
theorem test_sb : after (exec (.sb 8 4 1)
    (putWord (withGprs [(4, 0x80002000#32), (8, 0x123456AB#32)]) 0x2000#32 0x11223344#32)) wordM =
    some 0x1122AB44#32 := by decide
theorem test_sh : after (exec (.sh 8 4 2)
    (putWord (withGprs [(4, 0x80002000#32), (8, 0x1234BEEF#32)]) 0x2000#32 0x11223344#32)) wordM =
    some 0xBEEF3344#32 := by decide
theorem test_sh_misaligned : refusal (exec (.sh 8 4 3) (withGprs [(4, 0x80002000#32)])) =
    some (.misalignedAccess 0x80002003#32) := by decide
theorem test_sw : after (exec (.sw 31 29 0xFFFC)
    (putWord (withGprs [(29, 0x80002004#32), (31, 0x8000100C#32)]) 0x2000#32 0#32)) wordM =
    some 0x8000100C#32 := by decide
/-- TLB[5] = VPN 0x00405, PFN 0x00123, V 1 does not map 0xC0005000. -/
theorem test_sw_miss : after (exec (.sw 8 4 0) (State.setGpr { base with
      tlb := base.tlb.set 5 { hi := { vpn := 0x00405#20 }, lo := { pfn := 0x00123#20, v := true } } } 4 0xC0005000#32))
    (fun t => (t.badVaddr, t.cause.word, t.mem)) = some (0xC0005000#32, 0x00000004#32, []) := by decide
theorem test_lwl : (List.map (fun b => after (exec (.lwl 8 4 b) unalignedStart) (·.gpr 8)) [0, 1, 2, 3]) =
    [some 0x11BBCCDD#32, some 0x2211CCDD#32, some 0x332211DD#32, some 0x44332211#32] := by decide
/-- A miss records the unaligned effective address. -/
theorem test_lwl_miss : after (exec (.lwl 8 4 3) missStart) (fun t => (t.badVaddr, t.gpr 8)) =
    some (0x00405005#32, 7#32) := by decide
theorem test_lwr : (List.map (fun b => after (exec (.lwr 8 4 b) unalignedStart) (·.gpr 8)) [0, 1, 2, 3]) =
    [some 0x44332211#32, some 0xAA443322#32, some 0xAABB4433#32, some 0xAABBCC44#32] := by decide
theorem test_swl : (List.map (fun b => after (exec (.swl 8 4 b) unalignedStart) wordM) [0, 1, 2, 3]) =
    [some 0x443322AA#32, some 0x4433AABB#32, some 0x44AABBCC#32, some 0xAABBCCDD#32] := by decide
theorem test_swr : (List.map (fun b => after (exec (.swr 8 4 b) unalignedStart) wordM) [0, 1, 2, 3]) =
    [some 0xAABBCCDD#32, some 0xBBCCDD11#32, some 0xCCDD2211#32, some 0xDD332211#32] := by decide
theorem test_swr_miss : after (exec (.swr 8 4 1) missStart) (fun t => (t.badVaddr, t.mem)) =
    some (0x00405003#32, []) := by decide

/-! ## ALU with an immediate (95 2.2) -/

theorem test_addi : after (exec (.addi 8 9 0xFFFF) base) (·.gpr 8) = some 0xFFFFFFFF#32 := by decide
theorem test_addi_overflow : refusal (exec (.addi 8 9 1) (withGprs [(9, 0x7FFFFFFF#32)])) = some .signedOverflow ∧
    refusal (exec (.addi 8 9 0xFFFF) (withGprs [(9, 0x80000000#32)])) = some .signedOverflow := by decide
theorem test_addiu : after (exec (.addiu 8 9 1) (withGprs [(9, 0x7FFFFFFF#32)])) (·.gpr 8) = some 0x80000000#32 := by decide
theorem test_slti : after (exec (.slti 8 9 0xFFFB) (withGprs [(9, 0xFFFFFFF0#32)])) (·.gpr 8) = some 1#32 ∧
    after (exec (.slti 8 9 0xFFFB) (withGprs [(9, 3#32)])) (·.gpr 8) = some 0#32 := by decide
theorem test_sltiu : after (exec (.sltiu 8 9 0xFFFF) (withGprs [(9, 3#32)])) (·.gpr 8) = some 1#32 ∧
    after (exec (.sltiu 8 9 0xFFFF) (withGprs [(9, 0xFFFFFFFF#32)])) (·.gpr 8) = some 0#32 := by decide
theorem test_andi : after (exec (.andi 8 9 0xFF00) (withGprs [(9, 0x12345678#32)])) (·.gpr 8) = some 0x00005600#32 := by
  decide
theorem test_ori : after (exec (.ori 8 0 0x8000) base) (·.gpr 8) = some 0x00008000#32 := by decide
theorem test_xori : after (exec (.xori 8 9 0xFFFF) (withGprs [(9, 0x12345678#32)])) (·.gpr 8) = some 0x1234A987#32 := by
  decide
theorem test_lui : after (exec (.lui 8 0x8000) (withGprs [(8, 0xFFFFFFFF#32)])) (·.gpr 8) = some 0x80000000#32 := by decide

/-! ## ALU with three operands (95 2.3) -/

/-- $t0 = -2, $t1 = 3. -/
def aluStart : State := withGprs [(8, 0xFFFFFFFE#32), (9, 3#32)]

theorem test_add : after (exec (.add 10 8 9) aluStart) (·.gpr 10) = some 1#32 := by decide
theorem test_add_overflow : refusal (exec (.add 10 8 9) (withGprs [(8, 0x7FFFFFFF#32), (9, 1#32)])) =
    some .signedOverflow := by decide
theorem test_addu : after (exec (.addu 10 8 9) (withGprs [(8, 0x7FFFFFFF#32), (9, 1#32)])) (·.gpr 10) =
    some 0x80000000#32 := by decide
theorem test_sub : after (exec (.sub 10 8 9) aluStart) (·.gpr 10) = some 0xFFFFFFFB#32 := by decide
theorem test_sub_overflow : refusal (exec (.sub 10 8 9) (withGprs [(8, 0x80000000#32), (9, 1#32)])) =
    some .signedOverflow := by decide
theorem test_subu : after (exec (.subu 10 8 9) (withGprs [(8, 0x80000000#32), (9, 1#32)])) (·.gpr 10) =
    some 0x7FFFFFFF#32 := by decide
theorem test_slt : after (exec (.slt 10 8 9) (withGprs [(8, 0x80000000#32), (9, 0x7FFFFFFF#32)])) (·.gpr 10) =
    some 1#32 := by decide
theorem test_sltu : after (exec (.sltu 10 8 9) (withGprs [(8, 0x80000000#32), (9, 0x7FFFFFFF#32)])) (·.gpr 10) =
    some 0#32 := by decide
theorem test_and : after (exec (.and 10 8 9) aluStart) (·.gpr 10) = some 2#32 := by decide
theorem test_or : after (exec (.or 10 8 9) aluStart) (·.gpr 10) = some 0xFFFFFFFF#32 := by decide
theorem test_xor : after (exec (.xor 10 8 9) aluStart) (·.gpr 10) = some 0xFFFFFFFD#32 := by decide
theorem test_nor : after (exec (.nor 10 8 9) (withGprs [(8, 0xF0F0F0F0#32), (9, 0x12345678#32)])) (·.gpr 10) =
    some 0x0D0B0907#32 := by decide
/-- 95 2.3: register 0 still reads 0. -/
theorem test_add_to_zero : after (exec (.add 0 8 9) (withGprs [(8, 1#32), (9, 2#32)])) (·.gpr 0) = some 0#32 := by decide

/-! ## Shifts (95 2.4) -/

/-- $t1 = 0xF0000001, $t0 = 36. -/
def shiftStart : State := withGprs [(9, 0xF0000001#32), (8, 36#32)]

theorem test_sll : after (exec (.sll 10 9 4) shiftStart) (·.gpr 10) = some 0x00000010#32 := by decide
theorem test_srl : after (exec (.srl 10 9 4) shiftStart) (·.gpr 10) = some 0x0F000000#32 := by decide
theorem test_sra : after (exec (.sra 10 9 4) shiftStart) (·.gpr 10) = some 0xFF000000#32 := by decide
theorem test_sllv : after (exec (.sllv 10 9 8) shiftStart) (·.gpr 10) = some 0x00000010#32 := by decide
theorem test_srlv : after (exec (.srlv 10 9 8) shiftStart) (·.gpr 10) = some 0x0F000000#32 := by decide
theorem test_srav : after (exec (.srav 10 9 8) shiftStart) (·.gpr 10) = some 0xFF000000#32 := by decide

/-! ## Multiply and divide (95 2.5) -/

/-- HI and LO. -/
def hiLo (s : State) : Word × Word := (s.hi, s.lo)

theorem test_mult : after (exec (.mult 8 9) aluStart) hiLo = some (0xFFFFFFFF#32, 0xFFFFFFFA#32) := by decide
theorem test_mult_edge : after (exec (.mult 8 9) (withGprs [(8, 0x80000000#32), (9, 0x80000000#32)])) hiLo =
    some (0x40000000#32, 0#32) := by decide
theorem test_multu : after (exec (.multu 8 9) aluStart) hiLo = some (0x00000002#32, 0xFFFFFFFA#32) := by decide
theorem test_div : after (exec (.div 8 9) (withGprs [(8, 0xFFFFFFF9#32), (9, 2#32)])) hiLo =
    some (0xFFFFFFFF#32, 0xFFFFFFFD#32) := by decide
theorem test_div_negative_divisor : after (exec (.div 8 9) (withGprs [(8, 7#32), (9, 0xFFFFFFFE#32)])) hiLo =
    some (1#32, 0xFFFFFFFD#32) := by decide
theorem test_divu : after (exec (.divu 8 9) (withGprs [(8, 0xFFFFFFF9#32), (9, 2#32)])) hiLo =
    some (1#32, 0x7FFFFFFC#32) := by decide
/-- A zero divisor ends in a next state, and no exception is taken. -/
theorem test_divu_by_zero : after (exec (.divu 8 9) (withGprs [(8, 5#32)])) (fun t => (t.pc, t.draws)) =
    some (0x80001004#32, 2) := by decide
/-- HI = 0x11111111, LO = 0x22222222, $t0 = 0xABCD0123. -/
def moveStart : State := (withGprs [(8, 0xABCD0123#32)]).setHiLo 0x11111111#32 0x22222222#32
theorem test_mfhi : after (exec (.mfhi 10) moveStart) (·.gpr 10) = some 0x11111111#32 := by decide
theorem test_mflo : after (exec (.mflo 10) moveStart) (·.gpr 10) = some 0x22222222#32 := by decide
theorem test_mthi : after (exec (.mthi 8) moveStart) hiLo = some (0xABCD0123#32, 0x22222222#32) := by decide
theorem test_mtlo : after (exec (.mtlo 8) moveStart) hiLo = some (0x11111111#32, 0xABCD0123#32) := by decide

/-! ## Jumps and branches (95 2.6) -/

theorem test_j : after (exec (.j 0x410) base) flow = some (0x80001004#32, 0x80001040#32, true) := by decide
theorem test_j_edge : refusal (exec (.j 0x10) { base with pc := 0x8FFFFFFC#32, npc := 0x90000000#32 }) =
    some .jumpRegionEdge := by decide
theorem test_jal : after (exec (.jal 0x800) base) (fun t => (t.gpr 31, flow t)) =
    some (0x80001008#32, 0x80001004#32, 0x80002000#32, true) := by decide
theorem test_jr : after (exec (.jr 31) (withGprs [(31, 0x8000100C#32)])) flow =
    some (0x80001004#32, 0x8000100C#32, true) := by decide
theorem test_jr_stops : refusal (exec (.jr 31) (withGprs [(31, 0x8000100E#32)])) =
      some (.misalignedJumpTarget 0x8000100E#32) ∧
    refusal (exec (.jr 31) { base with ds := true, npc := 0x80002000#32 }) = some .branchInDelaySlot := by decide
theorem test_jalr : after (exec (.jalr 31 25) (withGprs [(25, 0x80003000#32)])) (fun t => (t.gpr 31, flow t)) =
    some (0x80001008#32, 0x80001004#32, 0x80003000#32, true) := by decide
/-- `jalr $t9,$t9` jumps to the old value. -/
theorem test_jalr_same : after (exec (.jalr 25 25) (withGprs [(25, 0x80003000#32)])) (fun t => (t.gpr 25, t.npc)) =
    some (0x80001008#32, 0x80003000#32) := by decide
theorem test_beq : after (exec (.beq 8 9 3) (withGprs [(8, 5#32), (9, 5#32)])) flow =
      some (0x80001004#32, 0x80001010#32, true) ∧
    after (exec (.beq 8 9 3) (withGprs [(8, 5#32), (9, 6#32)])) flow = some (0x80001004#32, 0x80001008#32, true) := by decide
theorem test_beq_range : after (exec (.beq 0 0 0x7FFF) base) (·.npc) = some 0x80021000#32 ∧
    after (exec (.beq 0 0 0x8000) base) (·.npc) = some 0x7FFE1004#32 := by decide
theorem test_bne : after (exec (.bne 8 0 0xFFFD) { withGprs [(8, 1#32)] with pc := 0x80001010#32, npc := 0x80001014#32 })
    flow = some (0x80001014#32, 0x80001008#32, true) := by decide
theorem test_blez : after (exec (.blez 8 2) base) (·.npc) = some 0x8000100C#32 ∧
    after (exec (.blez 8 2) (withGprs [(8, 1#32)])) (·.npc) = some 0x80001008#32 := by decide
theorem test_bgtz : after (exec (.bgtz 8 0xFFFF) (withGprs [(8, 1#32)])) (·.npc) = some 0x80001000#32 ∧
    after (exec (.bgtz 8 0xFFFF) base) (·.npc) = some 0x80001008#32 := by decide
theorem test_bltz : after (exec (.bltz 8 4) (withGprs [(8, 0xFFFFFFFF#32)])) (·.npc) = some 0x80001014#32 ∧
    after (exec (.bltz 8 4) base) (·.npc) = some 0x80001008#32 := by decide
theorem test_bgez : after (exec (.bgez 8 4) base) (·.npc) = some 0x80001014#32 ∧
    after (exec (.bgez 8 4) (withGprs [(8, 0xFFFFFFFF#32)])) (·.npc) = some 0x80001008#32 := by decide
theorem test_bltzal : after (exec (.bltzal 8 4) (withGprs [(8, 0xFFFFFFFF#32)])) (fun t => (t.gpr 31, t.npc)) =
      some (0x80001008#32, 0x80001014#32) ∧
    after (exec (.bltzal 8 4) (withGprs [(8, 1#32)])) (fun t => (t.gpr 31, t.npc)) =
      some (0x80001008#32, 0x80001008#32) := by decide
theorem test_bgezal : after (exec (.bgezal 8 4) base) (fun t => (t.gpr 31, t.npc)) =
    some (0x80001008#32, 0x80001014#32) := by decide

/-! ## SYSCALL and BREAK (95 2.7) -/

theorem test_syscall : after (exec (.syscall 0x12345)
      { base with pc := 0x80001010#32, npc := 0x80001014#32, sr := { ieo := false, iep := false, iec := true } })
    (fun t => (t.epc, t.cause.word, t.sr.word, flow t)) =
    some (0x80001010#32, 0x00000020#32, 0x04#32, 0xBFC00180#32, 0xBFC00184#32, false) := by decide
theorem test_break : after (exec (.brk 7)
      { base with pc := 0x80001008#32, npc := 0x80001014#32, ds := true, sr := { ieo := false, iep := true, iec := true } })
    (fun t => (t.epc, t.cause.word, t.sr.word, flow t)) =
    some (0x80001004#32, 0x80000024#32, 0x14#32, 0xBFC00180#32, 0xBFC00184#32, false) := by decide

/-! ## Control instructions (95 2.8) -/

/-- All bits of $t0 set. -/
def onesStart : State := withGprs [(8, 0xFFFFFFFF#32)]

theorem test_mtc0 : after (exec (.mtc0 8 12) onesStart) (·.sr.word) = some 0x15#32 ∧
    after (exec (.mtc0 8 0) onesStart) (·.index) = some 63#6 ∧
    after (exec (.mtc0 8 2) onesStart) (·.entryLo.word) = some 0xFFFFF200#32 ∧
    after (exec (.mtc0 8 10) onesStart) (·.entryHi.word) = some 0xFFFFF000#32 := by decide
theorem test_mtc0_epc : refusal (exec (.mtc0 8 14) onesStart) = some (.readOnlyControlRegister 14) := by decide
theorem test_mfc0 : after (exec (.mfc0 26 13) { base with cause := { bd := true, excCode := 1#5 } }) (·.gpr 26) =
      some 0x80000004#32 ∧
    after (exec (.mfc0 27 14) { base with epc := 0x80001038#32 }) (·.gpr 27) = some 0x80001038#32 := by decide
theorem test_mfc0_undefined : refusal (exec (.mfc0 8 15) base) = some (.undefinedControlRegister 15) := by decide
/-- Index = 5, EntryHi = 0x00405000, EntryLo = 0x00123200. -/
def tlbStart : State :=
  { base with index := 5#6, entryHi := { vpn := 0x00405#20 }, entryLo := { pfn := 0x00123#20, v := true } }
/-- After TLBWI the page is mapped: logical 0x00405678 is physical 0x00123678. -/
theorem test_tlbwi : after (exec .tlbwi tlbStart) (·.lookup 0x00405678#32) = some (some 0x00123678#32) := by decide
/-- Index = 5, TLB[5] = VPN 0x00405, PFN 0x00123, V 1. -/
def tlbrStart : State := { base with index := 5#6, tlb := base.tlb.set 5 ⟨⟨0x00405#20⟩, ⟨0x00123#20, true⟩⟩ }
theorem test_tlbr : after (exec .tlbr tlbrStart)
    (fun t => (t.entryHi.word, t.entryLo.word)) = some (0x00405000#32, 0x00123200#32) := by decide
theorem test_rfe : after (exec .rfe { base with sr := { ieo := true, iep := true, iec := false } }) (·.sr.word) =
      some 0x15#32 ∧
    after (exec .rfe { base with sr := { ieo := true, iep := false, iec := true } }) (·.sr.word) = some 0x14#32 := by decide

/-! ## Steps: interrupt, reset, fetch (95 2.9) -/

/-- Interrupts enabled. -/
def enabled : Status := { ieo := false, iep := false, iec := true }
/-- `irq` = 1 at the next step. -/
def irqNow : List Input := [{ reset := false, irq := true }]

theorem test_interrupt : after (step { base with sr := enabled, inputs := irqNow })
    (fun t => (t.epc, t.cause.word, t.sr.word, flow t)) =
    some (0x80001000#32, 0#32, 0x04#32, 0xBFC00180#32, 0xBFC00184#32, false) := by decide
theorem test_interrupt_in_slot : after (step { base with
      pc := 0x8000100C#32, npc := 0x80001014#32, ds := true, sr := enabled, inputs := irqNow })
    (fun t => (t.epc, t.cause.word)) = some (0x80001008#32, 0x80000000#32) := by decide
theorem test_reset_step : after (step { base with
      sr := { ieo := true, iep := true, iec := true }, epc := 0x80001038#32, inputs := [{ reset := true, irq := true }] })
    (fun t => (t.sr.word, t.epc, flow t)) =
    some (0x14#32, 0x80001038#32, 0xBFC00000#32, 0xBFC00004#32, false) := by decide
theorem test_fetch_miss : after (step { base with pc := 0x00400000#32, npc := 0x00400004#32 })
    (fun t => (t.epc, t.badVaddr, t.cause.word, t.pc)) =
    some (0x00400000#32, 0x00400000#32, 4#32, 0xBFC00180#32) := by decide
/-- With IEc = 0 the request is ignored: `lui $t0,0x8000` runs. -/
theorem test_irq_masked : after (step (putWord { base with inputs := irqNow } 0x1000#32 0x3C088000#32)) (·.gpr 8) =
    some 0x80000000#32 := by decide
/-- R121: TLBP's word stops the step by name. -/
theorem test_reserved_step : refusal (step (putWord base 0x1000#32 0x42000008#32)) =
    some (.reservedEncoding 0x42000008#32) := by decide
/-- INT_PRIORITY instruction_first (D8): the SYSCALL at `pc` wins over the interrupt. -/
theorem test_instruction_first : after (step { putWord base 0x1000#32 0x0000000C#32 with
      sr := enabled, inputs := irqNow, params := { base.params with intPriority := .instructionFirst } })
    (·.cause.excCode) = some 8#5 := by decide
/-- R82: the fetch of that SYSCALL is noted under STRICT_CACHE, though an interrupt was pending; an interrupt that is
taken fetches nothing. -/
theorem test_instruction_first_notes_fetch : List.map (fun p => after (step { putWord base 0x1000#32 0x0000000C#32 with
      sr := enabled, inputs := irqNow, params := { base.params with intPriority := p, strictCache := true } })
    (·.fetched)) [.instructionFirst, .interruptFirst] = [some [(0x400, false)], some []] := by decide
/-- STRICT_CACHE (D11): a word fetched through kseg0 and stored to since is stale. -/
theorem test_stale_fetch : refusal (step { putWord base 0x1000#32 0#32 with
      fetched := [(0x400, true)], params := { base.params with strictCache := true } }) =
    some (.staleFetch 0x1000#32) := by decide
/-- The reset vector is physical 0x1FC00000 (W1), where `withFetchWord` puts the first instruction. -/
theorem test_withFetchWord : after (step (State.reset.withFetchWord 32 0x24080005)) (fun t => (t.gpr 8, t.pc)) =
    some (5#32, 0xBFC00004#32) := by decide
/-- W3: the interrupt-enable stack over two entries and two returns. -/
theorem test_stack_w3 : (fun sr : Status => (sr.push.push.word, sr.push.push.pop.word, sr.push.push.pop.pop.word)) enabled =
    (0x10#32, 0x14#32, 0x15#32) := by decide

/-! ## Witnesses: for each obligation with hypotheses, a state and operands that meet them all

One conjunct for each clause, at the boundaries of its range. -/

/-- A state with one field of its parameters changed. -/
def withParams (s : State) (f : Params → Params) : State := { s with params := f s.params }

/-- `base` with `lui $t0,0x8000` at `pc`. -/
def luiAt : State := putWord base 0x1000#32 0x3C088000#32
/-- The same under STRICT_CACHE. -/
def luiStrict : State := withParams luiAt fun p => { p with strictCache := true }

/-- `pc` is at a device address. -/
def deviceFetch : State :=
  withParams base fun p => { p with physMap := [{ first := 0#30, last := 0x3FFFFFFF#30, kind := .device }] }

theorem witness_EncodeInvertsDecode : decode 0x42000010#32 = .ok .rfe := by decide
/-- At each end of each unassigned range. -/
theorem witness_UnassignedNumbersSelectNothing :
    (List.map (fun w : Word => (w.extractLsb' 26 6).toNat) [0x44000000#32, 0x7C000000#32, 0x9C000000#32, 0xBC000000#32,
      0xFC000000#32] = [17, 31, 39, 47, 63]) ∧
    (List.map (fun w : Word => ((w.extractLsb' 26 6).toNat, (w.extractLsb' 0 6).toNat)) [1#32, 20#32, 31#32, 44#32, 63#32] =
      [(0, 1), (0, 20), (0, 31), (0, 44), (0, 63)]) ∧
    (List.map (fun w : Word => ((w.extractLsb' 26 6).toNat, (w.extractLsb' 16 5).toNat)) [0x04020000#32, 0x040F0000#32,
      0x04120000#32, 0x041F0000#32] = [(1, 2), (1, 15), (1, 18), (1, 31)]) ∧
    (List.map (fun w : Word => ((w.extractLsb' 26 6).toNat, (w.extractLsb' 21 5).toNat, (w.extractLsb' 0 6).toNat))
      [0x40200000#32, 0x43E00000#32, 0x42000008#32, 0x40000001#32, 0x4000003F#32, 0x40800001#32, 0x4080003F#32] =
      [(16, 1, 0), (16, 31, 0), (16, 16, 8), (16, 0, 1), (16, 0, 63), (16, 4, 1), (16, 4, 63)]) := by decide

theorem witness_StepRunsDecodedInstruction :
    (luiAt.quiet ∧ luiAt.lookup luiAt.pc = some 0x1000#32 ∧ isMemory luiAt 0x1000#32 ∧
      decode (luiAt.mem.byteAt 0x1003#32 ++ luiAt.mem.byteAt 0x1002#32 ++ luiAt.mem.byteAt 0x1001#32 ++
        luiAt.mem.byteAt 0x1000#32) = .ok (.lui 8 0x8000) ∧ luiAt.params.strictCache = false) ∧
    (luiStrict.quiet ∧ luiStrict.lookup luiStrict.pc = some 0x1000#32 ∧ isMemory luiStrict 0x1000#32) ∧
    (deviceFetch.quiet ∧ deviceFetch.lookup deviceFetch.pc = some 0x1000#32 ∧
      kindAt deviceFetch.params 0x1000#32 = some .device) := by decide
theorem witness_StepRunsDecodedInstruction_noted :
    noteFetch { luiAt with inputs := luiAt.inputs.tail } luiAt.pc 0x1000#32 = .ok luiAt ∧
    noteFetch { luiStrict with inputs := luiStrict.inputs.tail } luiStrict.pc 0x1000#32 =
      .ok { luiStrict with fetched := [(0x400, false)] } ∧
    noteFetch { deviceFetch with inputs := deviceFetch.inputs.tail } deviceFetch.pc 0x1000#32 = .ok deviceFetch :=
  ⟨rfl, rfl, rfl⟩

theorem witness_ResetStepClearsIecOnly :
    State.input { base with inputs := [{ reset := true, irq := true }] } = { reset := true, irq := true } := by decide

/-- An interrupt is pending, and the word `w` stands at `pc`. -/
def pendingAt (w : Word) (p : IntPriority) : State :=
  withParams { putWord base 0x1000#32 w with sr := enabled, inputs := irqNow } fun q => { q with intPriority := p }

theorem witness_InterruptTaken :
    (∀ p ∈ [IntPriority.interruptFirst, .instructionFirst, .both], (pendingAt 0#32 p).input = { reset := false, irq := true } ∧
      (pendingAt 0#32 p).sr.iec = true ∧ (pendingAt 0#32 p).params.intPriority = p) ∧
    pendingException (pendingAt 0#32 .instructionFirst).dropInput = none ∧
    pendingException ((pendingAt 0#32 .both).dropInput.drawn 1) = none := by decide
theorem witness_InterruptPriority :
    ((pendingAt 0xC#32 .instructionFirst).input = { reset := false, irq := true } ∧
      (pendingAt 0xC#32 .instructionFirst).sr.iec = true ∧
      pendingException (pendingAt 0xC#32 .instructionFirst).dropInput = some .syscall ∧
      (pendingAt 0xC#32 .instructionFirst).params.intPriority = .instructionFirst) ∧
    ((pendingAt 0xC#32 .both).input = { reset := false, irq := true } ∧ (pendingAt 0xC#32 .both).sr.iec = true ∧
      pendingException ((pendingAt 0xC#32 .both).dropInput.drawn 1) = some .syscall ∧
      (pendingAt 0xC#32 .both).params.intPriority = .both) := by decide
/-- With nothing before the instruction: SYSCALL, a fetch miss, and `lui`, which raises nothing. -/
theorem witness_InterruptPriority_quiet :
    ((putWord base 0x1000#32 0xC#32).quiet ∧ pendingException (putWord base 0x1000#32 0xC#32).dropInput = some .syscall) ∧
    (State.quiet { base with pc := 0xC0000000#32 } ∧
      pendingException (State.dropInput { base with pc := 0xC0000000#32 }) = some (.tlbMiss 0xC0000000#32)) ∧
    (luiAt.quiet ∧ pendingException luiAt.dropInput = none ∧ (after (step luiAt) (·.pc)).isSome = true) := by decide
theorem witness_InterruptMaskedByIec : base.sr.iec = false := by decide
theorem witness_FetchMissEntersException :
    State.quiet { base with pc := 0x7FFFFFFC#32 } ∧ State.lookup { base with pc := 0x7FFFFFFC#32 } 0x7FFFFFFC#32 = none ∧
    State.quiet { base with pc := 0xC0000000#32 } ∧ State.lookup { base with pc := 0xC0000000#32 } 0xC0000000#32 = none := by
  decide

/-- `base` with the word `w` at `pc`, under a policy for reserved words and a decoder. -/
def reservedAt (w : Word) (r : ReservedPolicy) (m : MustBeZeroPolicy) : State :=
  withParams (putWord base 0x1000#32 w) fun p => { p with reserved := r, mustBeZero := m }

/-- TLBP's word selects nothing, and ADD with shamt 1 selects ADD. -/
theorem witness_ReservedWordOutcome_words :
    decode 0x42000008#32 = .error .unassigned ∧ decode 0x01095060#32 = .error (.fieldNotZero (.add 10 8 9)) := by decide
/-- The fetch of `w` at the `pc` of `s` answers `w` and `s` itself, and nothing comes before it. -/
abbrev fetchesAt (s : State) (w : Word) : Prop := fetch s.dropInput = .ok (w, s) ∧ s.quiet
theorem witness_ReservedWordOutcome_unassigned : fetchesAt (reservedAt 0x42000008#32 .refuse .reserved) 0x42000008#32 ∧
    fetchesAt (reservedAt 0x42000008#32 (.trap 10#5) .reserved) 0x42000008#32 ∧
    fetchesAt (reservedAt 0x42000008#32 .nop .ignored) 0x42000008#32 := by decide
theorem witness_ReservedWordOutcome_fieldNotZero : fetchesAt (reservedAt 0x01095060#32 .refuse .reserved) 0x01095060#32 ∧
    fetchesAt (reservedAt 0x01095060#32 .refuse .ignored) 0x01095060#32 := by decide

/-- Physical word 0x1000 has gone stale; `pc` is in kseg0, or in kseg1. -/
def staleAt (pc : Word) : State :=
  withParams { putWord base 0x1000#32 0#32 with pc := pc, fetched := [(0x400, true)] } fun p => { p with strictCache := true }
theorem witness_StaleFetchRefused :
    (staleAt 0x80001000#32).quiet ∧ (staleAt 0x80001000#32).lookup 0x80001000#32 = some 0x1000#32 ∧
    (staleAt 0xA0001000#32).quiet ∧ (staleAt 0xA0001000#32).lookup 0xA0001000#32 = some 0x1000#32 ∧
    (staleAt 0xA0001000#32).params.strictCache = true ∧
    lookupKey (staleAt 0xA0001000#32).fetched ((0x1000#32).toNat / 4) = some true ∧
    (0x80001000#32).extractLsb' 29 3 ≠ 0b101#3 ∧ (0xA0001000#32).extractLsb' 29 3 = 0b101#3 := by decide

/-- A cached fetch that is not refused; and stores of a byte, at either end of the word, and of the whole word. -/
theorem witness_StaleFetchRefused_marks :
    (luiStrict.quiet ∧ luiStrict.lookup luiStrict.pc = some 0x1000#32 ∧ luiStrict.params.strictCache = true ∧
      luiStrict.pc.extractLsb' 29 3 ≠ 0b101#3 ∧ (after (step luiStrict) (·.pc)).isSome = true) ∧
    (State.lookup (staleAt 0x80001000#32) 0x80001000#32 = some 0x1000#32 ∧
      State.lookup (staleAt 0x80001000#32) 0x80001003#32 = some 0x1003#32 ∧ (0x1003#32).toNat / 4 = 0x400 ∧
      lookupKey (staleAt 0x80001000#32).fetched 0x400 ≠ none ∧ (0x80001000#32).toNat % 4 = 0) := by decide

theorem witness_NestedEntryAndReturn : { base with sr := enabled }.sr = { ieo := false, iep := false, iec := true } := by
  decide
theorem witness_ReturnSequenceResumes : (27#5 : Reg) ≠ 0#5 ∧ State.epc { base with epc := 0x80001038#32 } = 0x80001038#32 ∧
    (0x80001038#32).extractLsb' 0 2 = 0#2 := by decide

/-- $t0 = 2^31 - 1, $t1 = 0, $t2 = -1, $t3 = -2^31, $a0 = 1. -/
def edgeStart : State := withGprs [(8, 0x7FFFFFFF#32), (10, 0xFFFFFFFF#32), (11, 0x80000000#32), (4, 1#32)]

/-- Exact results at both ends of the range. -/
theorem witness_SignedArithmeticFits :
    (edgeStart.gpr 8).toInt + (edgeStart.gpr 9).toInt = 2147483647 ∧
    (edgeStart.gpr 9).toInt + (edgeStart.gpr 11).toInt = -2147483648 ∧
    (edgeStart.gpr 10).toInt - (edgeStart.gpr 11).toInt = 2147483647 ∧
    (edgeStart.gpr 11).toInt - (edgeStart.gpr 9).toInt = -2147483648 ∧
    (edgeStart.gpr 8).toInt + (0#16).toInt = 2147483647 ∧ (edgeStart.gpr 11).toInt + (0#16).toInt = -2147483648 := by decide
/-- One past either end, under each policy. -/
theorem witness_SignedOverflowOutcome :
    (edgeStart.gpr 8).toInt + (edgeStart.gpr 4).toInt = 2147483648 ∧
    (edgeStart.gpr 11).toInt - (edgeStart.gpr 4).toInt = -2147483649 ∧
    (edgeStart.gpr 11).toInt + (0xFFFF#16).toInt = -2147483649 ∧
    edgeStart.params.overflow = .refuse ∧
    (withParams edgeStart fun p => { p with overflow := .wrap }).params.overflow = .wrap ∧
    (withParams edgeStart fun p => { p with overflow := .trap 12#5 }).params.overflow = .trap 12#5 := by decide

/-- -2^31 / 1, 1 / -1 and -1 / -2^31 are determined. -/
theorem witness_DivideSigned :
    ((edgeStart.gpr 4).toInt ≠ 0 ∧ ¬ ((edgeStart.gpr 11).toInt = -2147483648 ∧ (edgeStart.gpr 4).toInt = -1)) ∧
    ((edgeStart.gpr 10).toInt ≠ 0 ∧ ¬ ((edgeStart.gpr 4).toInt = -2147483648 ∧ (edgeStart.gpr 10).toInt = -1)) ∧
    ((edgeStart.gpr 11).toInt ≠ 0 ∧ ¬ ((edgeStart.gpr 10).toInt = -2147483648 ∧ (edgeStart.gpr 11).toInt = -1)) := by decide
theorem witness_DivideUnsigned : edgeStart.gpr 4 ≠ 0#32 ∧ edgeStart.gpr 10 ≠ 0#32 := by decide
theorem witness_DivideUndeterminedCompletes : edgeStart.gpr 9 = 0#32 ∧ edgeStart.gpr 11 = 0x80000000#32 ∧
    edgeStart.gpr 10 = 0xFFFFFFFF#32 := by decide

/-- $a0 = `va`, and the platform has `kind` everywhere. -/
def accessAt (va : Word) (kind : PhysKind) : State :=
  withParams (withGprs [(4, va), (8, 0xAABBCCDD#32)])
    fun p => { p with physMap := [{ first := 0#30, last := 0x3FFFFFFF#30, kind := kind }] }
/-- The address operand of the witnesses: `0($a0)`. -/
def addrOf (s : State) : Word := s.gpr 4 + (0#16).signExtend 32

/-- The address operand translates to `pa`, where the platform has `kind`. -/
abbrev reaches (s : State) (pa : Word) (kind : PhysKind) : Prop :=
  s.lookup (addrOf s) = some pa ∧ kindAt s.params pa = some kind

/-- An odd address; a halfword and a word at the end of kseg0, in ROM. -/
theorem witness_AlignedLoads : reaches (accessAt 0x80002003#32 .ram) 0x2003#32 .ram ∧
    (reaches (accessAt 0x9FFFFFFE#32 .rom) 0x1FFFFFFE#32 .rom ∧ (addrOf (accessAt 0x9FFFFFFE#32 .rom)).toNat % 2 = 0) ∧
    (reaches (accessAt 0x9FFFFFFC#32 .rom) 0x1FFFFFFC#32 .rom ∧ (addrOf (accessAt 0x9FFFFFFC#32 .rom)).toNat % 4 = 0) := by
  decide
theorem witness_AlignedStores : reaches (accessAt 0x80002003#32 .ram) 0x2003#32 .ram ∧
    (reaches (accessAt 0x9FFFFFFE#32 .ram) 0x1FFFFFFE#32 .ram ∧ (addrOf (accessAt 0x9FFFFFFE#32 .ram)).toNat % 2 = 0) ∧
    (reaches (accessAt 0x9FFFFFFC#32 .ram) 0x1FFFFFFC#32 .ram ∧ (addrOf (accessAt 0x9FFFFFFC#32 .ram)).toNat % 4 = 0) := by
  decide
/-- All four offsets. -/
theorem witness_UnalignedLoads : reaches (accessAt 0x80002000#32 .rom) 0x2000#32 .rom ∧
    reaches (accessAt 0x80002001#32 .ram) 0x2001#32 .ram ∧ reaches (accessAt 0x80002002#32 .ram) 0x2002#32 .ram ∧
    reaches (accessAt 0x80002003#32 .ram) 0x2003#32 .ram := by decide
theorem witness_UnalignedStores : reaches (accessAt 0x80002000#32 .ram) 0x2000#32 .ram ∧
    reaches (accessAt 0x80002001#32 .ram) 0x2001#32 .ram ∧ reaches (accessAt 0x80002002#32 .ram) 0x2002#32 .ram ∧
    reaches (accessAt 0x80002003#32 .ram) 0x2003#32 .ram := by decide
theorem witness_DeviceLoadsComplete : reaches (accessAt 0xA0002003#32 .device) 0x2003#32 .device ∧
    (reaches (accessAt 0xA0002002#32 .device) 0x2002#32 .device ∧
      (addrOf (accessAt 0xA0002002#32 .device)).toNat % 2 = 0) ∧
    (reaches (accessAt 0xA0002000#32 .device) 0x2000#32 .device ∧
      (addrOf (accessAt 0xA0002000#32 .device)).toNat % 4 = 0) := by decide
theorem witness_DeviceAndRomStores : reaches (accessAt 0xA0002003#32 .device) 0x2003#32 .device ∧
    reaches (accessAt 0xA0002000#32 .device) 0x2000#32 .device ∧ reaches (accessAt 0xA0002003#32 .rom) 0x2003#32 .rom ∧
    reaches (accessAt 0xA0002000#32 .rom) 0x2000#32 .rom ∧ (addrOf (accessAt 0xA0002000#32 .rom)).toNat % 4 = 0 := by decide
theorem witness_MisalignedAccessOutcome : (addrOf (accessAt 0x80002001#32 .ram)).toNat % 2 ≠ 0 ∧
    (addrOf (accessAt 0x80002002#32 .ram)).toNat % 4 ≠ 0 ∧ (accessAt 0x80002002#32 .ram).params.align = .refuse ∧
    (withParams base fun p => { p with align := .trap 4#5 }).params.align = .trap 4#5 := by decide
/-- $a0 = `va` under force-align. -/
def forcedAt (va : Word) : State := withParams (accessAt va .ram) fun p => { p with align := .forceAlign }
theorem witness_ForcedAlignment : (forcedAt 0x80002003#32).params.align = .forceAlign ∧
    kindAt (forcedAt 0x80002003#32).params 0x2002#32 = some .ram ∧
    (addrOf (forcedAt 0x80002003#32)).toNat % 2 ≠ 0 ∧
    (forcedAt 0x80002003#32).lookup (addrOf (forcedAt 0x80002003#32) - 1#32) = some 0x2002#32 ∧
    (addrOf (forcedAt 0x80002003#32)).toNat % 4 = 3 ∧
    (forcedAt 0x80002003#32).lookup (addrOf (forcedAt 0x80002003#32) - 3#32) = some 0x2000#32 := by decide
/-- The last address of kuseg misses at the cleared address; and the other kinds of place. -/
theorem witness_ForcedAlignment_places :
    (forcedAt 0x7FFFFFFF#32).lookup (addrOf (forcedAt 0x7FFFFFFF#32) - 1#32) = none ∧
    (forcedAt 0x7FFFFFFF#32).lookup (addrOf (forcedAt 0x7FFFFFFF#32) - 3#32) = none ∧
    (∀ k ∈ [PhysKind.rom, .device], kindAt (accessAt 0x80002003#32 k).params 0x2002#32 = some k) ∧
    kindAt (withParams (forcedAt 0x80002003#32) fun p => { p with physMap := [] }).params 0x2002#32 = none := by decide
theorem witness_DataMissEntersException :
    (accessAt 0x7FFFFFFF#32 .ram).lookup (addrOf (accessAt 0x7FFFFFFF#32 .ram)) = none ∧
    ((accessAt 0x7FFFFFFE#32 .ram).lookup (addrOf (accessAt 0x7FFFFFFE#32 .ram)) = none ∧
      (addrOf (accessAt 0x7FFFFFFE#32 .ram)).toNat % 2 = 0) ∧
    ((accessAt 0xC0000000#32 .ram).lookup (addrOf (accessAt 0xC0000000#32 .ram)) = none ∧
      (addrOf (accessAt 0xC0000000#32 .ram)).toNat % 4 = 0) := by decide
/-- A platform with nothing in it. -/
def emptyAt (va : Word) : State := withParams (withGprs [(4, va)]) fun p => { p with physMap := [] }
theorem witness_UnpopulatedAddressFaults :
    ((emptyAt 0x80002003#32).lookup (addrOf (emptyAt 0x80002003#32)) = some 0x2003#32 ∧
      kindAt (emptyAt 0x80002003#32).params 0x2003#32 = none) ∧
    ((emptyAt 0x80002000#32).lookup (addrOf (emptyAt 0x80002000#32)) = some 0x2000#32 ∧
      kindAt (emptyAt 0x80002000#32).params 0x2000#32 = none ∧ (addrOf (emptyAt 0x80002000#32)).toNat % 4 = 0) ∧
    ((emptyAt 0#32).quiet ∧ (emptyAt 0#32).params.strictCache = false ∧
      (emptyAt 0#32).lookup (emptyAt 0#32).pc = some 0x1000#32 ∧ kindAt (emptyAt 0#32).params 0x1000#32 = none) := by decide
theorem witness_StoreThenLoadReturnsWord :
    (accessAt 0x80002000#32 .ram).lookup (addrOf (accessAt 0x80002000#32 .ram)) = some 0x2000#32 ∧
    kindAt (accessAt 0x80002000#32 .ram).params 0x2000#32 = some .ram ∧
    (addrOf (accessAt 0x80002000#32 .ram)).toNat % 4 = 0 ∧
    (∀ i ∈ [Instr.sb 8 4 0, .sh 8 4 0, .sw 8 4 0], after (exec i (accessAt 0x80002000#32 .ram))
      (fun t => t.gpr 4 + (3#16).signExtend 32 == addrOf (accessAt 0x80002000#32 .ram) + 3#32) = some true) := by decide

/-- $a0 = 0x00405FFE, two bytes before the end of a page; its page is at frame 0x00123, the next one at frame 0x00456. -/
def crossing : State :=
  { accessAt 0x00405FFE#32 .ram with
    tlb := (base.tlb.set 5 { hi := { vpn := 0x00405#20 }, lo := { pfn := 0x00123#20, v := true } }).set 6
      { hi := { vpn := 0x00406#20 }, lo := { pfn := 0x00456#20, v := true } } }
/-- Where the four bytes lie. -/
def crossingAt (k : Nat) : Word := if k < 2 then 0x00123FFE#32 + BitVec.ofNat 32 k else 0x00456000#32 + BitVec.ofNat 32 (k - 2)
theorem witness_UnalignedLoadPair : (8#5 : Reg) ≠ 0#5 ∧ (8#5 : Reg) ≠ 4#5 ∧
    ∀ k < 4, crossing.lookup (crossing.gpr 4 + BitVec.ofNat 32 k) = some (crossingAt k) ∧ isMemory crossing (crossingAt k) := by
  decide
theorem witness_UnalignedStorePair : ∀ k < 4, crossing.lookup (crossing.gpr 4 + BitVec.ofNat 32 k) = some (crossingAt k) ∧
    kindAt crossing.params (crossingAt k) = some .ram := by decide

/-- Both ends of the unmapped segments; a mapped page, an invalid entry, and an entry of another page. -/
theorem witness_Translation :
    ¬ ((0x80000000#32).toNat < 0x80000000 ∨ 0xC0000000 ≤ (0x80000000#32).toNat) ∧
    ¬ ((0xBFFFFFFF#32).toNat < 0x80000000 ∨ 0xC0000000 ≤ (0xBFFFFFFF#32).toNat) ∧
    ((crossing.tlbEntryFor 0x00405000#32).lo.v = true ∧
      (crossing.tlbEntryFor 0x00405000#32).hi.vpn.toNat = (0x00405000#32).toNat / 4096) ∧
    (crossing.tlbEntryFor 0x7FFFFFFF#32).lo.v = false ∧
    (crossing.tlbEntryFor 0xC0005000#32).hi.vpn.toNat ≠ (0xC0005000#32).toNat / 4096 := by decide
theorem witness_TlbwiWritesEntry : (0x00405678#32).toNat / 4096 = tlbStart.entryHi.vpn.toNat ∧
    (0x00405678#32).toNat / 4096 % 64 = tlbStart.index.toNat ∧ (0x00405678#32).toNat < 0x80000000 ∧
    tlbStart.entryLo.v = true ∧ State.entryLo { tlbStart with entryLo := { pfn := 0, v := false } } = { pfn := 0, v := false } := by
  decide

/-- The words next to the last of a region. -/
theorem witness_JumpsInRegion : base.ds = false ∧ base.pc.toNat % 0x10000000 ≠ 0xFFFFFFC ∧
    (0x8FFFFFF8#32).toNat % 0x10000000 ≠ 0xFFFFFFC ∧ (0x90000000#32).toNat % 0x10000000 ≠ 0xFFFFFFC := by decide
theorem witness_JumpsToRegister : base.ds = false ∧ ((withGprs [(31, 0xFFFFFFFC#32)]).gpr 31).toNat % 4 = 0 := by decide
theorem witness_Branches : base.ds = false := by decide
theorem witness_JumpAndBranchStops : State.ds { base with ds := true } = true ∧
    (State.ds { base with pc := 0x8FFFFFFC#32 } = false ∧ (0x8FFFFFFC#32).toNat % 0x10000000 = 0xFFFFFFC) ∧
    (base.ds = false ∧ ((withGprs [(31, 0x8000100D#32)]).gpr 31).toNat % 4 ≠ 0) := by decide
theorem witness_DelaySlotRunsBeforeTarget : base.npc = base.pc + 4#32 ∧ base.gpr 8 = base.gpr 9 ∧
    (∀ i ∈ [Instr.j 0x410, .jal 0x410, .jr 8, .jalr 31 8, .beq 8 9 3, .bne 8 9 3, .blez 8 3, .bgtz 8 3, .bltz 8 3, .bgez 8 3,
      .bltzal 8 3, .bgezal 8 3], after (exec i base) (·.ds) = some true) := by decide

/-- CREG_POLICY `writable`. -/
def writableStart : State := withParams onesStart fun p => { p with creg := .writable }
theorem witness_Mtc0ReadOnlyRegisters : onesStart.params.creg = .refuse ∧ writableStart.params.creg = .writable := by decide
/-- The numbers next to the registers' own. -/
theorem witness_UndefinedControlRegisterRefused : ∀ c ∈ [1#5, 3#5, 8#5, 11#5, 15#5, 31#5],
    c.toNat ∉ [0, 2, 9, 10, 12, 13, 14] := by decide

theorem witness_StepKeepsInvariant : luiAt.Inv ∧ (after (step luiAt) (·.pc)).isSome = true :=
  ⟨⟨by decide, by decide, fun _ => by decide, by decide, by decide⟩, by decide⟩
theorem witness_RegisterZeroDiscards :
    (accessAt 0x00400000#32 .ram).lookup (addrOf (accessAt 0x00400000#32 .ram)) = none ∧
    (∀ k ∈ [PhysKind.ram, .rom, .device], reaches (accessAt 0x80002000#32 k) 0x2000#32 k) ∧
    (addrOf (accessAt 0x80002000#32 .ram)).toNat % 4 = 0 ∧ kindAt (emptyAt 0x80002000#32).params 0x2000#32 = none ∧
    base.ds = false ∧ ((withGprs [(25, 0x80003000#32)]).gpr 25).toNat % 4 = 0 := by decide

/-- One step that executes an instruction changes what the four `Only…` statements speak of. -/
theorem witness_OnlyTlbwiWritesTlb : after (step (putWord tlbStart 0x1000#32 0x42000002#32)) (fun t => t.tlb[5].lo.v) =
    some true ∧ tlbStart.tlb[5].lo.v = false := by decide
theorem witness_OnlyMultiplyFamilyWritesHiLo : after (step (putWord onesStart 0x1000#32 0x01000013#32)) (·.lo) =
    some 0xFFFFFFFF#32 ∧ onesStart.lo = 0#32 := by decide
theorem witness_OnlyStoresWriteMemory :
    after (step (putWord (accessAt 0x80002000#32 .ram) 0x1000#32 0xAC880000#32)) (·.mem.length) = some 8 ∧
    (putWord (accessAt 0x80002000#32 .ram) 0x1000#32 0xAC880000#32).mem.length = 4 := by decide
theorem witness_OnlyMtc0AndRfeEnableInterrupts : after (step (putWord onesStart 0x1000#32 0x40886000#32)) (·.sr.iec) =
    some true ∧ onesStart.sr.iec = false := by decide
/-- Conditions of the undetermined bits: `0xFFFFFFFF` written to SR leaves three of them (D13). -/
theorem witness_Mtc0Writes : (onesStart.gpr 8).getLsbD 0 = true := by decide

end Sys2Proof.Machine.Slice0
end

section
/-! The statements about the state (spec 10_state): what a step keeps, which instructions alone may change a field, and
register 0 as a destination. The rules about the state's operations come first, then what an instruction and a step do
to the fields in question, and the statements last. -/

namespace Sys2Proof.Machine

/-! ## General registers -/

/-- A write to register 0 is no write at all (10_state R22). -/
@[simp] theorem State.setGpr_zero (s : State) (v : Word) : s.setGpr 0#5 v = s := by
  simp [State.setGpr]

/-! ## Word addresses -/

/-- The word after a word address is one. -/
theorem add_four_aligned {a : Word} (h : a.extractLsb' 0 2 = 0#2) : (a + 4#32).extractLsb' 0 2 = 0#2 := by
  rw [low_bits_zero_iff] at h ⊢
  rw [BitVec.toNat_add, BitVec.toNat_ofNat]
  omega

theorem exceptionVector_aligned : exceptionVector.extractLsb' 0 2 = 0#2 := by decide

theorem resetVector_aligned : resetVector.extractLsb' 0 2 = 0#2 := by decide

theorem alignedFor_half {a : Word} (h : a.toNat % 2 = 0) : alignedFor .half a = true := by
  have : a.extractLsb' 0 1 = 0#1 := by rw [← BitVec.toNat_inj, BitVec.extractLsb'_toNat]; simpa using h
  simp [alignedFor, this]

theorem alignedFor_word {a : Word} (h : a.toNat % 4 = 0) : alignedFor .word a = true := by
  simp [alignedFor, low_bits_zero_iff.2 h]

/-! ## Accesses by what stands at the address -/

theorem physRead_memory {s : State} {pa : Word} (sz : Size) (h : isMemory s pa) :
    physRead s pa sz = .ok (s.mem.value pa sz, s) := by
  rcases h with h | h <;> simp [physRead, h]

theorem physRead_device {s : State} {pa : Word} (sz : Size) (h : kindAt s.params pa = some .device) :
    physRead s pa sz = .ok (sz.truncate s.any32, s.drawn 1) := by
  simp [physRead, h]

theorem physRead_nothing {s : State} {pa : Word} (sz : Size) (h : kindAt s.params pa = none) :
    physRead s pa sz = .error (.fault (.unpopulatedPhysicalAddress pa)) := by
  simp [physRead, h]

/-- The aligned word that holds an address has that address's place on the physical map. -/
theorem kindAt_wordBase (p : Params) (pa : Word) : kindAt p (wordBase pa) = kindAt p pa := by
  have h : wordIndexOf (wordBase pa) = wordIndexOf pa := by
    have hm : (0xFFFFFFFC#32).extractLsb' 2 30 = BitVec.allOnes 30 := by decide
    rw [wordIndexOf, wordBase, BitVec.extractLsb'_and, hm, BitVec.and_allOnes, wordIndexOf]
  rw [kindAt, kindAt, h]

/-! ## What a store leaves alone -/

section StoredInto
variable {s t : State} {inside : Word → Prop}

theorem StoredInto.pc (h : StoredInto s t inside) : t.pc = s.pc := by rw [h.besides]
theorem StoredInto.npc (h : StoredInto s t inside) : t.npc = s.npc := by rw [h.besides]
theorem StoredInto.ds (h : StoredInto s t inside) : t.ds = s.ds := by rw [h.besides]
theorem StoredInto.regs (h : StoredInto s t inside) : t.regs = s.regs := by rw [h.besides]
theorem StoredInto.hi (h : StoredInto s t inside) : t.hi = s.hi := by rw [h.besides]
theorem StoredInto.lo (h : StoredInto s t inside) : t.lo = s.lo := by rw [h.besides]
theorem StoredInto.sr (h : StoredInto s t inside) : t.sr = s.sr := by rw [h.besides]
theorem StoredInto.tlb (h : StoredInto s t inside) : t.tlb = s.tlb := by rw [h.besides]

end StoredInto

/-! ## Control registers -/

/-- An MTC0 leaves the TLB, HI and LO alone, and SR where it does not name it. -/
theorem writeControl_frame {s t : State} {c : Reg} {v : Word} (h : writeControl s c v = .ok t) :
    t.tlb = s.tlb ∧ t.hi = s.hi ∧ t.lo = s.lo ∧ (c = 12#5 ∨ t.sr = s.sr) := by
  obtain ⟨-, rfl⟩ | ⟨-, rfl⟩ | ⟨-, rfl⟩ | ⟨rfl, rfl⟩ | ⟨-, ⟨-, rfl⟩ | ⟨-, rfl⟩ | ⟨-, rfl⟩⟩ := writeControl_eq_ok h <;>
    simp

/-! A number that names no register (10_state R37, D14). -/

theorem readControl_undefined {s : State} {c : Reg} (h : c.toNat ∉ [0, 2, 9, 10, 12, 13, 14]) :
    readControl s c = .error (.refuse (.undefinedControlRegister c)) := by
  cases hr : readControl s c with
  | error e => rw [readControl_eq_error hr]
  | ok r =>
    obtain ⟨rfl, -⟩ | ⟨-, ⟨rfl, -⟩ | ⟨rfl, -⟩ | ⟨rfl, -⟩ | ⟨rfl, -⟩ | ⟨rfl, -⟩ | ⟨rfl, -⟩⟩ := readControl_eq_ok hr <;>
      simp at h

theorem writeControl_undefined {s : State} {c : Reg} (v : Word) (h : c.toNat ∉ [0, 2, 9, 10, 12, 13, 14]) :
    writeControl s c v = .error (.refuse (.undefinedControlRegister c)) := by
  unfold writeControl
  split <;> simp_all

/-! ## Signed overflow -/

section Overflow
variable {p : Params} {x : Int}

theorem fitsSigned_of_overflow (h : x < -2147483648 ∨ 2147483647 < x) : fitsSigned x = false := by
  rw [fitsSigned, decide_eq_false_iff_not]
  omega

/-! A signed result outside the range is what OVERFLOW_POLICY says (D2). -/

theorem signedResult_refuse (h : x < -2147483648 ∨ 2147483647 < x) (hp : p.overflow = .refuse) :
    signedResult p x = .error (.refuse .signedOverflow) := by
  simp [signedResult, fitsSigned_of_overflow h, hp]

theorem signedResult_wrap (h : x < -2147483648 ∨ 2147483647 < x) (hp : p.overflow = .wrap) :
    signedResult p x = .ok (BitVec.ofInt 32 x) := by
  simp [signedResult, fitsSigned_of_overflow h, hp]

theorem signedResult_trap {c : ExcCode} (h : x < -2147483648 ∨ 2147483647 < x) (hp : p.overflow = .trap c) :
    signedResult p x = .error (.raise (.policyTrap c)) := by
  simp [signedResult, fitsSigned_of_overflow h, hp]

end Overflow

/-! ## The data predicates of the statements, for the updates they describe -/

/-- Draws and a new program counter change no data. -/
theorem sameData_of_pc (s : State) (n : Nat) (pc npc : Word) (ds : Bool) :
    SameData s { s.drawn n with pc := pc, npc := npc, ds := ds } n where
  gprs _ := rfl
  rest := ⟨rfl, rfl, ⟨rfl, rfl, rfl, rfl, rfl, rfl, rfl, rfl⟩, fun _ => rfl, ⟨rfl, rfl, rfl, rfl, rfl⟩⟩

/-- What an exception entry does, in the statements' terms (60_exceptions R258). -/
theorem entered_enterException (s : State) (e : Exc) :
    Entered s (s.enterException e) (e.code s.params) (e.badVaddr s.badVaddr) where
  epc := rfl
  bd := rfl
  excCode := rfl
  badVaddr := rfl
  ieo := rfl
  iep := rfl
  iec := rfl
  pc := rfl
  npc := rfl
  ds := rfl
  gprs _ := rfl
  hi := rfl
  lo := rfl
  index := rfl
  entryLo := rfl
  entryHi := rfl
  tlb := rfl
  memory _ := rfl
  model := ⟨rfl, rfl, rfl, rfl, rfl⟩

/-! ## What a step keeps or leaves to the instruction it executes -/

/-- What holds of a state keeps holding while no instruction executes: through the consumption of the signals, the notes
of the fetch and the draws, and through an exception entry, a reset and the advance of a no-op. -/
structure KeptOutsideExec (P : State → Prop) : Prop where
  begun : ∀ {s} (f : FetchLog) (n : Nat), P s → P (s.begun f n)
  entered : ∀ {s} (e : Exc), P s → P (s.enterException e)
  reset : ∀ {s}, P s → P s.resetStep
  advanced : ∀ {s}, P s → P s.advanceSeq

/-- A step keeps such a `P`, or it executed an instruction in a state where `P` holds. -/
theorem KeptOutsideExec.step {P : State → Prop} (k : KeptOutsideExec P) {s t : State} (hs : P s)
    (h : step s = .next t) : P t ∨ ∃ i u, beginStep s = .execute i u ∧ P u ∧ exec i u = .next t := by
  cases step_cases h with
  | reset ht => subst ht; exact .inl (k.reset (k.begun s.fetched 0 hs))
  | entered e f n ht => subst ht; exact .inl (k.entered e (k.begun f n hs))
  | nop f n ht => subst ht; exact .inl (k.advanced (k.begun f n hs))
  | executed i f n hb hx => exact .inr ⟨i, _, hb, k.begun f n hs, hx⟩

/-! ## The invariant -/

section Inv
variable {s t : State}

/-- An update that leaves the program counter, the slot of register 0 and the form of memory alone keeps the
invariant. -/
theorem State.Inv.of_same (h : s.Inv) (hpc : t.pc = s.pc) (hnpc : t.npc = s.npc) (hds : t.ds = s.ds)
    (hzero : t.regs[0] = s.regs[0]) (hmem : s.mem.wf = true → t.mem.wf = true) : t.Inv where
  pcAligned := hpc ▸ h.pcAligned
  npcAligned := hnpc ▸ h.npcAligned
  sequential := hpc ▸ hnpc ▸ hds ▸ h.sequential
  zeroSlot := hzero.trans h.zeroSlot
  memWf := hmem h.memWf

theorem State.Inv.drawn (h : s.Inv) (n : Nat) : (s.drawn n).Inv := h.of_same rfl rfl rfl rfl id

theorem State.Inv.begun (h : s.Inv) (f : FetchLog) (n : Nat) : (s.begun f n).Inv := h.of_same rfl rfl rfl rfl id

theorem State.Inv.setGpr (h : s.Inv) (r : Reg) (v : Word) : (s.setGpr r v).Inv :=
  h.of_same rfl rfl rfl (s.setGpr_zeroSlot r v) id

theorem State.Inv.setHiLo (h : s.Inv) (a b : Word) : (s.setHiLo a b).Inv := h.of_same rfl rfl rfl rfl id

theorem State.Inv.readTlb (h : s.Inv) : s.readTlb.Inv := h.of_same rfl rfl rfl rfl id

theorem State.Inv.writeTlb (h : s.Inv) : s.writeTlb.Inv := h.of_same rfl rfl rfl rfl id

theorem State.Inv.popStatus (h : s.Inv) : s.popStatus.Inv := h.of_same rfl rfl rfl rfl id

/-- A store keeps the invariant: of what the invariant speaks of it writes memory alone, and keeps its form. -/
theorem State.Inv.stored {inside : Word → Prop} (h : s.Inv) (ht : StoredInto s t inside) : t.Inv :=
  h.of_same ht.pc ht.npc ht.ds (by rw [ht.regs]) ht.wf

/-- MTC0 writes nothing that the invariant speaks of. -/
theorem State.Inv.writeControl {c : Reg} {v : Word} (h : s.Inv) (ht : writeControl s c v = .ok t) :
    t.Inv := by
  obtain ⟨-, rfl⟩ | ⟨-, rfl⟩ | ⟨-, rfl⟩ | ⟨-, rfl⟩ | ⟨-, ⟨-, rfl⟩ | ⟨-, rfl⟩ | ⟨-, rfl⟩⟩ := writeControl_eq_ok ht <;>
    exact h.of_same rfl rfl rfl rfl id

theorem State.Inv.advanceSeq (h : s.Inv) : s.advanceSeq.Inv :=
  ⟨h.npcAligned, add_four_aligned h.npcAligned, fun _ => rfl, h.zeroSlot, h.memWf⟩

/-- A jump or branch keeps the invariant where its target is a word address. -/
theorem State.Inv.advanceBranch (h : s.Inv) (c : Bool) {a : Word} (ha : a.extractLsb' 0 2 = 0#2) :
    (s.advanceBranch c a).Inv where
  pcAligned := h.npcAligned
  npcAligned := by
    cases c with
    | false => exact add_four_aligned h.npcAligned
    | true => exact ha
  sequential hds := by simp at hds
  zeroSlot := h.zeroSlot
  memWf := h.memWf

theorem State.Inv.enterException (h : s.Inv) (e : Exc) : (s.enterException e).Inv :=
  ⟨exceptionVector_aligned, add_four_aligned exceptionVector_aligned, fun _ => rfl, h.zeroSlot, h.memWf⟩

theorem State.Inv.resetStep (h : s.Inv) : s.resetStep.Inv :=
  ⟨resetVector_aligned, add_four_aligned resetVector_aligned, fun _ => rfl, h.zeroSlot, h.memWf⟩

end Inv

/-- Every instruction keeps the invariant. -/
theorem State.Inv.exec {i : Instr} {s t : State} (hs : s.Inv) (h : exec i s = .next t) : t.Inv := by
  cases exec_cases h with
  | entered e _ ht => subst ht; exact hs.enterException e
  | register rd v n ht => subst ht; exact ((hs.drawn n).setGpr rd v).advanceSeq
  | hiLo a b n _ ht => subst ht; exact ((hs.setHiLo a b).drawn n).advanceSeq
  | stored u _ hu ht => subst ht; exact (hs.stored hu).advanceSeq
  | jumped rd v c target ha _ ht => subst ht; exact (hs.setGpr rd v).advanceBranch c (ha hs.pcAligned)
  | control rt c v u _ hu ht => subst ht; exact (hs.writeControl hu).advanceSeq
  | tlbRead _ ht => subst ht; exact hs.readTlb.advanceSeq
  | tlbWrite _ ht => subst ht; exact hs.writeTlb.advanceSeq
  | popped _ ht => subst ht; exact hs.popStatus.advanceSeq

theorem State.Inv.keptOutsideExec : KeptOutsideExec State.Inv where
  begun f n h := h.begun f n
  entered e h := h.enterException e
  reset h := h.resetStep
  advanced h := h.advanceSeq

/-! ## What only some instructions write -/

/-- An instruction other than TLBWI leaves the TLB alone. -/
theorem exec_tlb {i : Instr} {s t : State} (h : exec i s = .next t) : i = .tlbwi ∨ t.tlb = s.tlb := by
  cases exec_cases h with
  | tlbWrite hi _ => exact .inl hi
  | stored u _ hu ht => subst ht; exact .inr hu.tlb
  | control _ _ _ u _ hu ht => subst ht; exact .inr (writeControl_frame hu).1
  | entered _ _ ht | register _ _ _ ht | hiLo _ _ _ _ ht | jumped _ _ _ _ _ _ ht | tlbRead _ ht | popped _ ht =>
    subst ht; exact .inr rfl

/-- An instruction outside the multiply and divide family leaves HI and LO alone. -/
theorem exec_hiLo {i : Instr} {s t : State} (h : exec i s = .next t) :
    writesHiLo i ∨ (t.hi = s.hi ∧ t.lo = s.lo) := by
  cases exec_cases h with
  | hiLo _ _ _ hi _ => exact .inl hi
  | stored u _ hu ht => subst ht; exact .inr ⟨hu.hi, hu.lo⟩
  | control _ _ _ u _ hu ht =>
    obtain ⟨-, hhi, hlo, -⟩ := writeControl_frame hu
    subst ht; exact .inr ⟨hhi, hlo⟩
  | entered _ _ ht | register _ _ _ ht | jumped _ _ _ _ _ _ ht | tlbRead _ ht | tlbWrite _ ht | popped _ ht =>
    subst ht; exact .inr ⟨rfl, rfl⟩

/-- An instruction other than RFE and MTC0 to SR clears IEc or leaves it alone. -/
theorem exec_iec {i : Instr} {s t : State} (h : exec i s = .next t) :
    (i = .rfe ∨ ∃ rt, i = .mtc0 rt 12) ∨ t.sr.iec = false ∨ t.sr.iec = s.sr.iec := by
  cases exec_cases h with
  | popped hi _ => exact .inl (.inl hi)
  | control rt c _ u hi hu ht =>
    obtain ⟨-, -, -, rfl | hsr⟩ := writeControl_frame hu
    · exact .inl (.inr ⟨rt, hi⟩)
    · subst ht; exact .inr (.inr (congrArg Status.iec hsr))
  | entered _ _ ht => subst ht; exact .inr (.inl rfl)
  | stored u _ hu ht => subst ht; exact .inr (.inr (congrArg Status.iec hu.sr))
  | register _ _ _ ht | hiLo _ _ _ _ ht | jumped _ _ _ _ _ _ ht | tlbRead _ ht | tlbWrite _ ht =>
    subst ht; exact .inr (.inr rfl)

/-! ## Register 0 as a destination -/

/-- `i` answers a next state in which nothing has changed but `n` draws and the program counter. -/
def CompletesUnchanged (i : Instr) (s : State) (n : Nat) : Prop :=
  ∃ t, exec i s = .next t ∧ SameData s t n ∧ Sequential s t

section RegisterZero
variable {i : Instr} {s : State}

theorem CompletesUnchanged.of_exec {n : Nat} (h : exec i s = .next (s.drawn n).advanceSeq) :
    CompletesUnchanged i s n :=
  ⟨_, h, sameData_of_pc s n .., rfl, rfl, rfl⟩

theorem CompletesUnchanged.of_writeResult {v : Word} (h : exec i s = writeResult 0#5 v s) :
    CompletesUnchanged i s 0 :=
  .of_exec (by rw [h, writeResult_eq, State.setGpr_zero]; rfl)

/-! ### ADD, SUB and ADDI -/

/-- What `i` does whose exact sum or difference `x` goes to register 0: nothing where it fits, else what OVERFLOW_POLICY
says. -/
def SumDiscarded (i : Instr) (s : State) (x : Int) : Prop :=
  (-2147483648 ≤ x ∧ x ≤ 2147483647 → CompletesUnchanged i s 0) ∧
  (x < -2147483648 ∨ 2147483647 < x →
    (s.params.overflow = .refuse → exec i s = .refused .signedOverflow) ∧
    (s.params.overflow = .wrap → CompletesUnchanged i s 0) ∧
    (∀ c, s.params.overflow = .trap c → ∃ t, exec i s = .next t ∧ Entered s t c s.badVaddr))

theorem SumDiscarded.of_writeChecked {x : Int} (h : exec i s = writeChecked 0#5 (signedResult s.params x) s) :
    SumDiscarded i s x := by
  have written {v : Word} (hv : signedResult s.params x = .ok v) : CompletesUnchanged i s 0 :=
    .of_writeResult (v := v) (by rw [h, hv]; rfl)
  refine ⟨fun hx => written (signedResult_of_fits hx), fun hx => ⟨fun hp => ?_, fun hp => ?_, fun c hp => ?_⟩⟩
  · rw [h, signedResult_refuse hx hp]; rfl
  · exact written (signedResult_wrap hx hp)
  · exact ⟨_, by rw [h, signedResult_trap hx hp]; rfl, entered_enterException s (.policyTrap c)⟩

/-! ### The loads -/

/-- What a load `i` of the address `addr` does whose destination is register 0: the miss, the draw at a device and the
stop where there is nothing are as ever, and else nothing changes. -/
def LoadDiscarded (i : Instr) (s : State) (addr : Word) : Prop :=
  (s.lookup addr = none → ∃ t, exec i s = .next t ∧ Entered s t 1#5 addr) ∧
  (∀ pa, s.lookup addr = some pa →
    (isMemory s pa → CompletesUnchanged i s 0) ∧ (kindAt s.params pa = some .device → CompletesUnchanged i s 1) ∧
    (kindAt s.params pa = none → ∃ q, exec i s = .fault (.unpopulatedPhysicalAddress q)))

/-- An access whose value is discarded: the state it leaves, advanced. -/
def settleAccess (s : State) (r : Except Stop (Word × State)) : StepOutcome := settle s (r.map (·.2.advanceSeq))

/-- An instruction that misses with the address, or discards what it reads where the address translates to, is such a
load. -/
theorem LoadDiscarded.of_access {addr : Word}
    (hmiss : s.lookup addr = none → exec i s = settleAccess s (.error (.raise (.tlbMiss addr))))
    (hread : ∀ pa, s.lookup addr = some pa →
      ∃ q sz, kindAt s.params q = kindAt s.params pa ∧ exec i s = settleAccess s (physRead s q sz)) :
    LoadDiscarded i s addr := by
  refine ⟨fun hl => ⟨_, hmiss hl, entered_enterException s (.tlbMiss addr)⟩, fun pa hl => ?_⟩
  obtain ⟨q, sz, hk, hx⟩ := hread pa hl
  rw [isMemory, ← hk]
  refine ⟨fun hm => ?_, fun hd => ?_, fun hn => ⟨q, ?_⟩⟩
  · exact .of_exec (by rw [hx, physRead_memory sz hm]; rfl)
  · exact .of_exec (by rw [hx, physRead_device sz hd]; rfl)
  · rw [hx, physRead_nothing sz hn]; rfl

theorem LoadDiscarded.of_loadInto {sz : Size} {f : Word → Word} {rs : Reg} {imm : BitVec 16}
    (h : exec i s = loadInto sz f 0#5 rs imm s) (ha : alignedFor sz (effectiveAddress s rs imm) = true) :
    LoadDiscarded i s (effectiveAddress s rs imm) := by
  have hx : exec i s = settleAccess s (memRead s (effectiveAddress s rs imm) sz) := by
    rw [h, loadInto, loadData, accessAddress_of_aligned ha]
    cases hr : memRead s (effectiveAddress s rs imm) sz <;> simp [settleAccess, Except.map, hr]
  refine .of_access (fun hl => ?_) (fun pa hl => ⟨pa, sz, rfl, ?_⟩)
  · rw [hx, memRead, translate_of_miss hl]
  · rw [hx, memRead, translate_of_lookup hl]

theorem LoadDiscarded.of_loadMerged {f : Nat → Word → Word → Word} {rs : Reg} {imm : BitVec 16}
    (h : exec i s = loadMerged f 0#5 rs imm s) : LoadDiscarded i s (effectiveAddress s rs imm) := by
  have hx : exec i s = settleAccess s (readWordAround s (effectiveAddress s rs imm)) := by
    rw [h, loadMerged]
    cases readWordAround s (effectiveAddress s rs imm) <;> simp [settleAccess, Except.map]
  refine .of_access (fun hl => ?_) (fun pa hl => ⟨wordBase pa, .word, kindAt_wordBase _ _, ?_⟩)
  · rw [hx, readWordAround, translate_of_miss hl]
  · rw [hx, readWordAround, translate_of_lookup hl]

/-! ### MFC0 and JALR -/

theorem exec_mfc0_zero {c : Reg} {v : Word} {n : Nat} (h : readControl s c = .ok (v, s.drawn n)) :
    CompletesUnchanged (.mfc0 0#5 c) s n :=
  .of_exec (by simp [exec, execMfc0, h])

theorem exec_jalr_zero {rs : Reg} (hds : s.ds = false) (ht : (s.gpr rs).toNat % 4 = 0) :
    exec (.jalr 0#5 rs) s = .next (s.advanceBranch true (s.gpr rs)) := by
  simp [exec, execJalr, jumpRegister, outsideDelaySlot, toWordTarget, hds, low_bits_zero_iff.2 ht]

end RegisterZero

/-! ## The statements -/

/-- Settles O52. -/
theorem undefinedControlRegisterRefused : Obligations.UndefinedControlRegisterRefused := by
  intro s rt c h
  constructor
  · simp [exec, execMfc0, readControl_undefined h]
  · simp [exec, execMtc0, writeControl_undefined _ h]

/-- Settles O53: the fields of `State.reset`, each read off its definition (R43). -/
theorem resetStatedValues : Obligations.ResetStatedValues :=
  ⟨rfl, by decide, rfl, rfl, State.gpr_zero _⟩

/-- Settles O54. -/
theorem resetMeetsInvariant : Obligations.ResetMeetsInvariant where
  pcAligned := resetVector_aligned
  npcAligned := add_four_aligned resetVector_aligned
  sequential _ := rfl
  zeroSlot := by decide
  memWf := Memory.wf_reset

/-- Settles O55: what runs outside an instruction keeps the invariant, and so does every instruction. -/
theorem stepKeepsInvariant : Obligations.StepKeepsInvariant := by
  intro s t hs h
  obtain ht | ⟨i, u, -, hu, hx⟩ := State.Inv.keptOutsideExec.step hs h
  · exact ht
  · exact hu.exec hx

/-- Settles O56: a write to register 0 is no write at all, so what is left of each instruction is its other effects. -/
theorem registerZeroDiscards : Obligations.RegisterZeroDiscards := by
  intro s rs rt imm n addr same sum loads
  refine ⟨s.gpr_zero, fun v r => by rw [s.setGpr_zero], ?_, ?_, ?_, ?_, ?_, ?_, ?_, ?_, ?_, ?_⟩
  · simp only [List.mem_cons, List.not_mem_nil, or_false, forall_eq_or_imp, forall_eq]
    and_intros <;> exact CompletesUnchanged.of_writeResult rfl
  · exact SumDiscarded.of_writeChecked rfl
  · exact SumDiscarded.of_writeChecked rfl
  · have hi : imm.toInt = (signExtend16 imm).toInt := (BitVec.toInt_signExtend_of_le (by decide)).symm
    rw [hi]
    exact SumDiscarded.of_writeChecked rfl
  · simp only [loads, List.mem_cons, List.not_mem_nil, or_false, forall_eq_or_imp, forall_eq]
    exact ⟨LoadDiscarded.of_loadInto rfl rfl, LoadDiscarded.of_loadInto rfl rfl, LoadDiscarded.of_loadMerged rfl,
      LoadDiscarded.of_loadMerged rfl⟩
  · intro h
    simp only [loads, List.mem_cons, List.not_mem_nil, or_false, forall_eq_or_imp, forall_eq]
    exact ⟨LoadDiscarded.of_loadInto rfl (alignedFor_half h), LoadDiscarded.of_loadInto rfl (alignedFor_half h)⟩
  · intro h
    simp only [loads, List.mem_cons, List.not_mem_nil, or_false, forall_eq]
    exact LoadDiscarded.of_loadInto rfl (alignedFor_word h)
  · exact exec_mfc0_zero rfl
  · simp only [List.mem_cons, List.not_mem_nil, or_false, forall_eq_or_imp, forall_eq]
    exact ⟨exec_mfc0_zero rfl, exec_mfc0_zero rfl, exec_mfc0_zero rfl, exec_mfc0_zero rfl, exec_mfc0_zero rfl,
      exec_mfc0_zero rfl⟩
  · intro hds ht
    exact ⟨_, exec_jalr_zero hds ht, sameData_of_pc s 0 .., rfl, rfl, rfl⟩

/-- Settles O57. -/
theorem onlyTlbwiWritesTlb : Obligations.OnlyTlbwiWritesTlb := by
  intro s t h hne
  have kept : KeptOutsideExec fun u => u.tlb = s.tlb := ⟨fun _ _ => id, fun _ => id, id, id⟩
  obtain ht | ⟨i, u, hb, hu, hx⟩ := kept.step rfl h
  · exact absurd ht hne
  · obtain rfl | ht := exec_tlb hx
    · exact ⟨u, hb⟩
    · exact absurd (ht.trans hu) hne

/-- Settles O58. -/
theorem onlyMultiplyFamilyWritesHiLo : Obligations.OnlyMultiplyFamilyWritesHiLo := by
  intro s t h hne
  have kept : KeptOutsideExec fun u => u.hi = s.hi ∧ u.lo = s.lo := ⟨fun _ _ => id, fun _ => id, id, id⟩
  have changed : ¬ (t.hi = s.hi ∧ t.lo = s.lo) := not_and_or.2 hne
  obtain ht | ⟨i, u, hb, ⟨huhi, hulo⟩, hx⟩ := kept.step ⟨rfl, rfl⟩ h
  · exact absurd ht changed
  · obtain hi | ⟨hthi, htlo⟩ := exec_hiLo hx
    · exact ⟨u, i, hb, hi⟩
    · exact absurd ⟨hthi.trans huhi, htlo.trans hulo⟩ changed

/-- Settles O60: an exception entry and a reset clear IEc, and no other instruction writes it. -/
theorem onlyMtc0AndRfeEnableInterrupts : Obligations.OnlyMtc0AndRfeEnableInterrupts := by
  intro s t h hs ht
  have kept : KeptOutsideExec fun u => u.sr.iec = false := ⟨fun _ _ => id, fun _ _ => rfl, fun _ => rfl, id⟩
  obtain ht' | ⟨i, u, hb, hu, hx⟩ := kept.step hs h
  · simp [ht] at ht'
  · obtain hi | hcleared | hsame := exec_iec hx
    · exact ⟨u, i, hb, hi⟩
    · simp [ht] at hcleared
    · simp [ht, hu] at hsame

end Sys2Proof.Machine
end

section
/-! Memory (spec 20_memory): words and bytes, translation by R68, what stands at a physical address, and what a load or
store does by what stands at its address. -/

namespace Sys2Proof.Machine

/-! ## Words -/

theorem extractLsb'_toNat_eq_div_mod (a : Word) (i n : Nat) : (a.extractLsb' i n).toNat = a.toNat / 2 ^ i % 2 ^ n := by
  rw [BitVec.extractLsb'_toNat, Nat.shiftRight_eq_div_pow]

theorem wordBase_toNat (a : Word) : (wordBase a).toNat = a.toNat / 4 * 4 := by
  have h : wordBase a = a >>> 2 <<< 2 := by rw [BitVec.shiftLeft_ushiftRight]; rfl
  have := a.isLt
  rw [h, BitVec.toNat_shiftLeft, BitVec.toNat_ushiftRight, Nat.shiftLeft_eq, Nat.shiftRight_eq_div_pow]
  omega

theorem wordBase_add_toNat (a : Word) {k : Nat} (hk : k < 4) :
    (wordBase a + BitVec.ofNat 32 k).toNat = a.toNat / 4 * 4 + k := by
  have := a.isLt
  rw [BitVec.toNat_add, wordBase_toNat, BitVec.toNat_ofNat]
  omega

theorem byteOffset_eq (addr : Word) : byteOffset addr = addr.toNat % 4 := by
  rw [byteOffset, extractLsb'_toNat_eq_div_mod]
  omega

/-! ## Translation -/

theorem inUnmappedSegment_iff (va : Word) :
    inUnmappedSegment va = true ↔ 0x80000000 ≤ va.toNat ∧ va.toNat < 0xC0000000 := by
  have := va.isLt
  rw [inUnmappedSegment, Bool.or_eq_true, beq_iff_eq, beq_iff_eq, ← BitVec.toNat_inj, ← BitVec.toNat_inj,
    extractLsb'_toNat_eq_div_mod]
  simp only [BitVec.toNat_ofNat]
  omega

theorem State.lookup_unmapped (s : State) {va : Word} (h : 0x80000000 ≤ va.toNat ∧ va.toNat < 0xC0000000) :
    s.lookup va = some (va &&& 0x1FFFFFFF#32) := by
  have hlow : (va.extractLsb' 0 29).setWidth 32 = va &&& 0x1FFFFFFF#32 := by
    apply BitVec.eq_of_toNat_eq
    have hmask : va.toNat &&& (0x1FFFFFFF#32).toNat = va.toNat % 2 ^ 29 := Nat.and_two_pow_sub_one_eq_mod va.toNat 29
    rw [BitVec.toNat_setWidth, extractLsb'_toNat_eq_div_mod, BitVec.toNat_and, hmask]
    omega
  rw [State.lookup, if_pos ((inUnmappedSegment_iff va).2 h), hlow]

/-- The entry that R68 examines, and what it decides. -/
theorem State.lookup_mapped (s : State) {va : Word} (h : va.toNat < 0x80000000 ∨ 0xC0000000 ≤ va.toNat) :
    s.lookup va =
      if (s.tlbEntryFor va).lo.v = true ∧ (s.tlbEntryFor va).hi.vpn.toNat = va.toNat / 4096 then
        some ((s.tlbEntryFor va).lo.pfn ++ va.extractLsb' 0 12)
      else none := by
  have hu : ¬ inUnmappedSegment va = true := by rw [inUnmappedSegment_iff]; omega
  have hpage : (va.extractLsb' 12 20).toNat = va.toNat / 4096 := by
    have := va.isLt
    rw [extractLsb'_toNat_eq_div_mod]; omega
  simp only [State.lookup, if_neg hu, Bool.and_eq_true, beq_iff_eq, ← BitVec.toNat_inj, hpage]

theorem State.tlbEntryFor_eq (s : State) (va : Word) :
    s.tlbEntryFor va = s.tlb[(va.toNat / 4096) % 64]'(Nat.mod_lt _ (by decide)) := by
  simp only [State.tlbEntryFor, extractLsb'_toNat_eq_div_mod]
  rfl

theorem append_low_toNat (f : BitVec 20) (va : Word) :
    (f ++ va.extractLsb' 0 12).toNat = f.toNat * 4096 + va.toNat % 4096 := by
  rw [BitVec.toNat_append, ← Nat.shiftLeft_add_eq_or_of_lt (BitVec.isLt _), Nat.shiftLeft_eq,
    extractLsb'_toNat_eq_div_mod]
  omega

/-- A page translates as a whole: every address of it into one frame, at the offset it has (20_memory R68, R70). -/
theorem State.lookup_page {s : State} {va pa : Word} (h : s.lookup va = some pa) :
    ∃ f : BitVec 20, ∀ va' : Word, va'.toNat / 4096 = va.toNat / 4096 →
      s.lookup va' = some (f ++ va'.extractLsb' 0 12) := by
  by_cases hm : va.toNat < 0x80000000 ∨ 0xC0000000 ≤ va.toNat
  · rw [s.lookup_mapped hm, s.tlbEntryFor_eq] at h
    split at h
    · next hc =>
      refine ⟨(s.tlb[va.toNat / 4096 % 64]'(Nat.mod_lt _ (by decide))).lo.pfn, fun va' hp => ?_⟩
      rw [s.lookup_mapped (by omega), s.tlbEntryFor_eq]
      simp only [hp, if_pos hc]
    · contradiction
  · refine ⟨BitVec.ofNat 20 (va.toNat / 4096 % 2 ^ 17), fun va' hp => ?_⟩
    have hu : inUnmappedSegment va' = true := (inUnmappedSegment_iff va').2 (by omega)
    rw [State.lookup, if_pos hu, Option.some_inj]
    apply BitVec.eq_of_toNat_eq
    rw [append_low_toNat, BitVec.toNat_setWidth, extractLsb'_toNat_eq_div_mod, BitVec.toNat_ofNat]
    omega

/-- Translation keeps the offset in the page. -/
theorem State.lookup_offset {s : State} {va pa : Word} (h : s.lookup va = some pa) :
    pa.toNat % 4096 = va.toNat % 4096 := by
  obtain ⟨f, hf⟩ := State.lookup_page h
  have hpa : pa = f ++ va.extractLsb' 0 12 := Option.some_inj.1 (h.symm.trans (hf va rfl))
  rw [hpa, append_low_toNat]
  omega

theorem State.lookup_add {s : State} {va pa : Word} (h : s.lookup va = some pa) {k : Nat}
    (hk : va.toNat % 4096 + k < 4096) : s.lookup (va + BitVec.ofNat 32 k) = some (pa + BitVec.ofNat 32 k) := by
  obtain ⟨f, hf⟩ := State.lookup_page h
  have hpa : pa = f ++ va.extractLsb' 0 12 := Option.some_inj.1 (h.symm.trans (hf va rfl))
  have := va.isLt
  have hva : (va + BitVec.ofNat 32 k).toNat = va.toNat + k := by
    rw [BitVec.toNat_add, BitVec.toNat_ofNat]; omega
  rw [hf _ (by omega), Option.some_inj, hpa]
  apply BitVec.eq_of_toNat_eq
  have := f.isLt
  rw [append_low_toNat, hva, BitVec.toNat_add, append_low_toNat, BitVec.toNat_ofNat]
  omega

/-! ## Words and bytes -/

/-- Only the word of an address counts on the physical map. -/
theorem kindAt_of_sameWord (p : Params) {a b : Word} (h : a.toNat / 4 = b.toNat / 4) : kindAt p a = kindAt p b := by
  have hi : wordIndexOf a = wordIndexOf b := BitVec.eq_of_toNat_eq (by rw [wordIndexOf_toNat, wordIndexOf_toNat, h])
  rw [kindAt, kindAt, hi]

/-- An address is aligned where it is a multiple of the width (20_memory R63). -/
theorem alignedFor_iff (sz : Size) (a : Word) : alignedFor sz a = true ↔ a.toNat % sz.bytes = 0 := by
  cases sz with
  | byte => simp [alignedFor, Size.bytes, Nat.mod_one]
  | half =>
    rw [alignedFor, beq_iff_eq, ← BitVec.toNat_inj, extractLsb'_toNat_eq_div_mod, Size.bytes, BitVec.toNat_ofNat]
    omega
  | word => rw [alignedFor, beq_iff_eq, low_bits_zero_iff, Size.bytes]

theorem alignedFor_eq_false {sz : Size} {a : Word} (h : a.toNat % sz.bytes ≠ 0) : alignedFor sz a = false :=
  Bool.eq_false_iff.2 fun ha => h ((alignedFor_iff sz a).1 ha)

theorem alignDown_half {a : Word} (h : a.toNat % 2 ≠ 0) : alignDown .half a = a - 1#32 := by
  have hd : alignDown .half a = a >>> 1 <<< 1 := by rw [BitVec.shiftLeft_ushiftRight]; rfl
  have := a.isLt
  apply BitVec.eq_of_toNat_eq
  rw [hd, BitVec.toNat_shiftLeft, BitVec.toNat_ushiftRight, Nat.shiftLeft_eq, Nat.shiftRight_eq_div_pow,
    BitVec.toNat_sub, BitVec.toNat_ofNat]
  omega

theorem alignDown_word (a : Word) : alignDown .word a = a - BitVec.ofNat 32 (a.toNat % 4) := by
  have := a.isLt
  apply BitVec.eq_of_toNat_eq
  rw [show alignDown .word a = wordBase a from rfl, wordBase_toNat, BitVec.toNat_sub, BitVec.toNat_ofNat]
  omega

theorem add_one_add_ofNat (a : Word) (k : Nat) :
    a + 1#32 + BitVec.ofNat 32 k = a + BitVec.ofNat 32 (k + 1) := by
  rw [BitVec.add_assoc, Nat.add_comm k 1, BitVec.ofNat_add]

/-- Each of the bytes written reads as it was written, as long as they do not wrap around the address space. -/
theorem Memory.byteAt_setBytes_inside (m : Memory) (pa : Word) (bytes : List Byte) (hlen : bytes.length ≤ 2 ^ 32)
    (k : Nat) (hk : k < bytes.length) : (m.setBytes pa bytes).byteAt (pa + BitVec.ofNat 32 k) = bytes[k] := by
  induction bytes generalizing m pa k with
  | nil => exact absurd hk (Nat.not_lt_zero k)
  | cons b rest ih =>
    rw [List.length_cons] at hlen hk
    cases k with
    | zero =>
      have hout : ∀ j < rest.length, pa ≠ pa + 1#32 + BitVec.ofNat 32 j := by
        intro j hj hq
        have := congrArg BitVec.toNat hq
        have := pa.isLt
        simp only [BitVec.toNat_add, BitVec.toNat_ofNat] at *
        omega
      rw [BitVec.add_zero, Memory.setBytes, Memory.byteAt_setBytes_outside _ _ _ _ hout,
        Memory.byteAt_setByte_self, List.getElem_cons_zero]
    | succ j =>
      rw [← add_one_add_ofNat, Memory.setBytes, ih _ _ (by omega) j (by omega), List.getElem_cons_succ]

theorem Size.split_getElem (sz : Size) (v : Word) (k : Nat) (hk : k < (sz.split v).length) :
    (sz.split v)[k] = byteOf v k := by
  cases sz with
  | byte =>
    obtain rfl : k = 0 := by simpa [Size.split] using hk
    rfl
  | half =>
    have : k < 2 := hk
    obtain rfl | rfl : k = 0 ∨ k = 1 := by omega
    all_goals rfl
  | word =>
    have : k < 4 := hk
    obtain rfl | rfl | rfl | rfl : k = 0 ∨ k = 1 ∨ k = 2 ∨ k = 3 := by omega
    all_goals rfl

/-! ## Physical writes by what stands at the address -/

theorem physWrite_ram {s : State} {pa : Word} (sz : Size) (v : Word) (h : kindAt s.params pa = some .ram) :
    physWrite s pa sz v = .ok { s with mem := s.mem.setBytes pa (sz.split v), fetched := s.fetchedAfterStore pa } := by
  simp [physWrite, h]

/-- The kind of a place that takes a store but keeps no byte of it: a device or ROM. -/
abbrev unstoredKind (dev : Bool) : PhysKind := if dev then .device else .rom

/-- A device puts the write out, ROM does nothing with it. -/
theorem physWrite_unstored {s : State} {pa : Word} {dev : Bool} (sz : Size) (v : Word)
    (h : kindAt s.params pa = some (unstoredKind dev)) :
    physWrite s pa sz v = .ok { s with
      outputs := (if dev then [DeviceWrite.mk pa sz (sz.truncate v)] else []) ++ s.outputs
      fetched := s.fetchedAfterStore pa } := by
  cases dev <;> rw [physWrite, h] <;> rfl

theorem physWrite_nothing {s : State} {pa : Word} (sz : Size) (v : Word) (h : kindAt s.params pa = none) :
    physWrite s pa sz v = .error (.fault (.unpopulatedPhysicalAddress pa)) := by
  simp [physWrite, h]

theorem physWriteBytes_nothing {s : State} {pa : Word} {bytes : List Byte} (hne : bytes ≠ [])
    (h : kindAt s.params pa = none) :
    physWriteBytes s pa bytes = .error (.fault (.unpopulatedPhysicalAddress pa)) := by
  cases bytes with
  | nil => exact absurd rfl hne
  | cons b rest => simp [physWriteBytes, physWrite_nothing _ _ h]

/-- Bytes written where none is kept: at a device each is put out, in ROM nothing happens. -/
theorem physWriteBytes_unstored {s : State} {pa : Word} {dev : Bool} (n : Nat) (g : Nat → Byte)
    (h : ∀ k < n, kindAt s.params (pa + BitVec.ofNat 32 k) = some (unstoredKind dev)) :
    ∃ t, physWriteBytes s pa ((List.range n).map g) = .ok t ∧ t.mem = s.mem ∧
      t.outputs = (if dev then
        ((List.range n).map fun k => DeviceWrite.mk (pa + BitVec.ofNat 32 k) .byte ((g k).setWidth 32)).reverse
        else []) ++ s.outputs := by
  induction n generalizing s pa g with
  | zero => exact ⟨s, rfl, rfl, by simp⟩
  | succ n ih =>
    have hfirst := physWrite_unstored (dev := dev) .byte ((g 0).setWidth 32) (by simpa using h 0 n.succ_pos)
    have hval : Size.byte.truncate ((g 0).setWidth 32) = (g 0).setWidth 32 := by simp [Size.truncate]
    obtain ⟨t, ht, hmem, hout⟩ := ih (s := { s with
        outputs := (if dev then [DeviceWrite.mk pa .byte ((g 0).setWidth 32)] else []) ++ s.outputs
        fetched := s.fetchedAfterStore pa }) (pa := pa + 1#32) (fun k => g (k + 1))
      (fun k hk => by rw [add_one_add_ofNat]; exact h (k + 1) (by omega))
    refine ⟨t, ?_, hmem, ?_⟩
    · rw [List.range_succ_eq_map, List.map_cons, List.map_map, physWriteBytes, hfirst, hval]
      exact ht
    · rw [hout]
      cases dev with
      | false => rfl
      | true => simp [List.range_succ_eq_map, add_one_add_ofNat, Function.comp_def]

/-! ## Aligned accesses -/

/-- The access of width `sz` at the effective address `addr` is made at the physical address `pa`: the alignment policy
lets it pass, and the address it gives translates (40_load_store R140). -/
def AccessesAt (s : State) (sz : Size) (addr pa : Word) : Prop :=
  ∃ a, accessAddress s.params sz addr = .ok a ∧ s.lookup a = some pa

theorem AccessesAt.of_aligned {s : State} {sz : Size} {addr pa : Word} (ha : alignedFor sz addr = true)
    (hl : s.lookup addr = some pa) : AccessesAt s sz addr pa :=
  ⟨addr, accessAddress_of_aligned ha, hl⟩

theorem accessAddress_forced {p : Params} {sz : Size} {addr : Word} (hp : p.align = .forceAlign)
    (ha : alignedFor sz addr = false) : accessAddress p sz addr = .ok (alignDown sz addr) := by
  simp [accessAddress, ha, hp]

section AlignedAccess
variable {s : State} {sz : Size} {addr pa : Word}

theorem AccessesAt.loadData (h : AccessesAt s sz addr pa) : loadData s addr sz = physRead s pa sz := by
  obtain ⟨a, ha, hl⟩ := h
  simp [Machine.loadData, memRead, ha, hl]

theorem AccessesAt.storeData (h : AccessesAt s sz addr pa) (v : Word) :
    storeData s addr sz v = physWrite s pa sz v := by
  obtain ⟨a, ha, hl⟩ := h
  simp [Machine.storeData, memWrite, ha, hl]

variable {rt rs : Reg} {imm : BitVec 16} {f : Word → Word}

theorem loadInto_of_read {t : State} {v : Word} (h : AccessesAt s sz (effectiveAddress s rs imm) pa)
    (hr : physRead s pa sz = .ok (v, t)) : loadInto sz f rt rs imm s = .next (t.setGpr rt (f v)).advanceSeq := by
  simp [loadInto, h.loadData, hr]

theorem storeFrom_of_write {t : State} (h : AccessesAt s sz (effectiveAddress s rs imm) pa)
    (hw : physWrite s pa sz (s.gpr rt) = .ok t) : storeFrom sz rt rs imm s = .next t.advanceSeq := by
  simp [storeFrom, h.storeData, hw]

theorem loadInto_nothing (h : AccessesAt s sz (effectiveAddress s rs imm) pa) (hk : kindAt s.params pa = none) :
    loadInto sz f rt rs imm s = .fault (.unpopulatedPhysicalAddress pa) := by
  simp [loadInto, h.loadData, physRead_nothing sz hk]

theorem storeFrom_nothing (h : AccessesAt s sz (effectiveAddress s rs imm) pa) (hk : kindAt s.params pa = none) :
    storeFrom sz rt rs imm s = .fault (.unpopulatedPhysicalAddress pa) := by
  simp [storeFrom, h.storeData, physWrite_nothing sz _ hk]

/-! Where the access ends before it is made: by the alignment policy, or by a miss of the address it gives. -/

theorem loadInto_of_misaligned {e : Stop} (h : accessAddress s.params sz (effectiveAddress s rs imm) = .error e) :
    loadInto sz f rt rs imm s = settle s (.error e) := by
  simp [loadInto, loadData, h]

theorem storeFrom_of_misaligned {e : Stop} (h : accessAddress s.params sz (effectiveAddress s rs imm) = .error e) :
    storeFrom sz rt rs imm s = settle s (.error e) := by
  simp [storeFrom, storeData, h]

theorem loadInto_of_miss {a : Word} (h : accessAddress s.params sz (effectiveAddress s rs imm) = .ok a)
    (hl : s.lookup a = none) : loadInto sz f rt rs imm s = .next (s.enterException (.tlbMiss a)) := by
  simp [loadInto, loadData, memRead, h, hl]

theorem storeFrom_of_miss {a : Word} (h : accessAddress s.params sz (effectiveAddress s rs imm) = .ok a)
    (hl : s.lookup a = none) : storeFrom sz rt rs imm s = .next (s.enterException (.tlbMiss a)) := by
  simp [storeFrom, storeData, memWrite, h, hl]

end AlignedAccess

/-! ## Accesses around an address -/

section AroundAccess
variable {s : State} {addr pa : Word}

theorem loadMerged_of_read {t : State} {w : Word} {f : Nat → Word → Word → Word} {rt rs : Reg} {imm : BitVec 16}
    (hl : s.lookup (effectiveAddress s rs imm) = some pa) (hr : physRead s (wordBase pa) .word = .ok (w, t)) :
    loadMerged f rt rs imm s =
      .next (t.setGpr rt (f (byteOffset (effectiveAddress s rs imm)) w (s.gpr rt))).advanceSeq := by
  simp [loadMerged, readWordAround, hl, hr]

theorem loadMerged_nothing {f : Nat → Word → Word → Word} {rt rs : Reg} {imm : BitVec 16}
    (hl : s.lookup (effectiveAddress s rs imm) = some pa) (hk : kindAt s.params pa = none) :
    loadMerged f rt rs imm s = .fault (.unpopulatedPhysicalAddress (wordBase pa)) := by
  simp [loadMerged, readWordAround, hl, physRead_nothing .word ((kindAt_wordBase _ pa).trans hk)]

theorem storeAround_of_write {t : State} {k : Nat} {bytes : List Byte} (hl : s.lookup addr = some pa)
    (hw : physWriteBytes s (wordBase pa + BitVec.ofNat 32 k) bytes = .ok t) :
    storeAround s addr k bytes = .next t.advanceSeq := by
  simp [storeAround, writeBytesAround, hl, hw]

/-- The bytes of the word around an address have its place on the physical map. -/
theorem kindAt_wordBase_add (p : Params) (pa : Word) {k : Nat} (hk : k < 4) :
    kindAt p (wordBase pa + BitVec.ofNat 32 k) = kindAt p pa :=
  kindAt_of_sameWord p (by rw [wordBase_add_toNat pa hk]; omega)

theorem storeAround_nothing {k : Nat} {bytes : List Byte} (hl : s.lookup addr = some pa)
    (hk : kindAt s.params pa = none) (hk4 : k < 4) (hne : bytes ≠ []) :
    storeAround s addr k bytes = .fault (.unpopulatedPhysicalAddress (wordBase pa + BitVec.ofNat 32 k)) := by
  simp [storeAround, writeBytesAround, hl, physWriteBytes_nothing hne ((kindAt_wordBase_add _ pa hk4).trans hk)]

end AroundAccess

/-! ## What loads and stores do, in the statements' terms -/

theorem onlyGpr_setGpr (s : State) (r : Reg) (v : Word) (n : Nat) :
    OnlyGpr s ((s.drawn n).setGpr r v).advanceSeq r v n where
  dest := State.gpr_setGpr_self _ r v
  others _ hq := State.gpr_setGpr_of_ne _ v hq
  rest := ⟨rfl, rfl, ⟨rfl, rfl, rfl, rfl, rfl, rfl, rfl, rfl⟩, fun _ => rfl, ⟨rfl, rfl, rfl, rfl, rfl⟩⟩

theorem StoredInto.sequential {s t : State} {inside : Word → Prop} (h : StoredInto s t inside) :
    Sequential s t.advanceSeq :=
  ⟨h.npc, congrArg (· + 4#32) h.npc, rfl⟩

theorem StoredInto.control {s t : State} {inside : Word → Prop} (h : StoredInto s t inside) :
    SameControl s t.advanceSeq := by
  rw [h.besides]
  exact ⟨rfl, rfl, rfl, rfl, rfl, rfl, rfl, rfl⟩

theorem StoredInto.gprs {s t : State} {inside : Word → Prop} (h : StoredInto s t inside) :
    SameGprs s t.advanceSeq := by
  rw [h.besides]
  exact fun _ => rfl

theorem StoredInto.inputs {s t : State} {inside : Word → Prop} (h : StoredInto s t inside) : t.inputs = s.inputs := by
  rw [h.besides]

theorem StoredInto.draws {s t : State} {inside : Word → Prop} (h : StoredInto s t inside) : t.draws = s.draws := by
  rw [h.besides]

theorem StoredInto.params {s t : State} {inside : Word → Prop} (h : StoredInto s t inside) : t.params = s.params := by
  rw [h.besides]

/-- The fetch log alone decides what a store has noted, and of the address its word. -/
theorem StoreNoted.congr {s t u : State} {pa qa : Word} (h : StoreNoted s t pa) (hu : u.fetched = t.fetched)
    (hw : qa.toNat / 4 = pa.toNat / 4) : StoreNoted s u qa where
  strict hs k := by rw [hu, hw]; exact h.strict hs k
  coherent hs := hu.trans (h.coherent hs)

/-- Bytes written around an address are noted at its word. -/
theorem StoreNoted.of_writeAround {s t : State} {pa : Word} {k : Nat} {bytes : List Byte} (hne : bytes ≠ [])
    (hlen : k + bytes.length ≤ 4) (h : physWriteBytes s (wordBase pa + BitVec.ofNat 32 k) bytes = .ok t) :
    StoreNoted s t pa := by
  have hpos : 0 < bytes.length := List.length_pos_iff.2 hne
  have hbase := wordBase_add_toNat pa (k := k) (by omega)
  exact (StoreNoted.of_physWriteBytes hne (by omega) h).congr rfl (by omega)

/-- A write to RAM, and the advance after it. -/
theorem onlyBytes_of_physWrite {s t : State} {pa v : Word} {sz : Size} (hk : kindAt s.params pa = some .ram)
    (h : physWrite s pa sz v = .ok t) : OnlyBytes s t.advanceSeq pa (sz.split v) := by
  have hs := physWrite_stored h
  rw [physWrite_ram sz v hk, Except.ok.injEq] at h
  refine ⟨fun k hlen => ?_, fun a ha => hs.outside a ?_, hs.gprs, hs.hi, hs.lo, hs.control, hs.inputs, ?_, hs.draws,
    ?_, hs.params⟩
  · subst h
    have hsz : (sz.split v).length ≤ 2 ^ 32 := by rw [Size.split_length]; cases sz <;> decide
    exact Memory.byteAt_setBytes_inside _ _ _ hsz k hlen
  · rwa [← Size.split_length sz v]
  · subst h; rfl
  · exact .of_fetchedAfterStore (by subst h; rfl)

/-- A store that leaves memory alone, and the advance after it. -/
theorem StoredInto.onlyOutputs {s t : State} {inside : Word → Prop} {pa : Word} {writes : List DeviceWrite}
    (h : StoredInto s t inside) (hm : t.mem = s.mem) (ho : t.outputs = writes ++ s.outputs)
    (hn : StoreNoted s t pa) : OnlyOutputs s t.advanceSeq pa writes :=
  ⟨ho, fun a => congrArg (Memory.byteAt · a) hm, h.gprs, h.hi, h.lo, h.control, h.inputs, h.draws,
    hn.congr rfl rfl, h.params⟩

/-- `i` goes on to the next instruction, with `v` in `rt` and all else as before. -/
def LoadsValue (i : Instr) (s : State) (rt : Reg) (v : Word) : Prop :=
  ∃ t, exec i s = .next t ∧ OnlyGpr s t rt v 0 ∧ Sequential s t

/-- `i` goes on to the next instruction after one draw, with in `rt` a value of which only `shape` is known. -/
def LoadsFreeValue (i : Instr) (s : State) (rt : Reg) (shape : Word → Prop) : Prop :=
  ∃ t v, exec i s = .next t ∧ shape v ∧ OnlyGpr s t rt v 1 ∧ Sequential s t

/-- `i` goes on to the next instruction, with `bytes` in memory from `pa` on. -/
def StoresBytes (i : Instr) (s : State) (pa : Word) (bytes : List Byte) : Prop :=
  ∃ t, exec i s = .next t ∧ OnlyBytes s t pa bytes ∧ Sequential s t

/-- `i` goes on to the next instruction, with `writes` put out for a store at `pa`. -/
def PutsOut (i : Instr) (s : State) (pa : Word) (writes : List DeviceWrite) : Prop :=
  ∃ t, exec i s = .next t ∧ OnlyOutputs s t pa writes ∧ Sequential s t

section Forms
variable {i : Instr} {s : State} {sz : Size} {rt rs : Reg} {imm : BitVec 16} {pa : Word} {f : Word → Word}

theorem LoadsValue.of_loadInto (hi : exec i s = loadInto sz f rt rs imm s)
    (ha : AccessesAt s sz (effectiveAddress s rs imm) pa) (hk : isMemory s pa) :
    LoadsValue i s rt (f (s.mem.value pa sz)) :=
  ⟨_, hi.trans (loadInto_of_read ha (physRead_memory sz hk)), onlyGpr_setGpr s rt _ 0, rfl, rfl, rfl⟩

theorem LoadsFreeValue.of_loadInto {shape : Word → Prop} (hi : exec i s = loadInto sz f rt rs imm s)
    (ha : AccessesAt s sz (effectiveAddress s rs imm) pa) (hk : kindAt s.params pa = some .device)
    (hshape : ∀ x, shape (f (sz.truncate x))) : LoadsFreeValue i s rt shape :=
  ⟨_, _, hi.trans (loadInto_of_read ha (physRead_device sz hk)), hshape _, onlyGpr_setGpr s rt _ 1, rfl, rfl, rfl⟩

theorem LoadsFreeValue.of_loadMerged {shape : Word → Prop} {merge : Nat → Word → Word → Word}
    (hi : exec i s = loadMerged merge rt rs imm s) (hl : s.lookup (effectiveAddress s rs imm) = some pa)
    (hk : kindAt s.params pa = some .device)
    (hshape : ∀ w, shape (merge ((effectiveAddress s rs imm).toNat % 4) w (s.gpr rt))) :
    LoadsFreeValue i s rt shape := by
  have hx := loadMerged_of_read (f := merge) (rt := rt) hl
    (physRead_device .word ((kindAt_wordBase _ pa).trans hk))
  rw [byteOffset_eq] at hx
  exact ⟨_, _, hi.trans hx, hshape _, onlyGpr_setGpr s rt _ 1, rfl, rfl, rfl⟩

theorem StoresBytes.of_storeFrom (hi : exec i s = storeFrom sz rt rs imm s)
    (ha : AccessesAt s sz (effectiveAddress s rs imm) pa) (hk : kindAt s.params pa = some .ram) :
    StoresBytes i s pa (sz.split (s.gpr rt)) :=
  have hw := physWrite_ram sz (s.gpr rt) hk
  ⟨_, hi.trans (storeFrom_of_write ha hw), onlyBytes_of_physWrite hk hw, (physWrite_stored hw).sequential⟩

theorem PutsOut.of_storeFrom {dev : Bool} (hi : exec i s = storeFrom sz rt rs imm s)
    (ha : AccessesAt s sz (effectiveAddress s rs imm) pa) (hk : kindAt s.params pa = some (unstoredKind dev)) :
    PutsOut i s pa (if dev then [DeviceWrite.mk pa sz (sz.truncate (s.gpr rt))] else []) :=
  have hw := physWrite_unstored sz (s.gpr rt) hk
  have hs := physWrite_stored hw
  ⟨_, hi.trans (storeFrom_of_write ha hw), hs.onlyOutputs rfl rfl (.of_fetchedAfterStore rfl), hs.sequential⟩

theorem PutsOut.of_storeAround {addr : Word} {k n : Nat} {g : Nat → Byte} {dev : Bool}
    (hi : exec i s = storeAround s addr k ((List.range n).map g)) (hl : s.lookup addr = some pa)
    (hk : kindAt s.params pa = some (unstoredKind dev)) (hn : 0 < n) (hkn : k + n ≤ 4) :
    PutsOut i s pa (if dev then
      ((List.range n).map fun j =>
        DeviceWrite.mk (wordBase pa + BitVec.ofNat 32 (k + j)) .byte ((g j).setWidth 32)).reverse else []) := by
  have hplace (j : Nat) :
      wordBase pa + BitVec.ofNat 32 k + BitVec.ofNat 32 j = wordBase pa + BitVec.ofNat 32 (k + j) := by
    rw [BitVec.add_assoc, BitVec.ofNat_add]
  obtain ⟨t, hw, hmem, hout⟩ := physWriteBytes_unstored (s := s) (pa := wordBase pa + BitVec.ofNat 32 k) n g
    (fun j hj => by rw [hplace, kindAt_wordBase_add _ _ (by omega)]; exact hk)
  simp only [hplace] at hout
  have hs := physWriteBytes_stored hw
  have hne : (List.range n).map g ≠ [] := by simp [Nat.ne_of_gt hn]
  have hnoted := StoreNoted.of_writeAround hne (by simpa using hkn) hw
  exact ⟨_, hi.trans (storeAround_of_write hl hw), hs.onlyOutputs hmem hout hnoted, hs.sequential⟩

/-- A load, by what stands at its address: its value from memory, and what is known of a device's. -/
theorem loadInto_by_kind {v : Word} {shape : Word → Prop} (hi : exec i s = loadInto sz f rt rs imm s)
    (ha : AccessesAt s sz (effectiveAddress s rs imm) pa) (hv : f (s.mem.value pa sz) = v)
    (hshape : ∀ x, shape (f (sz.truncate x))) :
    (isMemory s pa → LoadsValue i s rt v) ∧ (kindAt s.params pa = some .device → LoadsFreeValue i s rt shape) :=
  ⟨fun hk => hv ▸ .of_loadInto hi ha hk, fun hk => .of_loadInto hi ha hk hshape⟩

/-- A store, by what stands at its address: the bytes in RAM, nothing in ROM, the write that a device is given. -/
theorem storeFrom_by_kind {x : Word} (hi : exec i s = storeFrom sz rt rs imm s)
    (ha : AccessesAt s sz (effectiveAddress s rs imm) pa) (hx : sz.truncate (s.gpr rt) = x) :
    (kindAt s.params pa = some .ram → StoresBytes i s pa (sz.split (s.gpr rt))) ∧
    (kindAt s.params pa = some .rom → PutsOut i s pa []) ∧
    (kindAt s.params pa = some .device → PutsOut i s pa [DeviceWrite.mk pa sz x]) :=
  ⟨fun hk => .of_storeFrom hi ha hk, fun hk => .of_storeFrom (dev := false) hi ha hk,
    fun hk => hx ▸ .of_storeFrom (dev := true) hi ha hk⟩

/-! A miss of the address that the alignment policy gives. -/

theorem enters_of_loadInto {a : Word} (hi : exec i s = loadInto sz f rt rs imm s)
    (ha : accessAddress s.params sz (effectiveAddress s rs imm) = .ok a) (hl : s.lookup a = none) :
    ∃ t, exec i s = .next t ∧ Entered s t 1#5 a :=
  ⟨_, hi.trans (loadInto_of_miss ha hl), entered_enterException s (.tlbMiss a)⟩

theorem enters_of_storeFrom {a : Word} (hi : exec i s = storeFrom sz rt rs imm s)
    (ha : accessAddress s.params sz (effectiveAddress s rs imm) = .ok a) (hl : s.lookup a = none) :
    ∃ t, exec i s = .next t ∧ Entered s t 1#5 a :=
  ⟨_, hi.trans (storeFrom_of_miss ha hl), entered_enterException s (.tlbMiss a)⟩

end Forms

/-! ## The fetch -/

theorem beginStep_of_quiet {s : State} (h : s.quiet) : beginStep s = beginInstruction s.dropInput := by
  obtain ⟨hr, hi⟩ := h
  simp [beginStep, hr, hi]

/-- A fetch at an address that translates: the note, then the read. -/
theorem fetch_of_lookup {s : State} {pa : Word} (hl : s.lookup s.pc = some pa) :
    fetch s = (noteFetch s s.pc pa).bind fun t => physRead t pa .word := by
  rw [fetch, translate_of_lookup hl]
  cases h : noteFetch s s.pc pa <;> simp [h, Except.bind]

/-- A step whose fetch stops ends there. -/
theorem step_of_fetch_error {s : State} {e : Stop} (hq : s.quiet) (hf : fetch s.dropInput = .error e) :
    step s = settle s.dropInput (.error e) := by
  simp [step, beginStep_of_quiet hq, beginInstruction, hf]

/-! ## The values loaded and stored -/

theorem Size.truncate_byte (x : Word) : Size.byte.truncate x = (x.extractLsb' 0 8).setWidth 32 := by
  rw [Size.truncate, BitVec.setWidth_eq_extractLsb' (by decide : 8 ≤ 32)]

theorem Size.truncate_half (x : Word) : Size.half.truncate x = (x.extractLsb' 0 16).setWidth 32 := by
  rw [Size.truncate, BitVec.setWidth_eq_extractLsb' (by decide : 16 ≤ 32)]

theorem signExtendByte_setWidth (b : Byte) : signExtendByte (b.setWidth 32) = b.signExtend 32 := by
  simp [signExtendByte]

theorem signExtendHalf_setWidth (h : Half) : signExtendHalf (h.setWidth 32) = h.signExtend 32 := by
  simp [signExtendHalf]

/-- The low bits of a sign extension are what was extended. -/
theorem extractLsb'_signExtend {n : Nat} (x : BitVec n) (h : n ≤ 32) : (x.signExtend 32).extractLsb' 0 n = x := by
  apply BitVec.eq_of_getLsbD_eq
  intro i hi
  rw [BitVec.getLsbD_extractLsb', Nat.zero_add, BitVec.getLsbD_signExtend, if_pos hi]
  simp [hi, Nat.lt_of_lt_of_le hi h]

theorem toNat_zero_append {n k : Nat} (x : BitVec k) : (0#n ++ x).toNat = x.toNat := by
  rw [BitVec.toNat_append, BitVec.toNat_ofNat, Nat.zero_mod, Nat.zero_shiftLeft, Nat.zero_or]

theorem wordOfBytes_byte (b : Byte) : wordOfBytes b 0#8 0#8 0#8 = b.setWidth 32 := by
  apply BitVec.eq_of_toNat_eq
  rw [BitVec.toNat_setWidth_of_le (by decide)]
  exact toNat_zero_append (n := 24) b

theorem wordOfBytes_half (b c : Byte) : wordOfBytes b c 0#8 0#8 = (c ++ b).setWidth 32 := by
  apply BitVec.eq_of_toNat_eq
  rw [BitVec.toNat_setWidth_of_le (by decide), wordOfBytes, BitVec.toNat_append, BitVec.toNat_append c b]
  exact congrArg (· <<< 8 ||| b.toNat) (toNat_zero_append (n := 16) c)

/-- LWL keeps the bytes of the register below those it loads (R149). -/
theorem mergeLeft_low {b k : Nat} (w old : Word) (hk : k < 24 - 8 * b) :
    (mergeLeft b w old).getLsbD k = old.getLsbD k := by
  have hn : k < 8 * (3 - b) := by omega
  have h32 : k < 32 := by omega
  simp only [mergeLeft, BitVec.getLsbD_or, BitVec.getLsbD_shiftLeft, BitVec.getLsbD_and, BitVec.getLsbD_ofNat,
    Nat.testBit_two_pow_sub_one, hn, h32, decide_true, Bool.not_true, Bool.and_false, Bool.false_and, Bool.and_true,
    Bool.false_or]

/-- LWR keeps the bytes of the register above those it loads (R150). -/
theorem mergeRight_high {b k : Nat} (w old : Word) (hk : k < 32) (hb : 32 - 8 * b ≤ k) :
    (mergeRight b w old).getLsbD k = old.getLsbD k := by
  have hout (x : Word) : (x >>> (8 * b)).getLsbD k = false := by
    rw [BitVec.getLsbD_ushiftRight]
    exact BitVec.getLsbD_of_ge _ _ (by omega)
  simp only [mergeRight, BitVec.getLsbD_or, BitVec.getLsbD_and, BitVec.getLsbD_not, hout, hk, decide_true,
    Bool.not_false, Bool.and_true, Bool.false_or]

/-! ## Values of a known width -/

theorem signExtendByte_shape (x : Word) :
    ((signExtendByte (Size.byte.truncate x)).extractLsb' 0 8).signExtend 32 =
      signExtendByte (Size.byte.truncate x) := by
  rw [signExtendByte, extractLsb'_signExtend _ (by decide)]

theorem signExtendHalf_shape (x : Word) :
    ((signExtendHalf (Size.half.truncate x)).extractLsb' 0 16).signExtend 32 =
      signExtendHalf (Size.half.truncate x) := by
  rw [signExtendHalf, extractLsb'_signExtend _ (by decide)]

theorem truncate_byte_lt (x : Word) : (Size.byte.truncate x).toNat < 256 := by
  rw [Size.truncate_byte, BitVec.toNat_setWidth]
  have := (x.extractLsb' 0 8).isLt
  omega

theorem truncate_half_lt (x : Word) : (Size.half.truncate x).toNat < 65536 := by
  rw [Size.truncate_half, BitVec.toNat_setWidth]
  have := (x.extractLsb' 0 16).isLt
  omega

/-! ## Misaligned accesses -/

/-- What a misaligned access of the address `addr` does under the two policies that do not make it (D3). -/
def MisalignedStop (i : Instr) (s : State) (addr : Word) : Prop :=
  (s.params.align = .refuse → exec i s = .refused (.misalignedAccess addr)) ∧
  (∀ c, s.params.align = .trap c → ∃ t, exec i s = .next t ∧ Entered s t c s.badVaddr)

/-- The policy decides before the access, whatever the address translates to. -/
theorem MisalignedStop.of_accessAddress {i : Instr} {s : State} {sz : Size} {addr : Word}
    (ha : alignedFor sz addr = false)
    (hx : ∀ e, accessAddress s.params sz addr = .error e → exec i s = settle s (.error e)) :
    MisalignedStop i s addr :=
  ⟨fun hp => hx (.refuse (.misalignedAccess addr)) (by simp [accessAddress, ha, hp]),
    fun c hp => ⟨_, hx (.raise (.policyTrap c)) (by simp [accessAddress, ha, hp]),
      entered_enterException s (.policyTrap c)⟩⟩

theorem accessAddress_half_forced {p : Params} {addr : Word} (hp : p.align = .forceAlign)
    (h : addr.toNat % 2 ≠ 0) : accessAddress p .half addr = .ok (addr - 1#32) := by
  rw [accessAddress_forced hp (alignedFor_eq_false h), alignDown_half h]

theorem accessAddress_word_forced {p : Params} {addr : Word} (hp : p.align = .forceAlign)
    (h : addr.toNat % 4 ≠ 0) :
    accessAddress p .word addr = .ok (addr - BitVec.ofNat 32 (addr.toNat % 4)) := by
  rw [accessAddress_forced hp (alignedFor_eq_false h), alignDown_word]

/-! ## A load of stored bytes -/

/-- A word is made of its bytes, the lowest first (20_memory R61). -/
theorem wordOfBytes_byteOf (w : Word) : wordOfBytes (byteOf w 0) (byteOf w 1) (byteOf w 2) (byteOf w 3) = w := by
  have h10 : byteOf w 1 ++ byteOf w 0 = w.extractLsb' 0 16 :=
    BitVec.extractLsb'_append_extractLsb'_eq_extractLsb' rfl
  have h210 : byteOf w 2 ++ w.extractLsb' 0 16 = w.extractLsb' 0 24 :=
    BitVec.extractLsb'_append_extractLsb'_eq_extractLsb' rfl
  have h3210 : byteOf w 3 ++ w.extractLsb' 0 24 = w.extractLsb' 0 32 :=
    BitVec.extractLsb'_append_extractLsb'_eq_extractLsb' rfl
  have hassoc : wordOfBytes (byteOf w 0) (byteOf w 1) (byteOf w 2) (byteOf w 3) =
      byteOf w 3 ++ (byteOf w 2 ++ (byteOf w 1 ++ byteOf w 0)) := by
    rw [wordOfBytes, BitVec.append_assoc, BitVec.append_assoc]
    rfl
  rw [hassoc, h10, h210, h3210, BitVec.extractLsb'_eq_self]

/-- A datum within an aligned wider one: it is aligned where its offset is, and it lies in the same page and word. -/
theorem place_within {wide sz : Size} {a k : Nat} (ha : a % wide.bytes = 0) (hsz : k + sz.bytes ≤ wide.bytes)
    (hk : k % sz.bytes = 0) : a % 4 + k < 4 ∧ (a + k) % sz.bytes = 0 := by
  cases wide <;> cases sz <;> simp only [Size.bytes] at * <;> omega

/-- Memory that holds the bytes of a word from byte `k` on reads as that word shifted. -/
theorem Memory.value_of_bytes {m : Memory} {pa v : Word} {k : Nat} {sz : Size}
    (h : ∀ j < sz.bytes, m.byteAt (pa + BitVec.ofNat 32 j) = byteOf v (k + j)) :
    m.value pa sz = sz.truncate (v >>> (8 * k)) := by
  have hbyte (j : Nat) : byteOf v (k + j) = byteOf (v >>> (8 * k)) j := by
    rw [byteOf, byteOf, BitVec.extractLsb', BitVec.extractLsb', BitVec.toNat_ushiftRight, ← Nat.shiftRight_add,
      Nat.mul_add]
  have h0 := h 0 (by cases sz <;> decide)
  rw [BitVec.add_zero, hbyte] at h0
  cases sz with
  | byte => rw [Memory.value, h0, wordOfBytes_byte, Size.truncate_byte]; rfl
  | half =>
    rw [Memory.value, h0, h 1 (by decide), hbyte, wordOfBytes_half, Size.truncate_half]
    exact congrArg (BitVec.setWidth 32) (BitVec.extractLsb'_append_extractLsb'_eq_extractLsb' (len₁ := 8) rfl)
  | word =>
    rw [Memory.value, h0, h 1 (by decide), h 2 (by decide), h 3 (by decide), hbyte, hbyte, hbyte]
    exact wordOfBytes_byteOf _

theorem State.lookup_congr {s t : State} (h : t.tlb = s.tlb) (va : Word) : t.lookup va = s.lookup va := by
  unfold State.lookup State.tlbEntryFor
  rw [h]

/-- `load` in `t` gives `x`, with any registers and any offset that name the address `a`. -/
def Gives (t : State) (a : Word) (load : Reg → Reg → BitVec 16 → Instr) (x : Word) : Prop :=
  ∀ (ru rb : Reg) (off : BitVec 16), t.gpr rb + off.signExtend 32 = a →
    ∃ u, exec (load ru rb off) t = .next u ∧ u.gpr ru = if ru = 0#5 then 0#32 else x

/-- A load within the bytes of a register `v` that stand in RAM at `pa` gives what those bytes are. -/
theorem Gives.of_loadInto {s t : State} {addr pa v : Word} {k : Nat} {wide sz : Size} {f : Word → Word}
    {load : Reg → Reg → BitVec 16 → Instr} (hx : ∀ ru rb off, exec (load ru rb off) t = loadInto sz f ru rb off t)
    (hl : s.lookup addr = some pa) (hk : kindAt s.params pa = some .ram)
    (hb : OnlyBytes s t pa (wide.split v)) (hal : addr.toNat % wide.bytes = 0)
    (hsz : k + sz.bytes ≤ wide.bytes) (hka : k % sz.bytes = 0) :
    Gives t (addr + BitVec.ofNat 32 k) load (f (sz.truncate (v >>> (8 * k)))) := by
  intro ru rb off ha
  obtain ⟨hword, haligned⟩ := place_within hal hsz hka
  have hoff := State.lookup_offset hl
  have hpage : addr.toNat % 4096 + k < 4096 := by omega
  have hplace : AccessesAt t sz (effectiveAddress t rb off) (pa + BitVec.ofNat 32 k) := by
    rw [show effectiveAddress t rb off = addr + BitVec.ofNat 32 k from ha]
    have hlt := (State.lookup_congr hb.control.tlb _).trans (State.lookup_add hl hpage)
    refine .of_aligned ((alignedFor_iff sz _).2 ?_) hlt
    have := addr.isLt
    have hsum : (addr + BitVec.ofNat 32 k).toNat = addr.toNat + k := by
      rw [BitVec.toNat_add, BitVec.toNat_ofNat]; omega
    rwa [hsum]
  have hram : kindAt t.params (pa + BitVec.ofNat 32 k) = some .ram := by
    have := pa.isLt
    rw [hb.params, ← hk]
    exact kindAt_of_sameWord _ (by rw [BitVec.toNat_add, BitVec.toNat_ofNat]; omega)
  have hval : t.mem.value (pa + BitVec.ofNat 32 k) sz = sz.truncate (v >>> (8 * k)) := by
    refine Memory.value_of_bytes fun j hj => ?_
    have hlen : k + j < (wide.split v).length := by rw [Size.split_length]; omega
    rw [BitVec.add_assoc, ← BitVec.ofNat_add, hb.stored (k + j) hlen, Size.split_getElem]
  refine ⟨_, (hx ru rb off).trans (loadInto_of_read hplace (physRead_memory sz (.inl hram))), ?_⟩
  rw [State.advanceSeq_gpr, State.gpr_setGpr_self, hval]

/-! The narrow loads from byte `k` of the bytes stored, in the statement's terms. -/

section StoredBytes
variable {s t : State} {addr pa v : Word} {wide : Size} {k : Nat}

theorem Gives.bytes (hl : s.lookup addr = some pa) (hk : kindAt s.params pa = some .ram)
    (hb : OnlyBytes s t pa (wide.split v)) (hal : addr.toNat % wide.bytes = 0) (hkw : k < wide.bytes) :
    Gives t (addr + BitVec.ofNat 32 k) .lb ((v.extractLsb' (8 * k) 8).signExtend 32) ∧
    Gives t (addr + BitVec.ofNat 32 k) .lbu ((v.extractLsb' (8 * k) 8).setWidth 32) := by
  have hv : Size.byte.truncate (v >>> (8 * k)) = (v.extractLsb' (8 * k) 8).setWidth 32 := Size.truncate_byte _
  constructor
  · rw [← signExtendByte_setWidth, ← hv]
    exact .of_loadInto (fun _ _ _ => rfl) hl hk hb hal hkw (Nat.mod_one k)
  · rw [← hv]
    exact .of_loadInto (f := id) (fun _ _ _ => rfl) hl hk hb hal hkw (Nat.mod_one k)

theorem Gives.halves (hl : s.lookup addr = some pa) (hk : kindAt s.params pa = some .ram)
    (hb : OnlyBytes s t pa (wide.split v)) (hal : addr.toNat % wide.bytes = 0) (hkw : k + 2 ≤ wide.bytes)
    (hk2 : k % 2 = 0) :
    Gives t (addr + BitVec.ofNat 32 k) .lh ((v.extractLsb' (8 * k) 16).signExtend 32) ∧
    Gives t (addr + BitVec.ofNat 32 k) .lhu ((v.extractLsb' (8 * k) 16).setWidth 32) := by
  have hv : Size.half.truncate (v >>> (8 * k)) = (v.extractLsb' (8 * k) 16).setWidth 32 := Size.truncate_half _
  constructor
  · rw [← signExtendHalf_setWidth, ← hv]
    exact .of_loadInto (fun _ _ _ => rfl) hl hk hb hal hkw hk2
  · rw [← hv]
    exact .of_loadInto (f := id) (fun _ _ _ => rfl) hl hk hb hal hkw hk2

end StoredBytes

/-- A store that answers leaves the bytes stored. -/
theorem StoresBytes.onlyBytes {i : Instr} {s t : State} {pa : Word} {bytes : List Byte} (h : StoresBytes i s pa bytes)
    (hx : exec i s = .next t) : OnlyBytes s t pa bytes := by
  obtain ⟨u, hu, hb, -⟩ := h
  rw [hx, Host.Outcome.next.injEq] at hu
  exact hu ▸ hb

/-! ## Which instructions write memory -/

theorem writeControl_mem {s t : State} {c : Reg} {v : Word} (h : writeControl s c v = .ok t) : t.mem = s.mem := by
  obtain ⟨-, rfl⟩ | ⟨-, rfl⟩ | ⟨-, rfl⟩ | ⟨-, rfl⟩ | ⟨-, ⟨-, rfl⟩ | ⟨-, rfl⟩ | ⟨-, rfl⟩⟩ := writeControl_eq_ok h <;>
    rfl

/-- An instruction that is no store leaves memory alone. -/
theorem exec_mem {i : Instr} {s t : State} (h : exec i s = .next t) : stores i ∨ t.mem = s.mem := by
  cases exec_cases h with
  | stored _ hi _ _ => exact .inl hi
  | control _ _ _ u _ hu ht =>
    have hmem := writeControl_mem hu
    subst ht; exact .inr hmem
  | entered _ _ ht | register _ _ _ ht | hiLo _ _ _ _ ht | jumped _ _ _ _ _ _ ht | tlbRead _ ht | tlbWrite _ ht
  | popped _ ht => subst ht; exact .inr rfl

end Sys2Proof.Machine
end

section
/-! The fetch log of STRICT_CACHE (spec 20_memory R82, D11; log 19): what refuses a fetch as stale, and what the fetch
and the stores leave in the log. -/

namespace Sys2Proof.Machine

/-! ## Only a fetch is refused as stale -/

/-- A computation that does not end in the refusal `StaleFetch`. -/
def NeverStale {α : Type} (r : Except Stop α) : Prop := ∀ pa, r ≠ .error (.refuse (.staleFetch pa))

/-- An instruction that does not answer the refusal `StaleFetch`. -/
def NeverRefusedStale (o : StepOutcome) : Prop := ∀ pa, o ≠ .refused (.staleFetch pa)

theorem NeverStale.ok {α : Type} (x : α) : NeverStale (.ok x : Except Stop α) := fun _ h => nomatch h

/-- The stop of one part of a computation, as the stop of the whole. -/
theorem NeverStale.stop {α β : Type} {r : Except Stop α} {e : Stop} (h : NeverStale r) (he : r = .error e) :
    NeverStale (.error e : Except Stop β) := fun pa hs =>
  h pa (he.trans (congrArg Except.error (Except.error.inj hs)))

theorem NeverStale.settle {s : State} {r : Except Stop State} (h : NeverStale r) :
    NeverRefusedStale (settle s r) := fun pa hs => h pa (settle_eq_refused hs)

theorem neverStale_raise {α : Type} (e : Exc) : NeverStale (.error (.raise e) : Except Stop α) := fun _ h => nomatch h

theorem neverStale_translate (s : State) (va : Word) : NeverStale (translate s va) := fun _ h =>
  nomatch (translate_eq_error h).2

theorem neverStale_physRead (s : State) (pa : Word) (sz : Size) : NeverStale (physRead s pa sz) := fun _ h =>
  nomatch (physRead_eq_error h).2

theorem neverStale_physWrite (s : State) (pa : Word) (sz : Size) (v : Word) : NeverStale (physWrite s pa sz v) :=
  fun _ h => nomatch (physWrite_eq_error h).2

theorem neverStale_physWriteBytes (s : State) (pa : Word) (bytes : List Byte) :
    NeverStale (physWriteBytes s pa bytes) := fun _ h => nomatch (physWriteBytes_eq_error h).choose_spec

theorem neverStale_accessAddress (p : Params) (sz : Size) (addr : Word) : NeverStale (accessAddress p sz addr) := by
  intro pa h
  unfold accessAddress at h
  split at h
  · contradiction
  · split at h <;> simp at h

theorem neverStale_memRead (s : State) (addr : Word) (sz : Size) : NeverStale (memRead s addr sz) := by
  unfold memRead
  split
  · exact neverStale_physRead s _ sz
  · next he => exact (neverStale_translate s addr).stop he

theorem neverStale_memWrite (s : State) (addr : Word) (sz : Size) (v : Word) : NeverStale (memWrite s addr sz v) := by
  unfold memWrite
  split
  · exact neverStale_physWrite s _ sz v
  · next he => exact (neverStale_translate s addr).stop he

theorem neverStale_loadData (s : State) (addr : Word) (sz : Size) : NeverStale (loadData s addr sz) := by
  unfold loadData
  split
  · exact neverStale_memRead s _ sz
  · next he => exact (neverStale_accessAddress s.params sz addr).stop he

theorem neverStale_storeData (s : State) (addr : Word) (sz : Size) (v : Word) :
    NeverStale (storeData s addr sz v) := by
  unfold storeData
  split
  · exact neverStale_memWrite s _ sz v
  · next he => exact (neverStale_accessAddress s.params sz addr).stop he

theorem neverStale_readWordAround (s : State) (addr : Word) : NeverStale (readWordAround s addr) := by
  unfold readWordAround
  split
  · exact neverStale_physRead s _ .word
  · next he => exact (neverStale_translate s addr).stop he

theorem neverStale_writeBytesAround (s : State) (addr : Word) (k : Nat) (bytes : List Byte) :
    NeverStale (writeBytesAround s addr k bytes) := by
  unfold writeBytesAround
  split
  · exact neverStale_physWriteBytes s _ bytes
  · next he => exact (neverStale_translate s addr).stop he

theorem neverStale_signedResult (p : Params) (x : Int) : NeverStale (signedResult p x) := by
  intro pa h
  unfold signedResult at h
  split at h
  · contradiction
  · split at h <;> simp at h

theorem neverStale_readControl (s : State) (c : Reg) : NeverStale (readControl s c) := fun _ h =>
  nomatch readControl_eq_error h

theorem neverStale_writeControl (s : State) (c : Reg) (v : Word) : NeverStale (writeControl s c v) := by
  intro pa h
  unfold writeControl writeReadOnly at h
  (repeat' split at h) <;> simp at h

theorem neverStale_outsideDelaySlot {s : State} {r : Except Stop State} (h : NeverStale r) :
    NeverStale (outsideDelaySlot s r) := by
  unfold outsideDelaySlot
  split
  · exact fun _ hs => nomatch hs
  · exact h

theorem neverStale_insideRegion {s : State} {r : Except Stop State} (h : NeverStale r) :
    NeverStale (insideRegion s r) := by
  unfold insideRegion
  split
  · exact fun _ hs => nomatch hs
  · exact h

theorem neverStale_toWordTarget {target : Word} {r : Except Stop State} (h : NeverStale r) :
    NeverStale (toWordTarget target r) := by
  unfold toWordTarget
  split
  · exact h
  · exact fun _ hs => nomatch hs

theorem neverStale_instructionOf (p : Params) (w : Word) : NeverStale (instructionOf p w) := by
  intro pa h
  unfold instructionOf at h
  (repeat' split at h) <;> simp at h

/-! The forms of the instructions. -/

section Forms
variable (s : State) (rt rs : Reg) (imm : BitVec 16)

theorem loadInto_neverStale (sz : Size) (f : Word → Word) : NeverRefusedStale (loadInto sz f rt rs imm s) := by
  refine NeverStale.settle ?_
  split
  · exact .ok _
  · next he => exact (neverStale_loadData s _ sz).stop he

theorem storeFrom_neverStale (sz : Size) : NeverRefusedStale (storeFrom sz rt rs imm s) := by
  refine NeverStale.settle ?_
  split
  · exact .ok _
  · next he => exact (neverStale_storeData s _ sz _).stop he

theorem loadMerged_neverStale (f : Nat → Word → Word → Word) : NeverRefusedStale (loadMerged f rt rs imm s) := by
  refine NeverStale.settle ?_
  split
  · exact .ok _
  · next he => exact (neverStale_readWordAround s _).stop he

theorem storeAround_neverStale (addr : Word) (k : Nat) (bytes : List Byte) :
    NeverRefusedStale (storeAround s addr k bytes) := by
  refine NeverStale.settle ?_
  split
  · exact .ok _
  · next he => exact (neverStale_writeBytesAround s addr k bytes).stop he

theorem writeChecked_neverStale (rd : Reg) {r : Except Stop Word} (h : NeverStale r) :
    NeverRefusedStale (writeChecked rd r s) := by
  refine NeverStale.settle ?_
  split
  · exact .ok _
  · exact h.stop rfl

theorem execMfc0_neverStale (rd : Reg) : NeverRefusedStale (execMfc0 rt rd s) := by
  refine NeverStale.settle ?_
  split
  · exact .ok _
  · next he => exact (neverStale_readControl s rd).stop he

theorem execMtc0_neverStale (rd : Reg) : NeverRefusedStale (execMtc0 rt rd s) := by
  refine NeverStale.settle ?_
  split
  · exact .ok _
  · next he => exact (neverStale_writeControl s rd _).stop he

end Forms

/-- No instruction is refused as a stale fetch. -/
theorem exec_neverStale (i : Instr) (s : State) : NeverRefusedStale (exec i s) := by
  cases i with
  | lb | lbu | lh | lhu | lw => exact loadInto_neverStale _ _ _ _ _ _
  | sb | sh | sw => exact storeFrom_neverStale _ _ _ _ _
  | lwl | lwr => exact loadMerged_neverStale _ _ _ _ _
  | swl | swr => exact storeAround_neverStale _ _ _ _
  | add | sub | addi => exact writeChecked_neverStale _ _ (neverStale_signedResult _ _)
  | addiu | slti | sltiu | andi | ori | xori | lui | addu | subu | slt | sltu | and | or | xor | nor
  | sll | srl | sra | sllv | srlv | srav | mfhi | mflo | mult | multu | mthi | mtlo | tlbr | tlbwi | rfe =>
    exact NeverStale.settle (s := s) (.ok _)
  | div => simp only [exec, execDiv]; split <;> exact NeverStale.settle (.ok _)
  | divu => simp only [exec, execDivu]; split <;> exact NeverStale.settle (.ok _)
  | j | jal => exact NeverStale.settle (neverStale_outsideDelaySlot (neverStale_insideRegion (.ok _)))
  | jr | jalr => exact NeverStale.settle (neverStale_outsideDelaySlot (neverStale_toWordTarget (.ok _)))
  | beq | bne | blez | bgtz | bltz | bgez | bltzal | bgezal =>
    exact NeverStale.settle (neverStale_outsideDelaySlot (.ok _))
  | syscall | brk => exact NeverStale.settle (neverStale_raise _)
  | mfc0 => exact execMfc0_neverStale _ _ _
  | mtc0 => exact execMtc0_neverStale _ _ _

/-! ## The fetch log of STRICT_CACHE -/

/-- A fetch is refused exactly where its word has gone stale (D11). -/
theorem noteFetch_eq_error_iff {s : State} {va pa : Word} {e : Stop} :
    noteFetch s va pa = .error e ↔ e = .refuse (.staleFetch pa) ∧ s.params.strictCache = true ∧
      va.extractLsb' 29 3 ≠ 0b101#3 ∧ lookupKey s.fetched (pa.toNat / 4) = some true := by
  unfold noteFetch
  rw [wordIndexOf_toNat]
  by_cases hc : s.params.strictCache = true ∧ va.extractLsb' 29 3 ≠ 0b101#3
  · obtain ⟨hs, hv⟩ := hc
    rw [if_pos (by simp [hs, inCachedSegment, hv])]
    cases lookupKey s.fetched (pa.toNat / 4) with
    | none => simp
    | some stale => cases stale <;> simp [hs, hv, eq_comm (a := e)]
  · rw [if_neg (by simpa [inCachedSegment] using hc)]
    refine iff_of_false (fun h => nomatch h) fun ⟨_, hs, hv, _⟩ => hc ⟨hs, hv⟩

/-- What a fetch leaves in the fetch log. -/
theorem fetch_noted {s t : State} {pa w : Word} (hl : s.lookup s.pc = some pa) (h : fetch s = .ok (w, t)) :
    FetchNoted s t s.pc pa := by
  rw [fetch_of_lookup hl] at h
  cases hn : noteFetch s s.pc pa with
  | error e => rw [hn] at h; contradiction
  | ok u =>
    rw [hn] at h
    have noted := FetchNoted.of_noteFetch hn
    obtain rfl | rfl := physRead_state h
    · exact noted
    · exact ⟨noted.cached, noted.uncached⟩

theorem fetch_stale_iff {s : State} {pa : Word} (hl : s.lookup s.pc = some pa) :
    fetch s = .error (.refuse (.staleFetch pa)) ↔ s.params.strictCache = true ∧
      s.pc.extractLsb' 29 3 ≠ 0b101#3 ∧ lookupKey s.fetched (pa.toNat / 4) = some true := by
  rw [fetch_of_lookup hl]
  cases hn : noteFetch s s.pc pa with
  | error e =>
    obtain ⟨rfl, hstale⟩ := noteFetch_eq_error_iff.1 hn
    exact iff_of_true rfl hstale
  | ok u =>
    refine iff_of_false (neverStale_physRead u pa .word pa) fun hstale => ?_
    rw [noteFetch_eq_error_iff.2 ⟨rfl, hstale⟩] at hn
    contradiction

/-- A step is refused as a stale fetch exactly where its fetch is: no reserved word and no instruction is. -/
theorem step_stale_iff {s : State} (hq : s.quiet) (pa : Word) :
    step s = .refused (.staleFetch pa) ↔ fetch s.dropInput = .error (.refuse (.staleFetch pa)) := by
  refine ⟨fun h => ?_, fun h => step_of_fetch_error hq h⟩
  rw [step, beginStep_of_quiet hq] at h
  obtain ⟨e, hf, hb⟩ | ⟨w, t, e, -, hi, hb⟩ | ⟨w, t, -, -, hb⟩ | ⟨w, t, i, -, -, hb⟩ :=
    beginInstruction_cases s.dropInput
  all_goals rw [hb] at h
  · obtain rfl := Except.error.inj (settle_eq_refused h)
    exact hf
  · exact absurd h (NeverStale.settle ((neverStale_instructionOf _ w).stop hi) pa)
  · contradiction
  · exact absurd h (exec_neverStale i t pa)

/-! What the five stores note. -/

section StoresNoted
variable {s u : State} {sz : Size} {rt rs : Reg} {imm : BitVec 16} {pa : Word}

theorem StoreNoted.of_storeFrom (ha : AccessesAt s sz (effectiveAddress s rs imm) pa)
    (h : storeFrom sz rt rs imm s = .next u) : StoreNoted s u pa := by
  obtain ⟨t, hw, rfl⟩ | ⟨e, hw, -⟩ := storeFrom_eq_next h
  all_goals rw [ha.storeData] at hw
  · exact (StoreNoted.of_physWrite hw).congr rfl rfl
  · exact nomatch (physWrite_eq_error hw).2

theorem StoreNoted.of_storeAround {addr : Word} {k : Nat} {bytes : List Byte} (hl : s.lookup addr = some pa)
    (hne : bytes ≠ []) (hlen : k + bytes.length ≤ 4) (h : storeAround s addr k bytes = .next u) :
    StoreNoted s u pa := by
  obtain ⟨t, hw, rfl⟩ | ⟨e, hw, -⟩ := storeAround_eq_next h
  · obtain ⟨qa, hq, hw⟩ := writeBytesAround_eq_ok hw
    obtain rfl : pa = qa := Option.some_inj.1 (hl.symm.trans hq)
    exact (StoreNoted.of_writeAround hne hlen hw).congr rfl rfl
  · have := translate_of_writeBytesAround_raises hw
    rw [translate_of_lookup hl] at this
    contradiction

theorem StoreNoted.of_swl (hl : s.lookup (effectiveAddress s rs imm) = some pa)
    (h : exec (.swl rt rs imm) s = .next u) : StoreNoted s u pa := by
  have hb : byteOffset (effectiveAddress s rs imm) < 4 := by rw [byteOffset_eq]; omega
  exact StoreNoted.of_storeAround hl (by simp [leftBytes]) (by simp [leftBytes]; omega) h

theorem StoreNoted.of_swr (hl : s.lookup (effectiveAddress s rs imm) = some pa)
    (h : exec (.swr rt rs imm) s = .next u) : StoreNoted s u pa := by
  have hb : byteOffset (effectiveAddress s rs imm) < 4 := by rw [byteOffset_eq]; omega
  exact StoreNoted.of_storeAround hl (by simp [rightBytes]; omega) (by simp [rightBytes]; omega) h

end StoresNoted

/-- A store that answers has noted one word, or it missed or trapped and noted none. -/
theorem exec_store_noted {i : Instr} {s u : State} (hi : stores i) (h : exec i s = .next u) :
    u.fetched = s.fetched ∨ ∃ pa, StoreNoted s u pa := by
  have aligned {sz : Size} {rt rs : Reg} {imm : BitVec 16} (hx : storeFrom sz rt rs imm s = .next u) :
      u.fetched = s.fetched ∨ ∃ pa, StoreNoted s u pa := by
    obtain ⟨t, hd, -⟩ | ⟨e, -, rfl⟩ := storeFrom_eq_next hx
    · obtain ⟨a, pa, ha, hl, -⟩ := storeData_eq_ok hd
      exact .inr ⟨pa, .of_storeFrom ⟨a, ha, hl⟩ hx⟩
    · exact .inl rfl
  have around {addr : Word} {k : Nat} {bytes : List Byte} (hx : storeAround s addr k bytes = .next u)
      (noted : ∀ pa, s.lookup addr = some pa → StoreNoted s u pa) :
      u.fetched = s.fetched ∨ ∃ pa, StoreNoted s u pa := by
    obtain ⟨t, hd, -⟩ | ⟨e, -, rfl⟩ := storeAround_eq_next hx
    · obtain ⟨pa, hl, -⟩ := writeBytesAround_eq_ok hd
      exact .inr ⟨pa, noted pa hl⟩
    · exact .inl rfl
  obtain ⟨rt, rs, imm, rfl | rfl | rfl | rfl | rfl⟩ := hi
  · exact aligned h
  · exact aligned h
  · exact aligned h
  · exact around h fun _ hl => .of_swl hl h
  · exact around h fun _ hl => .of_swr hl h

theorem writeControl_fetched {s t : State} {c : Reg} {v : Word} (h : writeControl s c v = .ok t) :
    t.fetched = s.fetched := by
  obtain ⟨-, rfl⟩ | ⟨-, rfl⟩ | ⟨-, rfl⟩ | ⟨-, rfl⟩ | ⟨-, ⟨-, rfl⟩ | ⟨-, rfl⟩ | ⟨-, rfl⟩⟩ := writeControl_eq_ok h <;>
    rfl

/-- A word once noted stays in the log, stale or not. -/
theorem StoreNoted.keeps {s t : State} {pa : Word} {k : Nat} (h : StoreNoted s t pa)
    (hk : lookupKey s.fetched k ≠ none) : lookupKey t.fetched k ≠ none := by
  cases hs : s.params.strictCache with
  | true =>
    rw [h.strict hs]
    split
    · exact Option.some_ne_none true
    · exact hk
  | false => rwa [h.coherent hs]

/-- No instruction takes a word out of the log. -/
theorem exec_keeps_noted {i : Instr} {s t : State} {k : Nat} (h : exec i s = .next t)
    (hk : lookupKey s.fetched k ≠ none) : lookupKey t.fetched k ≠ none := by
  cases exec_cases h with
  | stored _ hi _ _ =>
    obtain hf | ⟨pa, hn⟩ := exec_store_noted hi h
    · rwa [hf]
    · exact hn.keeps hk
  | control _ _ _ u _ hu ht =>
    have hf := writeControl_fetched hu
    subst ht; rwa [State.advanceSeq_fetched, hf]
  | entered _ _ ht | register _ _ _ ht | hiLo _ _ _ _ ht | jumped _ _ _ _ _ _ ht | tlbRead _ ht | tlbWrite _ ht
  | popped _ ht => subst ht; exact hk

/-- A fetch that translates raises nothing. -/
theorem fetch_ne_raise {s : State} {pa : Word} (hl : s.lookup s.pc = some pa) (e : Exc) :
    fetch s ≠ .error (.raise e) := by
  intro h
  rw [fetch_of_lookup hl] at h
  cases hn : noteFetch s s.pc pa with
  | error x =>
    rw [hn] at h
    obtain rfl := Except.error.inj h
    exact nomatch (noteFetch_eq_error_iff.1 hn).1
  | ok u =>
    rw [hn] at h
    exact nomatch (physRead_eq_error h).2

/-- A step that fetches at an address that translates and answers, has fetched, and then entered an exception, gone on
past a reserved word, or executed an instruction. -/
theorem step_next_of_lookup {s t : State} {pa : Word} (hq : s.quiet) (hl : s.lookup s.pc = some pa)
    (h : step s = .next t) :
    ∃ w u, fetch s.dropInput = .ok (w, u) ∧ (t.fetched = u.fetched ∨ ∃ i, exec i u = .next t) := by
  rw [step, beginStep_of_quiet hq] at h
  obtain ⟨e, hf, hb⟩ | ⟨w, u, e, hf, -, hb⟩ | ⟨w, u, hf, -, hb⟩ | ⟨w, u, i, hf, -, hb⟩ :=
    beginInstruction_cases s.dropInput
  all_goals rw [hb] at h
  · obtain hx | ⟨x, hx, -⟩ := settle_eq_next h
    · contradiction
    · obtain rfl := Except.error.inj hx
      exact absurd hf (fetch_ne_raise (s := s.dropInput) hl x)
  · obtain hx | ⟨x, -, rfl⟩ := settle_eq_next h
    · contradiction
    · exact ⟨w, u, hf, .inl rfl⟩
  · obtain rfl := Host.Outcome.next.inj h
    exact ⟨w, u, hf, .inl rfl⟩
  · exact ⟨w, u, hf, .inr ⟨i, h⟩⟩

end Sys2Proof.Machine
end

section
/-! The statements about memory (spec 20_memory). -/

namespace Sys2Proof.Machine

/-- Settles O12: the note of the fetch decides the refusal, no instruction takes it out of the log, a store marks it. -/
theorem staleFetchRefused : Obligations.StaleFetchRefused := by
  intro s pa entry
  refine ⟨fun hq hl => ⟨?_, fun hs hv t ht => ?_⟩, ?_⟩
  · exact (step_stale_iff hq pa).trans (fetch_stale_iff (s := s.dropInput) hl)
  · obtain ⟨w, u, hf, hu⟩ := step_next_of_lookup hq hl ht
    have hentry : lookupKey u.fetched (pa.toNat / 4) = some false := by
      rw [(fetch_noted (s := s.dropInput) hl hf).cached hs hv, if_pos rfl]
    have hkept : lookupKey u.fetched (pa.toNat / 4) ≠ none := by simp [hentry]
    obtain hsame | ⟨i, hx⟩ := hu
    · simpa only [entry, hsame] using hkept
    · exact exec_keeps_noted hx hkept
  · intro t rt rs imm i addr hs hnoted hl hi hx
    have hn : StoreNoted s t pa := by
      obtain rfl | rfl | rfl | ⟨rfl, h⟩ | ⟨rfl, h⟩ := hi
      · exact .of_storeFrom (.of_aligned rfl hl) hx
      · exact .of_swl hl hx
      · exact .of_swr hl hx
      · exact .of_storeFrom (.of_aligned (alignedFor_half h) hl) hx
      · exact .of_storeFrom (.of_aligned (alignedFor_word h) hl) hx
    simp only [entry, hn.strict hs, true_and, if_pos hnoted]

/-- Settles O32: the seven loads draw a value, and what is known of it is what the extension or the merge fixes. -/
theorem deviceLoadsComplete : Obligations.DeviceLoadsComplete := by
  intro s rt rs imm pa addr old runs hl hk
  refine ⟨?_, ?_, ?_, ?_, fun h => ⟨?_, ?_⟩, fun h => ?_⟩
  · exact LoadsFreeValue.of_loadInto rfl (.of_aligned rfl hl) hk signExtendByte_shape
  · exact LoadsFreeValue.of_loadInto rfl (.of_aligned rfl hl) hk truncate_byte_lt
  · exact LoadsFreeValue.of_loadMerged rfl hl hk fun w k => mergeLeft_low w old
  · exact LoadsFreeValue.of_loadMerged rfl hl hk fun w k => mergeRight_high w old
  · exact LoadsFreeValue.of_loadInto rfl (.of_aligned (alignedFor_half h) hl) hk signExtendHalf_shape
  · exact LoadsFreeValue.of_loadInto rfl (.of_aligned (alignedFor_half h) hl) hk truncate_half_lt
  · exact LoadsFreeValue.of_loadInto rfl (.of_aligned (alignedFor_word h) hl) hk fun _ => trivial

/-- Settles O33: SWL and SWR put out their bytes one by one, the other three what they store. -/
theorem deviceAndRomStores : Obligations.DeviceAndRomStores := by
  intro s rt rs imm pa dev addr b v word one byteAt runs hl hk
  have hb : b < 4 := Nat.mod_lt _ (by decide)
  have hoff : byteOffset addr = b := byteOffset_eq addr
  refine ⟨?_, fun h => ?_, fun h => ?_, ?_, ?_⟩
  · simp only [one, ← Size.truncate_byte]
    exact PutsOut.of_storeFrom rfl (.of_aligned rfl hl) hk
  · simp only [one, ← Size.truncate_half]
    exact PutsOut.of_storeFrom rfl (.of_aligned (alignedFor_half h) hl) hk
  · exact PutsOut.of_storeFrom rfl (.of_aligned (alignedFor_word h) hl) hk
  · have hx : exec (.swl rt rs imm) s =
        storeAround s addr 0 ((List.range (b + 1)).map fun k => byteOf v (3 - b + k)) := by
      rw [← hoff]; rfl
    have hp := PutsOut.of_storeAround hx hl hk (by omega) (by omega)
    simp only [Nat.zero_add] at hp
    exact hp
  · have hx : exec (.swr rt rs imm) s = storeAround s addr b ((List.range (4 - b)).map fun k => byteOf v k) := by
      rw [← hoff]; rfl
    exact PutsOut.of_storeAround hx hl hk (by omega) (by omega)

/-- Settles O34: the alignment policy is asked before the address is translated. -/
theorem misalignedAccessOutcome : Obligations.MisalignedAccessOutcome := by
  intro s rt rs imm i addr h
  have half (ho : addr.toNat % 2 ≠ 0) :=
    MisalignedStop.of_accessAddress (i := i) (s := s) (alignedFor_eq_false (sz := .half) ho)
  have word (hm : addr.toNat % 4 ≠ 0) :=
    MisalignedStop.of_accessAddress (i := i) (s := s) (alignedFor_eq_false (sz := .word) hm)
  obtain ⟨rfl | rfl | rfl, ho⟩ | ⟨rfl | rfl, hm⟩ := h
  · exact half ho fun _ => loadInto_of_misaligned
  · exact half ho fun _ => loadInto_of_misaligned
  · exact half ho fun _ => storeFrom_of_misaligned
  · exact word hm fun _ => loadInto_of_misaligned
  · exact word hm fun _ => storeFrom_of_misaligned

/-- Settles O35: the policy gives the cleared address, and there the access is made as an aligned one is. -/
theorem forcedAlignment : Obligations.ForcedAlignment := by
  intro s rt rs imm pa addr byte out misses stops loads stores half word hp
  refine ⟨fun h => ?_, fun h => ?_⟩
  · have ha : accessAddress s.params .half addr = .ok half := accessAddress_half_forced hp h
    refine ⟨fun hl => ?_, fun hl => ?_⟩
    · simp only [List.mem_cons, List.not_mem_nil, or_false, forall_eq_or_imp, forall_eq]
      exact ⟨enters_of_loadInto rfl ha hl, enters_of_loadInto rfl ha hl, enters_of_storeFrom rfl ha hl⟩
    · have hacc : AccessesAt s .half addr pa := ⟨half, ha, hl⟩
      have hval : s.mem.value pa .half = (byte 1 ++ byte 0).setWidth 32 := by
        simp only [byte, BitVec.add_zero]
        exact wordOfBytes_half _ _
      have hout : Size.half.truncate (s.gpr rt) = (out 1 ++ out 0).setWidth 32 :=
        (Size.truncate_half _).trans (congrArg (BitVec.setWidth 32)
          (BitVec.extractLsb'_append_extractLsb'_eq_extractLsb' (len₁ := 8) (len₂ := 8) rfl).symm)
      refine ⟨fun hk => ?_, ?_, ?_, ?_⟩
      · simp only [List.mem_cons, List.not_mem_nil, or_false, forall_eq_or_imp, forall_eq]
        exact ⟨loadInto_nothing hacc hk, loadInto_nothing hacc hk, storeFrom_nothing hacc hk⟩
      · exact loadInto_by_kind rfl hacc (by rw [hval, signExtendHalf_setWidth]) signExtendHalf_shape
      · exact loadInto_by_kind rfl hacc hval truncate_half_lt
      · exact storeFrom_by_kind rfl hacc hout
  · have ha : accessAddress s.params .word addr = .ok word := accessAddress_word_forced hp h
    refine ⟨fun hl => ?_, fun hl => ?_⟩
    · simp only [List.mem_cons, List.not_mem_nil, or_false, forall_eq_or_imp, forall_eq]
      exact ⟨enters_of_loadInto rfl ha hl, enters_of_storeFrom rfl ha hl⟩
    · have hacc : AccessesAt s .word addr pa := ⟨word, ha, hl⟩
      have hval : s.mem.value pa .word = byte 3 ++ byte 2 ++ byte 1 ++ byte 0 := by
        simp only [byte, BitVec.add_zero]
        rfl
      refine ⟨fun hk => ?_, ?_, ?_⟩
      · simp only [List.mem_cons, List.not_mem_nil, or_false, forall_eq_or_imp, forall_eq]
        exact ⟨loadInto_nothing hacc hk, storeFrom_nothing hacc hk⟩
      · exact loadInto_by_kind rfl hacc hval fun _ => trivial
      · exact storeFrom_by_kind rfl hacc rfl

/-- Settles O37: SWR stores its first byte at the address itself, for translation keeps the low bits. -/
theorem unpopulatedAddressFaults : Obligations.UnpopulatedAddressFaults := by
  intro s rt rs imm pa addr stops hk
  refine ⟨fun hl => ?_, fun hq hc hl => ?_⟩
  · simp only [stops, List.mem_cons, List.not_mem_nil, or_false, forall_eq_or_imp, forall_eq]
    have byte : AccessesAt s .byte addr pa := .of_aligned rfl hl
    refine ⟨⟨loadInto_nothing byte hk, loadInto_nothing byte hk, storeFrom_nothing byte hk, ?_⟩,
      ⟨loadMerged_nothing hl hk, loadMerged_nothing hl hk, ?_⟩, fun h => ?_, fun h => ?_⟩
    · have hoff : byteOffset addr < 4 := by rw [byteOffset_eq]; omega
      have hfirst : wordBase pa + BitVec.ofNat 32 (byteOffset addr) = pa := by
        have := State.lookup_offset hl
        apply BitVec.eq_of_toNat_eq
        rw [wordBase_add_toNat pa hoff, byteOffset_eq]
        omega
      have hx := storeAround_nothing (bytes := rightBytes (s.gpr rt) (byteOffset addr)) hl hk hoff
        (by simp [rightBytes]; omega)
      rwa [hfirst] at hx
    · have hx := storeAround_nothing (k := 0) (bytes := leftBytes (s.gpr rt) (byteOffset addr)) hl hk (by decide)
        (by simp [leftBytes])
      rwa [BitVec.add_zero] at hx
    · have half : AccessesAt s .half addr pa := .of_aligned (alignedFor_half h) hl
      exact ⟨loadInto_nothing half hk, loadInto_nothing half hk, storeFrom_nothing half hk⟩
    · have word : AccessesAt s .word addr pa := .of_aligned (alignedFor_word h) hl
      exact ⟨loadInto_nothing word hk, storeFrom_nothing word hk⟩
  · have hn : noteFetch s.dropInput s.pc pa = .ok s.dropInput := by simp [noteFetch, hc]
    have hf : fetch s.dropInput = .error (.fault (.unpopulatedPhysicalAddress pa)) := by
      rw [fetch_of_lookup (s := s.dropInput) hl, State.dropInput_pc, hn]
      exact physRead_nothing .word hk
    exact step_of_fetch_error hq hf

/-- Settles O38: the bytes stored are what every load within them reads. -/
theorem storeThenLoadReturnsWord : Obligations.StoreThenLoadReturnsWord := by
  intro s t rt rs imm pa addr v gives byteAt halfAt hl hk
  refine ⟨fun hx => ?_, fun h hx => ?_, fun h hx => ?_⟩
  · have hb := (StoresBytes.of_storeFrom rfl (.of_aligned rfl hl) hk).onlyBytes hx
    exact Gives.bytes hl hk hb (Nat.mod_one _) (by decide)
  · have hb := (StoresBytes.of_storeFrom rfl (.of_aligned (alignedFor_half h) hl) hk).onlyBytes hx
    exact ⟨Gives.halves hl hk hb h (by decide) rfl, fun k hk2 => Gives.bytes hl hk hb h hk2⟩
  · have hb := (StoresBytes.of_storeFrom rfl (.of_aligned (alignedFor_word h) hl) hk).onlyBytes hx
    exact ⟨Gives.of_loadInto (f := id) (sz := .word) (fun _ _ _ => rfl) hl hk hb h (by decide) rfl,
      Gives.halves hl hk hb h (by decide) rfl, Gives.halves hl hk hb h (by decide) rfl,
      fun k hk4 => Gives.bytes hl hk hb h hk4⟩

/-- Settles O41: R68 read off the two cases of the lookup. -/
theorem translation : Obligations.Translation := by
  intro s va e mapped
  have he : e = s.tlbEntryFor va := (s.tlbEntryFor_eq va).symm
  refine ⟨fun hu => ?_, fun hm hv => ?_, fun hm hp => ?_, fun hm hv hp => ⟨e.lo.pfn ++ va.extractLsb' 0 12, ?_, ?_⟩⟩
  · exact translate_of_lookup (s.lookup_unmapped (by omega))
  · exact translate_of_miss (by rw [s.lookup_mapped hm, ← he, if_neg (by simp [hv])])
  · exact translate_of_miss (by rw [s.lookup_mapped hm, ← he, if_neg (by simp [hp])])
  · exact translate_of_lookup (by rw [s.lookup_mapped hm, ← he, if_pos ⟨hv, hp⟩])
  · exact append_low_toNat _ _

/-- Settles O59: nothing outside an instruction writes memory, and of the instructions only a store does. -/
theorem onlyStoresWriteMemory : Obligations.OnlyStoresWriteMemory := by
  intro s t h hne
  have kept : KeptOutsideExec fun u => u.mem = s.mem := ⟨fun _ _ => id, fun _ => id, id, id⟩
  obtain ht | ⟨i, u, hb, hu, hx⟩ := kept.step rfl h
  · exact absurd ht hne
  · obtain hi | ht := exec_mem hx
    · exact ⟨u, i, hb, hi⟩
    · exact absurd (ht.trans hu) hne

end Sys2Proof.Machine
end

section
/-! The encoding (spec 30_encoding): a word is determined by its fields, what each table of the decoder selects, and that
the encoder and the decoder invert each other. -/

namespace Sys2Proof

/-! ## A word of a format, by its fields -/

theorem rType_eq_iff {op : BitVec 6} {rs rt rd : Reg} {sh : BitVec 5} {fn : BitVec 6} {w : Word} :
    rType op rs rt rd sh fn = w ↔ fieldOpcode w = op ∧ fieldRs w = rs ∧ fieldRt w = rt ∧ fieldRd w = rd ∧
      fieldShamt w = sh ∧ fieldFunct w = fn := by
  constructor
  · rintro rfl
    simp
  · rintro ⟨rfl, rfl, rfl, rfl, rfl, rfl⟩
    exact rType_of_fields w

theorem iType_eq_iff {op : BitVec 6} {rs rt : Reg} {imm : BitVec 16} {w : Word} :
    iType op rs rt imm = w ↔ fieldOpcode w = op ∧ fieldRs w = rs ∧ fieldRt w = rt ∧ fieldImm w = imm := by
  constructor
  · rintro rfl
    simp
  · rintro ⟨rfl, rfl, rfl, rfl⟩
    exact iType_of_fields w

theorem jType_eq_iff {op : BitVec 6} {index : BitVec 26} {w : Word} :
    jType op index = w ↔ fieldOpcode w = op ∧ fieldIndex w = index := by
  constructor
  · rintro rfl
    simp
  · rintro ⟨rfl, rfl⟩
    exact jType_of_fields w

theorem codeType_eq_iff {code : BitVec 20} {fn : BitVec 6} {w : Word} :
    codeType code fn = w ↔ fieldOpcode w = 0#6 ∧ fieldCode w = code ∧ fieldFunct w = fn := by
  constructor
  · rintro rfl
    simp
  · rintro ⟨hop, rfl, rfl⟩
    exact codeType_of_fields w hop

/-! ## The decoder, by what the word selects and its must-be-zero fields (R115) -/

/-- The strict decoder answers an instruction where the word selects it and R120 holds of the word. -/
theorem decode_eq_ok_iff {w : Word} {i : Instr} :
    decode w = .ok i ↔ selectInstr w = some i ∧ i.fieldsZero w = true := by
  unfold decode
  cases selectInstr w with
  | none => simp
  | some j =>
    by_cases hz : j.fieldsZero w = true
    · simp only [hz, if_true, Except.ok.injEq, Option.some.injEq, iff_self_and]
      rintro rfl
      exact hz
    · simp only [hz, if_false, reduceCtorEq, Option.some.injEq, false_iff, not_and]
      rintro rfl
      exact hz

theorem decode_of_select_none {w : Word} (h : selectInstr w = none) : decode w = .error .unassigned := by
  simp [decode, h]

theorem decode_of_fieldsZero_false {w : Word} {i : Instr} (h : selectInstr w = some i) (hz : i.fieldsZero w = false) :
    decode w = .error (.fieldNotZero i) := by
  simp [decode, h, hz]

/-! ## Which table an opcode leads to (R116) -/

theorem selectInstr_special {w : Word} (h : fieldOpcode w = 0#6) : selectInstr w = selectSpecial w := by
  simp [selectInstr, h]

theorem selectInstr_regimm {w : Word} (h : fieldOpcode w = 1#6) : selectInstr w = selectRegimm w := by
  simp [selectInstr, h]

theorem selectInstr_cop0 {w : Word} (h : fieldOpcode w = 16#6) : selectInstr w = selectCop0 w := by
  simp [selectInstr, h]

/-! ## The word of an instruction selects it -/

theorem selectInstr_encode (i : Instr) : selectInstr (encode i) = some i := by
  cases i with
  | lb | lbu | sb | lh | lhu | sh | lw | sw | lwl | lwr | swl | swr
  | addi | addiu | slti | sltiu | andi | ori | xori | lui
  | beq | bne | blez | bgtz | j | jal => simp [encode, selectInstr]
  | add | addu | sub | subu | slt | sltu | and | or | xor | nor
  | sll | srl | sra | sllv | srlv | srav
  | mult | multu | div | divu | mfhi | mthi | mflo | mtlo
  | jr | jalr | syscall | brk => simp [encode, selectInstr_special, selectSpecial]
  | bltz | bgez | bltzal | bgezal => simp [encode, selectInstr_regimm, selectRegimm]
  | mfc0 | mtc0 | tlbr | tlbwi | rfe => simp [encode, selectInstr_cop0, selectCop0]

/-- The encoder leaves every must-be-zero field zero (R120). -/
theorem fieldsZero_encode (i : Instr) : i.fieldsZero (encode i) = true := by
  cases i <;> simp [encode, Instr.fieldsZero]

/-! ## A word whose must-be-zero fields are zero is the word of what it selects -/

section Select
variable {w : Word} {i : Instr}

theorem encode_of_selectSpecial (hop : fieldOpcode w = 0#6) (h : selectSpecial w = some i)
    (hz : i.fieldsZero w = true) : encode i = w := by
  unfold selectSpecial at h
  split at h
  case h_29 => contradiction
  all_goals
    next hnumber =>
    obtain rfl := Option.some.inj h
    obtain ⟨-, hfn⟩ := BitVec.toNat_eq_nat.1 hnumber
    simp only [Instr.fieldsZero, Bool.and_eq_true, beq_iff_eq] at hz
    simp only [encode, rType_eq_iff, codeType_eq_iff, hop, hfn, hz, and_self]

theorem encode_of_selectRegimm (hop : fieldOpcode w = 1#6) (h : selectRegimm w = some i) : encode i = w := by
  unfold selectRegimm at h
  split at h
  case h_5 => contradiction
  all_goals
    next hnumber =>
    obtain rfl := Option.some.inj h
    obtain ⟨-, hrt⟩ := BitVec.toNat_eq_nat.1 hnumber
    simp only [encode, iType_eq_iff, hop, hrt, and_self]

theorem encode_of_selectCop0 (hop : fieldOpcode w = 16#6) (h : selectCop0 w = some i)
    (hz : i.fieldsZero w = true) : encode i = w := by
  unfold selectCop0 at h
  split at h
  case h_3 hrs =>
    obtain ⟨-, hrs⟩ := BitVec.toNat_eq_nat.1 hrs
    split at h
    case h_4 => contradiction
    all_goals
      next hnumber =>
      obtain rfl := Option.some.inj h
      obtain ⟨-, hfn⟩ := BitVec.toNat_eq_nat.1 hnumber
      simp only [Instr.fieldsZero, Bool.and_eq_true, beq_iff_eq] at hz
      simp only [encode, rType_eq_iff, hop, hrs, hfn, hz, and_self]
  case h_4 => contradiction
  all_goals
    next hnumber =>
    obtain rfl := Option.some.inj h
    obtain ⟨-, hrs⟩ := BitVec.toNat_eq_nat.1 hnumber
    simp only [Instr.fieldsZero, Bool.and_eq_true, beq_iff_eq] at hz
    simp only [encode, rType_eq_iff, hop, hrs, hz, and_self]

/-- Each table fixes the fields that its numbers and R120 speak of, and the operands are the other fields. -/
theorem encode_of_selectInstr (h : selectInstr w = some i) (hz : i.fieldsZero w = true) : encode i = w := by
  unfold selectInstr at h
  split at h
  case h_1 hop => exact encode_of_selectSpecial (BitVec.toNat_eq_nat.1 hop).2 h hz
  case h_2 hop => exact encode_of_selectRegimm (BitVec.toNat_eq_nat.1 hop).2 h
  case h_17 hop => exact encode_of_selectCop0 (BitVec.toNat_eq_nat.1 hop).2 h hz
  case h_30 => contradiction
  all_goals
    next hnumber =>
    obtain rfl := Option.some.inj h
    obtain ⟨-, hop⟩ := BitVec.toNat_eq_nat.1 hnumber
    simp only [Instr.fieldsZero, beq_iff_eq] at hz
    simp only [encode, iType_eq_iff, jType_eq_iff, hop, hz, and_self]

end Select

/-! ## The numbers the tables leave out (R116 to R119) -/

section Unassigned
variable {w : Word}

theorem selectInstr_eq_none
    (h : (17 ≤ (fieldOpcode w).toNat ∧ (fieldOpcode w).toNat ≤ 31) ∨ (fieldOpcode w).toNat = 39 ∨
      (fieldOpcode w).toNat = 44 ∨ (fieldOpcode w).toNat = 45 ∨ 47 ≤ (fieldOpcode w).toNat) : selectInstr w = none := by
  unfold selectInstr
  split
  case h_30 => rfl
  all_goals omega

theorem selectSpecial_eq_none
    (h : (fieldFunct w).toNat = 1 ∨ (fieldFunct w).toNat = 5 ∨ (fieldFunct w).toNat = 10 ∨ (fieldFunct w).toNat = 11 ∨
      (fieldFunct w).toNat = 14 ∨ (fieldFunct w).toNat = 15 ∨ (20 ≤ (fieldFunct w).toNat ∧ (fieldFunct w).toNat ≤ 23) ∨
      (28 ≤ (fieldFunct w).toNat ∧ (fieldFunct w).toNat ≤ 31) ∨ (fieldFunct w).toNat = 40 ∨
      (fieldFunct w).toNat = 41 ∨ 44 ≤ (fieldFunct w).toNat) : selectSpecial w = none := by
  unfold selectSpecial
  split
  case h_29 => rfl
  all_goals omega

theorem selectRegimm_eq_none
    (h : (2 ≤ (fieldRt w).toNat ∧ (fieldRt w).toNat ≤ 15) ∨ 18 ≤ (fieldRt w).toNat) : selectRegimm w = none := by
  unfold selectRegimm
  split
  case h_5 => rfl
  all_goals omega

theorem selectCop0_eq_none
    (h : ((fieldRs w).toNat ≠ 0 ∧ (fieldRs w).toNat ≠ 4 ∧ (fieldRs w).toNat ≠ 16) ∨
      ((fieldRs w).toNat = 16 ∧ (fieldFunct w).toNat ≠ 1 ∧ (fieldFunct w).toNat ≠ 2 ∧ (fieldFunct w).toNat ≠ 16)) :
    selectCop0 w = none := by
  unfold selectCop0
  split
  case h_3 =>
    split
    case h_4 => rfl
    all_goals omega
  case h_4 => rfl
  all_goals omega

end Unassigned

/-! ## A COP0 word with a function number other than 0 (R120) -/

theorem selectCop0_mfc0 {w : Word} (h : fieldRs w = 0#5) : selectCop0 w = some (.mfc0 (fieldRt w) (fieldRd w)) := by
  simp [selectCop0, h]

theorem selectCop0_mtc0 {w : Word} (h : fieldRs w = 4#5) : selectCop0 w = some (.mtc0 (fieldRt w) (fieldRd w)) := by
  simp [selectCop0, h]

theorem fieldsZero_mfc0 {w : Word} (h : fieldFunct w ≠ 0#6) (rt rd : Reg) :
    (Instr.mfc0 rt rd).fieldsZero w = false := by
  simp [Instr.fieldsZero, h]

theorem fieldsZero_mtc0 {w : Word} (h : fieldFunct w ≠ 0#6) (rt rd : Reg) :
    (Instr.mtc0 rt rd).fieldsZero w = false := by
  simp [Instr.fieldsZero, h]

end Sys2Proof
end

section
/-! Reserved words (spec 30_encoding R121; D4, D5): what a step does with a fetched word that decodes to no
instruction. -/

namespace Sys2Proof.Machine

/-! ## A fetched word in a step -/

section Fetched
variable {s t : State} {w : Word}

/-- A step in which the fetched word stops, or raises its policy's trap. -/
theorem step_of_instructionOf_error {e : Stop} (hq : s.quiet) (hf : fetch s.dropInput = .ok (w, t))
    (hi : instructionOf s.params w = .error e) : step s = settle t (.error e) := by
  simp [step, beginStep_of_quiet hq, beginInstruction, hf, hi]

/-- A step in which the fetched word is a no-op. -/
theorem step_of_instructionOf_none (hq : s.quiet) (hf : fetch s.dropInput = .ok (w, t))
    (hi : instructionOf s.params w = .ok none) : step s = .next t.advanceSeq := by
  simp [step, beginStep_of_quiet hq, beginInstruction, hf, hi]

/-- A step in which the fetched word stands for an instruction. -/
theorem step_of_instructionOf_some {i : Instr} (hq : s.quiet) (hf : fetch s.dropInput = .ok (w, t))
    (hi : instructionOf s.params w = .ok (some i)) : step s = exec i t := by
  simp [step, beginStep_of_quiet hq, beginInstruction, hf, hi]

end Fetched

/-! ## What a reserved word stands for -/

/-- RESERVED_POLICY decides where the word selects nothing, and under the strict decoder where a field is not zero. -/
theorem instructionOf_reserved {p : Params} {w : Word} {r : Reserved} (hd : decode w = .error r)
    (hr : r = .unassigned ∨ p.mustBeZero = .reserved) :
    (p.reserved = .refuse → instructionOf p w = .error (.refuse (.reservedEncoding w))) ∧
    (∀ c, p.reserved = .trap c → instructionOf p w = .error (.raise (.policyTrap c))) ∧
    (p.reserved = .nop → instructionOf p w = .ok none) := by
  cases r with
  | unassigned => simp +contextual [instructionOf, hd]
  | fieldNotZero i =>
    have hm : p.mustBeZero = .reserved := by simpa using hr
    simp +contextual [instructionOf, hd, hm]

/-- The loose decoder runs the instruction that the word selects (D5). -/
theorem instructionOf_loose {p : Params} {w : Word} {i : Instr} (hd : decode w = .error (.fieldNotZero i))
    (hm : p.mustBeZero = .ignored) : instructionOf p w = .ok (some i) := by
  simp [instructionOf, hd, hm]

end Sys2Proof.Machine
end

section
/-! The statements about the encoding (spec 30_encoding). -/

namespace Sys2Proof.Machine

/-- Settles O1: nine closed words, each decoded by evaluation. -/
theorem specExampleWordsDecode : Obligations.SpecExampleWordsDecode := by
  unfold Obligations.SpecExampleWordsDecode
  decide

/-- Settles O2: the word of an instruction selects it, and its must-be-zero fields are zero. -/
theorem decodeInvertsEncode : Obligations.DecodeInvertsEncode := fun i =>
  decode_eq_ok_iff.2 ⟨selectInstr_encode i, fieldsZero_encode i⟩

/-- Settles O3: what a word selects and the fields that must be zero give back every field of the word. -/
theorem encodeInvertsDecode : Obligations.EncodeInvertsDecode := by
  intro w i h
  obtain ⟨hs, hz⟩ := decode_eq_ok_iff.1 h
  exact encode_of_selectInstr hs hz

/-- Settles O4: the numbers select nothing in the table that the opcode leads to; MFC0 and MTC0 are selected by rs alone,
and R120 then looks at the function number. -/
theorem unassignedNumbersSelectNothing : Obligations.UnassignedNumbersSelectNothing := by
  intro w op funct rt rs
  refine ⟨fun h => ?_, fun hop h => ?_, fun hop h => ?_, fun hop h => ?_, fun hop hfn => ⟨fun hrs => ?_, fun hrs => ?_⟩⟩
  · exact decode_of_select_none (selectInstr_eq_none h)
  · have hs := selectInstr_special (BitVec.toNat_eq_nat.1 hop).2
    exact decode_of_select_none (hs.trans (selectSpecial_eq_none h))
  · have hs := selectInstr_regimm (BitVec.toNat_eq_nat.1 hop).2
    exact decode_of_select_none (hs.trans (selectRegimm_eq_none h))
  · have hs := selectInstr_cop0 (BitVec.toNat_eq_nat.1 hop).2
    exact decode_of_select_none (hs.trans (selectCop0_eq_none h))
  · have hs := selectInstr_cop0 (BitVec.toNat_eq_nat.1 hop).2
    have hm := selectCop0_mfc0 (BitVec.toNat_eq_nat.1 hrs).2
    exact decode_of_fieldsZero_false (hs.trans hm) (fieldsZero_mfc0 (BitVec.toNat_ne_iff_ne.1 hfn) _ _)
  · have hs := selectInstr_cop0 (BitVec.toNat_eq_nat.1 hop).2
    have hm := selectCop0_mtc0 (BitVec.toNat_eq_nat.1 hrs).2
    exact decode_of_fieldsZero_false (hs.trans hm) (fieldsZero_mtc0 (BitVec.toNat_ne_iff_ne.1 hfn) _ _)

/-- Settles O11: the fetched word is what the policies of D4 and D5 make of it, and the step goes on from there. -/
theorem reservedWordOutcome : Obligations.ReservedWordOutcome := by
  intro s t w r hq hf hd
  refine ⟨fun hr => ?_, fun i hi hm => ?_⟩
  · obtain ⟨refuse, trap, nop⟩ := instructionOf_reserved hd hr
    refine ⟨fun hp => ?_, fun c hp => ⟨t.enterException (.policyTrap c), ?_, ?_⟩, fun hp => ⟨t.advanceSeq, ?_, ?_, ?_⟩⟩
    · exact step_of_instructionOf_error hq hf (refuse hp)
    · exact step_of_instructionOf_error hq hf (trap c hp)
    · exact entered_enterException t (.policyTrap c)
    · exact step_of_instructionOf_none hq hf (nop hp)
    · exact sameData_of_pc t 0 ..
    · exact ⟨rfl, rfl, rfl⟩
  · subst hi
    exact step_of_instructionOf_some hq hf (instructionOf_loose hd hm)

end Sys2Proof.Machine
end

section
/-! The values and bytes of loads and stores (spec 40_load_store R140 to R152): what LWL and LWR merge, what SWL and SWR
put in the word, and what a pair of them does with the four bytes from an address on. -/

namespace Sys2Proof.Machine

/-! ## The bytes of a word -/

theorem byteOf_eq_of_bits {x y : Word} {j k : Nat} (h : ∀ i < 8, x.getLsbD (8 * j + i) = y.getLsbD (8 * k + i)) :
    byteOf x j = byteOf y k := by
  apply BitVec.eq_of_getLsbD_eq
  intro i hi
  simp only [byteOf, BitVec.getLsbD_extractLsb', h i hi]

theorem byteOf_wordOfBytes (b0 b1 b2 b3 : Byte) :
    byteOf (wordOfBytes b0 b1 b2 b3) 0 = b0 ∧ byteOf (wordOfBytes b0 b1 b2 b3) 1 = b1 ∧
      byteOf (wordOfBytes b0 b1 b2 b3) 2 = b2 ∧ byteOf (wordOfBytes b0 b1 b2 b3) 3 = b3 := by
  have := b0.isLt; have := b1.isLt; have := b2.isLt; have := b3.isLt
  refine ⟨?_, ?_, ?_, ?_⟩ <;>
  · apply BitVec.eq_of_toNat_eq
    simp only [byteOf, wordOfBytes, toNat_field, toNat_append_add]
    omega

/-! A word of which some bytes are those of another. -/

section KeptBytes
variable (x : Word) (b c : Byte)

theorem wordOfBytes_low24 :
    wordOfBytes (byteOf x 0) (byteOf x 1) (byteOf x 2) b = b ++ x.extractLsb' 0 24 := by
  apply BitVec.eq_of_toNat_eq
  simp only [wordOfBytes, byteOf, toNat_append_add, toNat_field]
  omega

theorem wordOfBytes_low16 :
    wordOfBytes (byteOf x 0) (byteOf x 1) b c = c ++ b ++ x.extractLsb' 0 16 := by
  apply BitVec.eq_of_toNat_eq
  simp only [wordOfBytes, byteOf, toNat_append_add, toNat_field]
  omega

theorem wordOfBytes_high16 :
    wordOfBytes b c (byteOf x 2) (byteOf x 3) = x.extractLsb' 16 16 ++ c ++ b := by
  apply BitVec.eq_of_toNat_eq
  simp only [wordOfBytes, byteOf, toNat_append_add, toNat_field]
  omega

theorem wordOfBytes_high24 :
    wordOfBytes b (byteOf x 1) (byteOf x 2) (byteOf x 3) = x.extractLsb' 8 24 ++ b := by
  apply BitVec.eq_of_toNat_eq
  simp only [wordOfBytes, byteOf, toNat_append_add, toNat_field]
  omega

end KeptBytes

/-! ## Memory read as a value (20_memory R61) -/

theorem Memory.value_byte (m : Memory) (pa : Word) :
    m.value pa .byte = (m.byteAt (pa + BitVec.ofNat 32 0)).setWidth 32 := by
  rw [BitVec.add_zero]
  exact wordOfBytes_byte _

theorem Memory.value_half (m : Memory) (pa : Word) :
    m.value pa .half =
      (m.byteAt (pa + BitVec.ofNat 32 1) ++ m.byteAt (pa + BitVec.ofNat 32 0)).setWidth 32 := by
  rw [BitVec.add_zero]
  exact wordOfBytes_half _ _

theorem Memory.value_word (m : Memory) (pa : Word) :
    m.value pa .word = m.byteAt (pa + BitVec.ofNat 32 3) ++ m.byteAt (pa + BitVec.ofNat 32 2) ++
      m.byteAt (pa + BitVec.ofNat 32 1) ++ m.byteAt (pa + BitVec.ofNat 32 0) := by
  rw [BitVec.add_zero]
  rfl

theorem Memory.byteOf_value (m : Memory) (pa : Word) {k : Nat} (hk : k < 4) :
    byteOf (m.value pa .word) k = m.byteAt (pa + BitVec.ofNat 32 k) := by
  obtain ⟨h0, h1, h2, h3⟩ :=
    byteOf_wordOfBytes (m.byteAt pa) (m.byteAt (pa + 1#32)) (m.byteAt (pa + 2#32)) (m.byteAt (pa + 3#32))
  obtain rfl | rfl | rfl | rfl : k = 0 ∨ k = 1 ∨ k = 2 ∨ k = 3 := by omega
  · rw [BitVec.add_zero]; exact h0
  · exact h1
  · exact h2
  · exact h3

/-! ## What LWL and LWR merge (R149, R150) -/

section Merge
variable {b j : Nat} (w old : Word)

theorem mergeLeft_high {k : Nat} (hb : 8 * (3 - b) ≤ k) (hk : k < 32) :
    (mergeLeft b w old).getLsbD k = w.getLsbD (k - 8 * (3 - b)) := by
  have hn : ¬ k < 8 * (3 - b) := by omega
  simp only [mergeLeft, BitVec.getLsbD_or, BitVec.getLsbD_shiftLeft, BitVec.getLsbD_and, BitVec.getLsbD_ofNat,
    Nat.testBit_two_pow_sub_one, hn, hk, decide_true, decide_false, Bool.not_false, Bool.and_false, Bool.true_and,
    Bool.or_false]

theorem mergeRight_low {k : Nat} (hk : k < 32 - 8 * b) :
    (mergeRight b w old).getLsbD k = w.getLsbD (8 * b + k) := by
  have h32 : k < 32 := by omega
  have hones : (0xFFFFFFFF#32).getLsbD (8 * b + k) = true := by
    rw [show 0xFFFFFFFF#32 = BitVec.allOnes 32 from rfl, BitVec.getLsbD_allOnes, decide_eq_true_eq]
    omega
  simp only [mergeRight, BitVec.getLsbD_or, BitVec.getLsbD_and, BitVec.getLsbD_not, BitVec.getLsbD_ushiftRight, hones,
    h32, decide_true, Bool.not_true, Bool.and_false, Bool.or_false]

theorem byteOf_mergeLeft (hj : j < 4) :
    byteOf (mergeLeft b w old) j = if j < 3 - b then byteOf old j else byteOf w (j - (3 - b)) := by
  split
  · exact byteOf_eq_of_bits fun i hi => mergeLeft_low w old (by omega)
  · refine byteOf_eq_of_bits fun i hi => ?_
    rw [mergeLeft_high w old (by omega) (by omega), show 8 * j + i - 8 * (3 - b) = 8 * (j - (3 - b)) + i by omega]

theorem byteOf_mergeRight (hj : j < 4) :
    byteOf (mergeRight b w old) j = if j < 4 - b then byteOf w (b + j) else byteOf old j := by
  split
  · refine byteOf_eq_of_bits fun i hi => ?_
    rw [mergeRight_low w old (by omega), show 8 * b + (8 * j + i) = 8 * (b + j) + i by omega]
  · exact byteOf_eq_of_bits fun i hi => mergeRight_high w old (by omega) (by omega)

/-- The table of R149. -/
theorem mergeLeft_table (hb : b < 4) :
    mergeLeft b w old =
      if b = 0 then byteOf w 0 ++ old.extractLsb' 0 24
      else if b = 1 then byteOf w 1 ++ byteOf w 0 ++ old.extractLsb' 0 16
      else if b = 2 then byteOf w 2 ++ byteOf w 1 ++ byteOf w 0 ++ old.extractLsb' 0 8
      else byteOf w 3 ++ byteOf w 2 ++ byteOf w 1 ++ byteOf w 0 := by
  rw [← wordOfBytes_byteOf (mergeLeft b w old), byteOf_mergeLeft _ _ (by decide), byteOf_mergeLeft _ _ (by decide),
    byteOf_mergeLeft _ _ (by decide), byteOf_mergeLeft _ _ (by decide)]
  obtain rfl | rfl | rfl | rfl : b = 0 ∨ b = 1 ∨ b = 2 ∨ b = 3 := by omega
  · exact wordOfBytes_low24 old _
  · exact wordOfBytes_low16 old _ _
  · rfl
  · rfl

/-- The table of R150. -/
theorem mergeRight_table (hb : b < 4) :
    mergeRight b w old =
      if b = 0 then byteOf w 3 ++ byteOf w 2 ++ byteOf w 1 ++ byteOf w 0
      else if b = 1 then old.extractLsb' 24 8 ++ byteOf w 3 ++ byteOf w 2 ++ byteOf w 1
      else if b = 2 then old.extractLsb' 16 16 ++ byteOf w 3 ++ byteOf w 2
      else old.extractLsb' 8 24 ++ byteOf w 3 := by
  rw [← wordOfBytes_byteOf (mergeRight b w old), byteOf_mergeRight _ _ (by decide), byteOf_mergeRight _ _ (by decide),
    byteOf_mergeRight _ _ (by decide), byteOf_mergeRight _ _ (by decide)]
  obtain rfl | rfl | rfl | rfl : b = 0 ∨ b = 1 ∨ b = 2 ∨ b = 3 := by omega
  · rfl
  · rfl
  · exact wordOfBytes_high16 old _ _
  · exact wordOfBytes_high24 old _

end Merge

/-! ## What SWL and SWR store (R151, R152) -/

/-- The table of R151. -/
theorem leftBytes_table (v : Word) {b : Nat} (hb : b < 4) :
    leftBytes v b =
      if b = 0 then [byteOf v 3] else if b = 1 then [byteOf v 2, byteOf v 3]
      else if b = 2 then [byteOf v 1, byteOf v 2, byteOf v 3]
      else [byteOf v 0, byteOf v 1, byteOf v 2, byteOf v 3] := by
  obtain rfl | rfl | rfl | rfl : b = 0 ∨ b = 1 ∨ b = 2 ∨ b = 3 := by omega
  all_goals rfl

/-- The table of R152. -/
theorem rightBytes_table (v : Word) {b : Nat} (hb : b < 4) :
    rightBytes v b =
      if b = 0 then [byteOf v 0, byteOf v 1, byteOf v 2, byteOf v 3]
      else if b = 1 then [byteOf v 0, byteOf v 1, byteOf v 2]
      else if b = 2 then [byteOf v 0, byteOf v 1] else [byteOf v 0] := by
  obtain rfl | rfl | rfl | rfl : b = 0 ∨ b = 1 ∨ b = 2 ∨ b = 3 := by omega
  all_goals rfl

@[simp] theorem leftBytes_length (v : Word) (b : Nat) : (leftBytes v b).length = b + 1 := by simp [leftBytes]

@[simp] theorem rightBytes_length (v : Word) (b : Nat) : (rightBytes v b).length = 4 - b := by simp [rightBytes]

theorem leftBytes_getElem (v : Word) (b k : Nat) (hk : k < (leftBytes v b).length) :
    (leftBytes v b)[k] = byteOf v (3 - b + k) := by
  simp [leftBytes]

theorem rightBytes_getElem (v : Word) (b k : Nat) (hk : k < (rightBytes v b).length) :
    (rightBytes v b)[k] = byteOf v k := by
  simp [rightBytes]

/-- Bytes written one by one to RAM stand there as one write of them all. -/
theorem physWriteBytes_ram {s : State} {pa : Word} {bytes : List Byte}
    (h : ∀ k < bytes.length, kindAt s.params (pa + BitVec.ofNat 32 k) = some .ram) :
    ∃ t, physWriteBytes s pa bytes = .ok t ∧ t.mem = s.mem.setBytes pa bytes ∧ t.outputs = s.outputs := by
  induction bytes generalizing s pa with
  | nil => exact ⟨s, rfl, rfl, rfl⟩
  | cons b rest ih =>
    have hfirst := physWrite_ram .byte (b.setWidth 32) (by simpa using h 0 (by simp))
    have hb : Size.byte.split (b.setWidth 32) = [b] := by
      rw [Size.split, byteOf, ← BitVec.setWidth_eq_extractLsb' (by decide), BitVec.setWidth_setWidth_of_le _ (by decide),
        BitVec.setWidth_eq]
    rw [hb] at hfirst
    obtain ⟨t, ht, hmem, hout⟩ :=
      ih (s := { s with mem := s.mem.setBytes pa [b], fetched := s.fetchedAfterStore pa }) (pa := pa + 1#32)
        fun k hk => by rw [add_one_add_ofNat]; exact h (k + 1) (by simpa using hk)
    exact ⟨t, by simpa only [physWriteBytes, hfirst] using ht, hmem, hout⟩

/-! ## The twelve instructions, in the statements' terms -/

/-- A word of the encoder decodes to its instruction, so it runs as that instruction answers. -/
theorem RunsAs.of_exec {w : Word} {i : Instr} {s : State} {post : State → Prop} (hw : encode i = w)
    (h : ∃ t, exec i s = .next t ∧ post t) : RunsAs w i s post :=
  ⟨hw ▸ decodeInvertsEncode i, h⟩

section Forms
variable {i : Instr} {s : State} {rt rs : Reg} {imm : BitVec 16} {addr pa : Word}

theorem LoadsValue.of_loadMerged {merge : Nat → Word → Word → Word} (hi : exec i s = loadMerged merge rt rs imm s)
    (hl : s.lookup (effectiveAddress s rs imm) = some pa) (hk : isMemory s pa) :
    LoadsValue i s rt
      (merge ((effectiveAddress s rs imm).toNat % 4) (s.mem.value (wordBase pa) .word) (s.gpr rt)) := by
  have hread := physRead_memory (s := s) .word (by rwa [isMemory, kindAt_wordBase] : isMemory s (wordBase pa))
  have hx := loadMerged_of_read (f := merge) (rt := rt) hl hread
  rw [byteOffset_eq] at hx
  exact ⟨_, hi.trans hx, onlyGpr_setGpr s rt _ 0, rfl, rfl, rfl⟩

theorem StoresBytes.of_storeAround {k : Nat} {bytes : List Byte} (hi : exec i s = storeAround s addr k bytes)
    (hl : s.lookup addr = some pa) (hk : kindAt s.params pa = some .ram) (hne : bytes ≠ [])
    (hlen : k + bytes.length ≤ 4) : StoresBytes i s (wordBase pa + BitVec.ofNat 32 k) bytes := by
  have hpos : 0 < bytes.length := List.length_pos_iff.2 hne
  have hram (j : Nat) (hj : j < bytes.length) :
      kindAt s.params (wordBase pa + BitVec.ofNat 32 k + BitVec.ofNat 32 j) = some .ram := by
    rw [BitVec.add_assoc, ← BitVec.ofNat_add, kindAt_wordBase_add _ _ (by omega), hk]
  obtain ⟨t, hw, hmem, hout⟩ := physWriteBytes_ram hram
  have hs := physWriteBytes_stored hw
  have hbase := wordBase_add_toNat pa (k := k) (by omega)
  have hnoted := StoreNoted.of_physWriteBytes hne (by omega) hw
  have hstored (j : Nat) (hj : j < bytes.length) :
      t.mem.byteAt (wordBase pa + BitVec.ofNat 32 k + BitVec.ofNat 32 j) = bytes[j] := by
    rw [hmem]
    exact Memory.byteAt_setBytes_inside _ _ _ (by omega) j hj
  exact ⟨_, hi.trans (storeAround_of_write hl hw), ⟨hstored, hs.outside, hs.gprs, hs.hi, hs.lo, hs.control, hs.inputs,
    hout, hs.draws, hnoted.congr rfl rfl, hs.params⟩, hs.sequential⟩

theorem StoresBytes.of_swl (hl : s.lookup (effectiveAddress s rs imm) = some pa)
    (hk : kindAt s.params pa = some .ram) :
    StoresBytes (.swl rt rs imm) s (wordBase pa)
      (leftBytes (s.gpr rt) ((effectiveAddress s rs imm).toNat % 4)) := by
  have hx : exec (.swl rt rs imm) s = storeAround s (effectiveAddress s rs imm) 0
      (leftBytes (s.gpr rt) ((effectiveAddress s rs imm).toNat % 4)) := by
    rw [← byteOffset_eq]; rfl
  have h := StoresBytes.of_storeAround hx hl hk (List.length_pos_iff.1 (by simp)) (by rw [leftBytes_length]; omega)
  rwa [BitVec.add_zero] at h

theorem StoresBytes.of_swr (hl : s.lookup (effectiveAddress s rs imm) = some pa)
    (hk : kindAt s.params pa = some .ram) :
    StoresBytes (.swr rt rs imm) s (wordBase pa + BitVec.ofNat 32 ((effectiveAddress s rs imm).toNat % 4))
      (rightBytes (s.gpr rt) ((effectiveAddress s rs imm).toNat % 4)) := by
  have hx : exec (.swr rt rs imm) s = storeAround s (effectiveAddress s rs imm)
      ((effectiveAddress s rs imm).toNat % 4) (rightBytes (s.gpr rt) ((effectiveAddress s rs imm).toNat % 4)) := by
    rw [← byteOffset_eq]; rfl
  exact .of_storeAround hx hl hk (List.length_pos_iff.1 (by rw [rightBytes_length]; omega))
    (by rw [rightBytes_length]; omega)

/-! A miss of the address itself (R140). -/

theorem loadMerged_of_miss {merge : Nat → Word → Word → Word}
    (hl : s.lookup (effectiveAddress s rs imm) = none) :
    loadMerged merge rt rs imm s = .next (s.enterException (.tlbMiss (effectiveAddress s rs imm))) := by
  rw [loadMerged, readWordAround, translate_of_miss hl]
  rfl

theorem storeAround_of_miss {k : Nat} {bytes : List Byte} (hl : s.lookup addr = none) :
    storeAround s addr k bytes = .next (s.enterException (.tlbMiss addr)) := by
  rw [storeAround, writeBytesAround, translate_of_miss hl]
  rfl

theorem enters_of_loadMerged {merge : Nat → Word → Word → Word} (hi : exec i s = loadMerged merge rt rs imm s)
    (hl : s.lookup (effectiveAddress s rs imm) = none) :
    ∃ t, exec i s = .next t ∧ Entered s t 1#5 (effectiveAddress s rs imm) :=
  ⟨_, hi.trans (loadMerged_of_miss hl), entered_enterException s (.tlbMiss _)⟩

theorem enters_of_storeAround {k : Nat} {bytes : List Byte} (hi : exec i s = storeAround s addr k bytes)
    (hl : s.lookup addr = none) : ∃ t, exec i s = .next t ∧ Entered s t 1#5 addr :=
  ⟨_, hi.trans (storeAround_of_miss hl), entered_enterException s (.tlbMiss _)⟩

end Forms

/-! ## The four bytes from an address on (R150, R152) -/

/-- An aligned word translates as a whole. -/
theorem State.lookup_sameWord {s : State} {va va' pa pa' : Word} (h : s.lookup va = some pa)
    (h' : s.lookup va' = some pa') (hw : va'.toNat / 4 = va.toNat / 4) :
    pa' = wordBase pa + BitVec.ofNat 32 (va'.toNat % 4) := by
  obtain ⟨f, hf⟩ := State.lookup_page h
  have hpa : pa = f ++ va.extractLsb' 0 12 := Option.some_inj.1 (h.symm.trans (hf va rfl))
  have hpa' : pa' = f ++ va'.extractLsb' 0 12 := Option.some_inj.1 (h'.symm.trans (hf va' (by omega)))
  apply BitVec.eq_of_toNat_eq
  rw [wordBase_add_toNat pa (Nat.mod_lt _ (by decide)), hpa, hpa', append_low_toNat, append_low_toNat]
  omega

/-- The bytes at `p` to `p + 3` translate to `pa 0` to `pa 3`. -/
def PlacedAt (s : State) (p : Word) (pa : Nat → Word) : Prop := ∀ j < 4, s.lookup (p + BitVec.ofNat 32 j) = some (pa j)

/-- Byte `j` of the four from `p` on lies in the aligned word of the first: LWR and SWR at `p` reach it. -/
def RightPart (p : Word) (j : Nat) : Prop := j < 4 - p.toNat % 4

/-- Byte `j` of the four from `p` on lies in the aligned word of the last: LWL and SWL at `p + 3` reach it. -/
def LeftPart (p : Word) (j : Nat) : Prop := 3 - (p + 3#32).toNat % 4 ≤ j

theorem rightPart_or_leftPart (p : Word) (j : Nat) : RightPart p j ∨ LeftPart p j := by
  rw [RightPart, LeftPart, BitVec.toNat_add, BitVec.toNat_ofNat]
  omega

section Placed
variable {s t : State} {p : Word} {pa : Nat → Word}

theorem PlacedAt.first (h : PlacedAt s p pa) : s.lookup p = some (pa 0) := by simpa using h 0 (by decide)

theorem PlacedAt.last (h : PlacedAt s p pa) : s.lookup (p + 3#32) = some (pa 3) := h 3 (by decide)

theorem PlacedAt.congr (h : PlacedAt s p pa) (ht : t.tlb = s.tlb) : PlacedAt t p pa := fun j hj =>
  (State.lookup_congr ht _).trans (h j hj)

theorem PlacedAt.right (h : PlacedAt s p pa) {j : Nat} (hj : RightPart p j) :
    pa j = wordBase (pa 0) + BitVec.ofNat 32 (p.toNat % 4 + j) := by
  rw [RightPart] at hj
  have := p.isLt
  have hsum : (p + BitVec.ofNat 32 j).toNat = p.toNat + j := by
    rw [BitVec.toNat_add, BitVec.toNat_ofNat]; omega
  rw [State.lookup_sameWord h.first (h j (by omega)) (by omega), hsum,
    show (p.toNat + j) % 4 = p.toNat % 4 + j by omega]

theorem PlacedAt.left (h : PlacedAt s p pa) {j : Nat} (hj : j < 4) (hl : LeftPart p j) :
    pa j = wordBase (pa 3) + BitVec.ofNat 32 (j - (3 - (p + 3#32).toNat % 4)) := by
  rw [LeftPart] at hl
  have hsum : (p + BitVec.ofNat 32 j).toNat = (p.toNat + j) % 2 ^ 32 := by
    rw [BitVec.toNat_add, BitVec.toNat_ofNat]; omega
  have hlast : (p + 3#32).toNat = (p.toNat + 3) % 2 ^ 32 := by rw [BitVec.toNat_add, BitVec.toNat_ofNat]
  rw [State.lookup_sameWord h.last (h j hj) (by omega), hsum,
    show (p.toNat + j) % 2 ^ 32 % 4 = j - (3 - (p + 3#32).toNat % 4) by omega]

/-- Translation keeps the low bits, so the four bytes lie at four addresses. -/
theorem PlacedAt.injective (h : PlacedAt s p pa) {j k : Nat} (hj : j < 4) (hk : k < 4) (he : pa j = pa k) : j = k := by
  have hoffj := State.lookup_offset (h j hj)
  have hoffk := State.lookup_offset (h k hk)
  rw [he] at hoffj
  rw [BitVec.toNat_add, BitVec.toNat_ofNat] at hoffj hoffk
  omega

end Placed

theorem effectiveAddress_zero (s : State) (rs : Reg) : effectiveAddress s rs 0 = s.gpr rs :=
  BitVec.add_zero _

theorem effectiveAddress_three (s : State) (rs : Reg) : effectiveAddress s rs 3 = s.gpr rs + 3#32 := rfl

/-! ## LWR and LWL together (R150) -/

/-- Of the value `v`, the bytes of `part` are those that memory holds at `pa`, the others those of `old`. -/
structure PartLoaded (m : Memory) (pa : Nat → Word) (part : Nat → Prop) (old v : Word) : Prop where
  loaded : ∀ j < 4, part j → byteOf v j = m.byteAt (pa j)
  kept : ∀ j < 4, ¬ part j → byteOf v j = byteOf old j

/-- `i` leaves in `rt` the bytes of `part` from memory at `pa` and keeps the others. -/
def LoadsPart (i : Instr) (s : State) (rt : Reg) (pa : Nat → Word) (part : Nat → Prop) : Prop :=
  ∃ v, LoadsValue i s rt v ∧ PartLoaded s.mem pa part (s.gpr rt) v

section LoadPair
variable {s : State} {rt rs : Reg} {pa : Nat → Word}

theorem LoadsPart.of_lwr (h : PlacedAt s (s.gpr rs) pa) (hk : isMemory s (pa 0)) :
    LoadsPart (.lwr rt rs 0) s rt pa (RightPart (s.gpr rs)) := by
  have hv := LoadsValue.of_loadMerged (i := .lwr rt rs 0) (rt := rt) (imm := 0) rfl
    (by rw [effectiveAddress_zero]; exact h.first) hk
  rw [effectiveAddress_zero] at hv
  refine ⟨_, hv, fun j hj hpart => ?_, fun j hj hpart => ?_⟩
  · rw [RightPart] at hpart
    rw [byteOf_mergeRight _ _ hj, if_pos hpart, Memory.byteOf_value _ _ (by omega), ← h.right hpart]
  · rw [RightPart] at hpart
    rw [byteOf_mergeRight _ _ hj, if_neg hpart]

theorem LoadsPart.of_lwl (h : PlacedAt s (s.gpr rs) pa) (hk : isMemory s (pa 3)) :
    LoadsPart (.lwl rt rs 3) s rt pa (LeftPart (s.gpr rs)) := by
  have hv := LoadsValue.of_loadMerged (i := .lwl rt rs 3) (rt := rt) (imm := 3) rfl
    (by rw [effectiveAddress_three]; exact h.last) hk
  rw [effectiveAddress_three] at hv
  refine ⟨_, hv, fun j hj hpart => ?_, fun j hj hpart => ?_⟩
  · rw [byteOf_mergeLeft _ _ hj, if_neg (Nat.not_lt.2 hpart), Memory.byteOf_value _ _ (by omega), ← h.left hj hpart]
  · rw [byteOf_mergeLeft _ _ hj, if_pos (Nat.lt_of_not_le hpart)]

/-- Two loads of parts that cover the word, in this order, load the word. -/
theorem LoadsPart.pair {first second : Instr} {part part' : Nat → Prop} (hrt : rt ≠ 0#5)
    (h : LoadsPart first s rt pa part) (g : ∀ t v, OnlyGpr s t rt v 0 → LoadsPart second t rt pa part')
    (hcover : ∀ j, part j ∨ part' j) :
    ∃ t u, exec first s = .next t ∧ exec second t = .next u ∧
      u.gpr rt = s.mem.byteAt (pa 3) ++ s.mem.byteAt (pa 2) ++ s.mem.byteAt (pa 1) ++ s.mem.byteAt (pa 0) := by
  obtain ⟨v, ⟨t, hx, ht, -⟩, hv⟩ := h
  obtain ⟨w, ⟨u, hy, hu, -⟩, hw⟩ := g t v ht
  have hold : t.gpr rt = v := by rw [ht.dest, if_neg hrt]
  have hbytes (j : Nat) (hj : j < 4) : byteOf w j = s.mem.byteAt (pa j) := by
    by_cases hp : part' j
    · rw [hw.loaded j hj hp, ht.rest.memory]
    · rw [hw.kept j hj hp, hold, hv.loaded j hj ((hcover j).resolve_right hp)]
  refine ⟨t, u, hx, hy, ?_⟩
  calc u.gpr rt = w := by rw [hu.dest, if_neg hrt]
    _ = wordOfBytes (byteOf w 0) (byteOf w 1) (byteOf w 2) (byteOf w 3) := (wordOfBytes_byteOf w).symm
    _ = _ := by
      rw [hbytes 0 (by decide), hbytes 1 (by decide), hbytes 2 (by decide), hbytes 3 (by decide)]
      rfl

end LoadPair

/-! ## SWR and SWL together (R152) -/

/-- The bytes of `part` of `v` stand in memory at `pa`, and every byte elsewhere reads as before. -/
structure PartStored (s t : State) (pa : Nat → Word) (part : Nat → Prop) (v : Word) : Prop where
  stored : ∀ j < 4, part j → t.mem.byteAt (pa j) = byteOf v j
  outside : ∀ a, (∀ j < 4, part j → a ≠ pa j) → t.mem.byteAt a = s.mem.byteAt a

section StorePair
variable {s t u : State} {rt rs : Reg} {pa : Nat → Word} {v : Word}

/-- Bytes `d` on of a word, stored together, are a part of it. -/
theorem PartStored.of_onlyBytes {q : Word} {bytes : List Byte} {part : Nat → Prop} {d : Nat}
    (h : OnlyBytes s t q bytes) (hlen : d + bytes.length ≤ 4)
    (hpart : ∀ j < 4, part j ↔ d ≤ j ∧ j < d + bytes.length)
    (hpa : ∀ j < 4, part j → pa j = q + BitVec.ofNat 32 (j - d))
    (hv : ∀ k, (hk : k < bytes.length) → bytes[k] = byteOf v (d + k)) : PartStored s t pa part v where
  stored j hj hp := by
    obtain ⟨hd, hn⟩ := (hpart j hj).1 hp
    rw [hpa j hj hp, h.stored (j - d) (by omega), hv, Nat.add_sub_cancel' hd]
  outside a ha := by
    refine h.outside a ?_
    rintro ⟨k, hk, rfl⟩
    have hp : part (d + k) := (hpart (d + k) (by omega)).2 (by omega)
    exact ha (d + k) (by omega) hp (by rw [hpa _ (by omega) hp, Nat.add_sub_cancel_left])

/-- SWR stores its part and leaves alone what SWL after it asks for: the registers, the TLB and the map. -/
theorem storesPart_of_swr (h : PlacedAt s (s.gpr rs) pa) (hk : kindAt s.params (pa 0) = some .ram) :
    ∃ t, exec (.swr rt rs 0) s = .next t ∧ SameGprs s t ∧ t.tlb = s.tlb ∧ t.params = s.params ∧
      PartStored s t pa (RightPart (s.gpr rs)) (s.gpr rt) := by
  obtain ⟨t, hx, ht, -⟩ := StoresBytes.of_swr (rt := rt) (imm := 0) (by rw [effectiveAddress_zero]; exact h.first) hk
  rw [effectiveAddress_zero] at ht
  refine ⟨t, hx, ht.gprs, ht.control.tlb, ht.params, .of_onlyBytes (d := 0) ht ?_ ?_ ?_ ?_⟩
  · rw [rightBytes_length]; omega
  · intro j hj
    rw [RightPart, rightBytes_length]; omega
  · intro j hj hp
    rw [h.right hp, BitVec.ofNat_add, ← BitVec.add_assoc, Nat.sub_zero]
  · intro k hk
    rw [rightBytes_getElem, Nat.zero_add]

theorem storesPart_of_swl (h : PlacedAt s (s.gpr rs) pa) (hk : kindAt s.params (pa 3) = some .ram) :
    ∃ t, exec (.swl rt rs 3) s = .next t ∧ PartStored s t pa (LeftPart (s.gpr rs)) (s.gpr rt) := by
  obtain ⟨t, hx, ht, -⟩ := StoresBytes.of_swl (rt := rt) (imm := 3) (by rw [effectiveAddress_three]; exact h.last) hk
  rw [effectiveAddress_three] at ht
  refine ⟨t, hx, .of_onlyBytes (d := 3 - (s.gpr rs + 3#32).toNat % 4) ht ?_ ?_ (fun j => h.left) (leftBytes_getElem _ _)⟩
  · rw [leftBytes_length]; omega
  · intro j hj
    rw [LeftPart, leftBytes_length]; omega

/-- Two stores of parts that cover the word store the word: what the second leaves alone stands from the first. -/
theorem PartStored.pair {part part' : Nat → Prop} (h : PartStored s t pa part v) (g : PartStored t u pa part' v)
    (hinj : ∀ j < 4, ∀ k < 4, pa j = pa k → j = k) (hcover : ∀ j, part j ∨ part' j) :
    (∀ j < 4, u.mem.byteAt (pa j) = byteOf v j) ∧
      ∀ a, (∀ j < 4, a ≠ pa j) → u.mem.byteAt a = s.mem.byteAt a := by
  refine ⟨fun j hj => ?_, fun a ha => ?_⟩
  · by_cases hp : part' j
    · exact g.stored j hj hp
    · have hkept : u.mem.byteAt (pa j) = t.mem.byteAt (pa j) :=
        g.outside _ fun k hk hpk he => hp (hinj j hj k hk he ▸ hpk)
      rw [hkept, h.stored j hj ((hcover j).resolve_right hp)]
  · rw [g.outside a fun j hj _ => ha j hj, h.outside a fun j hj _ => ha j hj]

end StorePair

end Sys2Proof.Machine
end

section
/-! The statements about loads and stores (spec 40_load_store). -/

namespace Sys2Proof.Machine

/-- Settles O28: each value is the little-endian one that memory gives, extended as the load says. -/
theorem alignedLoads : Obligations.AlignedLoads := by
  intro s rt rs imm pa addr byte runs hl hk
  have value {i : Instr} {sz : Size} {f : Word → Word} {v : Word} (hi : exec i s = loadInto sz f rt rs imm s)
      (ha : alignedFor sz addr = true) (hv : f (s.mem.value pa sz) = v) : LoadsValue i s rt v :=
    hv ▸ .of_loadInto hi (.of_aligned ha hl) hk
  refine ⟨.of_exec rfl (value rfl rfl ?_), .of_exec rfl (value rfl rfl ?_),
    fun h => ⟨.of_exec rfl (value rfl (alignedFor_half h) ?_), .of_exec rfl (value rfl (alignedFor_half h) ?_)⟩,
    fun h => .of_exec rfl (value rfl (alignedFor_word h) ?_)⟩
  · rw [Memory.value_byte, signExtendByte_setWidth]
  · exact Memory.value_byte _ _
  · rw [Memory.value_half, signExtendHalf_setWidth]
  · exact Memory.value_half _ _
  · exact Memory.value_word _ _

/-- Settles O29: what is stored is the split of the register at the width of the store, low byte first. -/
theorem alignedStores : Obligations.AlignedStores := by
  intro s rt rs imm pa addr byte runs hl hk
  have stores {i : Instr} {sz : Size} (hi : exec i s = storeFrom sz rt rs imm s) (ha : alignedFor sz addr = true) :
      StoresBytes i s pa (sz.split (s.gpr rt)) := .of_storeFrom hi (.of_aligned ha hl) hk
  exact ⟨.of_exec rfl (stores (sz := .byte) rfl rfl),
    fun h => .of_exec rfl (stores (sz := .half) rfl (alignedFor_half h)),
    fun h => .of_exec rfl (stores (sz := .word) rfl (alignedFor_word h))⟩

/-- Settles O30: what is merged is the aligned word that memory holds around the address. -/
theorem unalignedLoads : Obligations.UnalignedLoads := by
  intro s rt rs imm pa addr b old byte left right hl hk
  have hb : b < 4 := Nat.mod_lt _ (by decide)
  have hbyte (k : Nat) (h : k < 4) : byteOf (s.mem.value (wordBase pa) .word) k = byte k := Memory.byteOf_value _ _ h
  have hleft : mergeLeft b (s.mem.value (wordBase pa) .word) old = left := by
    rw [mergeLeft_table _ _ hb, hbyte 0 (by decide), hbyte 1 (by decide), hbyte 2 (by decide), hbyte 3 (by decide)]
  have hright : mergeRight b (s.mem.value (wordBase pa) .word) old = right := by
    rw [mergeRight_table _ _ hb, hbyte 0 (by decide), hbyte 1 (by decide), hbyte 2 (by decide), hbyte 3 (by decide)]
  rw [← hleft, ← hright]
  exact ⟨.of_exec rfl (LoadsValue.of_loadMerged rfl hl hk), .of_exec rfl (LoadsValue.of_loadMerged rfl hl hk)⟩

/-- Settles O31: SWL stores from the start of the aligned word on, SWR from the address itself on. -/
theorem unalignedStores : Obligations.UnalignedStores := by
  intro s rt rs imm pa addr b word byte left right hl hk
  have hb : b < 4 := Nat.mod_lt _ (by decide)
  have hleft : leftBytes (s.gpr rt) b = left := leftBytes_table _ hb
  have hright : rightBytes (s.gpr rt) b = right := rightBytes_table _ hb
  rw [← hleft, ← hright]
  exact ⟨.of_exec rfl (StoresBytes.of_swl hl hk), .of_exec rfl (StoresBytes.of_swr hl hk)⟩

/-- Settles O36: the four unaligned ones ask for no alignment, and the other eight are aligned. -/
theorem dataMissEntersException : Obligations.DataMissEntersException := by
  intro s rt rs imm addr misses hl
  have load {i : Instr} {sz : Size} {f : Word → Word} (hi : exec i s = loadInto sz f rt rs imm s)
      (ha : alignedFor sz addr = true) : misses i := enters_of_loadInto hi (accessAddress_of_aligned ha) hl
  have store {i : Instr} {sz : Size} (hi : exec i s = storeFrom sz rt rs imm s)
      (ha : alignedFor sz addr = true) : misses i := enters_of_storeFrom hi (accessAddress_of_aligned ha) hl
  exact ⟨load rfl rfl, load rfl rfl, store rfl rfl, enters_of_loadMerged rfl hl, enters_of_loadMerged rfl hl,
    enters_of_storeAround rfl hl, enters_of_storeAround rfl hl,
    fun h => ⟨load rfl (alignedFor_half h), load rfl (alignedFor_half h), store rfl (alignedFor_half h)⟩,
    fun h => ⟨load rfl (alignedFor_word h), store rfl (alignedFor_word h)⟩⟩

/-- Settles O39: LWR loads the bytes in the word of the first, LWL those in the word of the last, and these are all. -/
theorem unalignedLoadPair : Obligations.UnalignedLoadPair := by
  intro s rt rs pa p byte hrt hne h
  have hp : PlacedAt s (s.gpr rs) pa := fun j hj => (h j hj).1
  have hm {t : State} {v : Word} {j : Nat} (ht : OnlyGpr s t rt v 0) (hj : j < 4) : isMemory t (pa j) := by
    rw [isMemory, ht.rest.model.params]
    exact (h j hj).2
  have hbase {t : State} {v : Word} (ht : OnlyGpr s t rt v 0) : t.gpr rs = s.gpr rs := ht.others rs hne.symm
  have hpt {t : State} {v : Word} (ht : OnlyGpr s t rt v 0) : PlacedAt t (t.gpr rs) pa := by
    rw [hbase ht]
    exact hp.congr ht.rest.control.tlb
  refine ⟨(LoadsPart.of_lwr hp (h 0 (by decide)).2).pair hrt (fun t v ht => ?_) (rightPart_or_leftPart _),
    (LoadsPart.of_lwl hp (h 3 (by decide)).2).pair hrt (fun t v ht => ?_) fun j => (rightPart_or_leftPart _ j).symm⟩
  · rw [← hbase ht]
    exact .of_lwl (hpt ht) (hm ht (by decide))
  · rw [← hbase ht]
    exact .of_lwr (hpt ht) (hm ht (by decide))

/-- Settles O40: the bytes that SWL writes again are the register's own, and those it leaves are SWR's. -/
theorem unalignedStorePair : Obligations.UnalignedStorePair := by
  intro s rt rs pa p h
  have hp : PlacedAt s (s.gpr rs) pa := fun j hj => (h j hj).1
  obtain ⟨t, hx, hgpr, htlb, hparams, ht⟩ := storesPart_of_swr (rt := rt) hp (h 0 (by decide)).2
  have hpt : PlacedAt t (t.gpr rs) pa := by
    rw [hgpr]
    exact hp.congr htlb
  obtain ⟨u, hy, hu⟩ := storesPart_of_swl (rt := rt) hpt (by rw [hparams]; exact (h 3 (by decide)).2)
  rw [hgpr, hgpr] at hu
  exact ⟨t, u, hx, hy, ht.pair hu (fun j hj k hk => hp.injective hj hk) (rightPart_or_leftPart _)⟩

end Sys2Proof.Machine
end

section
/-! What the ALU instructions compute (spec 41_alu_immediate): the write of a result in the statements' terms, and the
operands of R113 in integers and halves of a word. -/

namespace Sys2Proof.Machine

/-! ## The write of a result -/

/-- An encoded instruction whose whole effect is the write of `v` runs as the statements about results ask. -/
theorem RunsAs.of_writeResult {w : Word} {i : Instr} {s : State} {rd : Reg} {v x : Word} (hw : encode i = w)
    (hi : exec i s = writeResult rd v s) (hv : v = x) :
    RunsAs w i s fun t => OnlyGpr s t rd x 0 ∧ Sequential s t :=
  .of_exec hw ⟨_, hi, hv ▸ onlyGpr_setGpr s rd v 0, rfl, rfl, rfl⟩

/-! ## Comparisons -/

theorem truthWord_lessSigned (a b : Word) :
    truthWord (lessSigned a b) = if a.toInt < b.toInt then 1#32 else 0#32 := by
  simp [truthWord, lessSigned]

theorem truthWord_lessUnsigned (a b : Word) :
    truthWord (lessUnsigned a b) = if a.toNat < b.toNat then 1#32 else 0#32 := by
  simp [truthWord, lessUnsigned]

/-! ## Sign-extended immediates -/

theorem toInt_signExtend16 (imm : BitVec 16) : (signExtend16 imm).toInt = imm.toInt :=
  BitVec.toInt_signExtend_of_le (by decide)

theorem signExtend16_eq_ofInt (imm : BitVec 16) : signExtend16 imm = BitVec.ofInt 32 imm.toInt := by
  rw [← toInt_signExtend16, BitVec.ofInt_toInt]

theorem add_signExtend16 (a : Word) (imm : BitVec 16) :
    a + signExtend16 imm = BitVec.ofInt 32 (a.toInt + imm.toInt) := by
  rw [BitVec.ofInt_add, BitVec.ofInt_toInt, signExtend16_eq_ofInt]

/-! ## Immediates in the low half of a word -/

theorem zeroExtend16_eq_append (imm : BitVec 16) : zeroExtend16 imm = 0#16 ++ imm :=
  BitVec.setWidth_eq_append (by decide)

theorem halves_append (a : Word) : a.extractLsb' 16 16 ++ a.extractLsb' 0 16 = a :=
  BitVec.extractLsb'_append_extractLsb' (w := 16) (len := 16)

theorem and_zeroExtend16 (a : Word) (imm : BitVec 16) :
    a &&& zeroExtend16 imm = 0#16 ++ (a.extractLsb' 0 16 &&& imm) := by
  conv_lhs => rw [← halves_append a, zeroExtend16_eq_append, BitVec.and_append, BitVec.and_zero]

theorem or_zeroExtend16 (a : Word) (imm : BitVec 16) :
    a ||| zeroExtend16 imm = a.extractLsb' 16 16 ++ (a.extractLsb' 0 16 ||| imm) := by
  conv_lhs => rw [← halves_append a, zeroExtend16_eq_append, BitVec.or_append, BitVec.or_zero]

theorem xor_zeroExtend16 (a : Word) (imm : BitVec 16) :
    a ^^^ zeroExtend16 imm = a.extractLsb' 16 16 ++ (a.extractLsb' 0 16 ^^^ imm) := by
  conv_lhs => rw [← halves_append a, zeroExtend16_eq_append, BitVec.xor_append, BitVec.xor_zero]

/-! ## The operand of LUI -/

theorem upperImmediate_eq_mul (imm : BitVec 16) : upperImmediate imm = BitVec.ofNat 32 (imm.toNat * 65536) := by
  rw [← BitVec.toNat_inj, upperImmediate, toNat_append_add, BitVec.toNat_ofNat, BitVec.toNat_ofNat]
  omega

end Sys2Proof.Machine
end

section
/-! The statements about the ALU instructions with an immediate operand (spec 41_alu_immediate). -/

namespace Sys2Proof.Machine

/-- Settles O19: each of the seven writes one result, and the operand it forms of the immediate is the one stated. -/
theorem immediateAlu : Obligations.ImmediateAlu := by
  intro s rt rs imm a runs
  refine ⟨.of_writeResult rfl rfl (add_signExtend16 a imm), .of_writeResult rfl rfl ?slti,
    .of_writeResult rfl rfl ?sltiu, .of_writeResult rfl rfl (and_zeroExtend16 a imm),
    .of_writeResult rfl rfl (or_zeroExtend16 a imm), .of_writeResult rfl rfl (xor_zeroExtend16 a imm),
    .of_writeResult rfl rfl (upperImmediate_eq_mul imm)⟩
  case slti => rw [truthWord_lessSigned, toInt_signExtend16]
  case sltiu => rw [truthWord_lessUnsigned, signExtend16_eq_ofInt]

end Sys2Proof.Machine
end

section
/-! What the ALU instructions with three operands compute (spec 42_alu_three_operand): sum and difference in integers,
the bitwise results bit by bit, and the write of a checked signed result. -/

namespace Sys2Proof.Machine

/-! ## Sums and differences modulo 2^32 -/

theorem add_eq_ofInt (a b : Word) : a + b = BitVec.ofInt 32 (a.toInt + b.toInt) := by
  rw [BitVec.ofInt_add, BitVec.ofInt_toInt, BitVec.ofInt_toInt]

theorem sub_eq_ofInt (a b : Word) : a - b = BitVec.ofInt 32 (a.toInt - b.toInt) := by
  rw [← BitVec.toInt_inj, BitVec.toInt_sub, BitVec.toInt_ofInt]

/-! ## Words given bit by bit -/

theorem eq_ofFnLE {n : Nat} {x : BitVec n} {f : Fin n → Bool} (h : ∀ k : Fin n, x.getLsbD k = f k) :
    x = BitVec.ofFnLE f := by
  ext k hk
  rw [BitVec.getElem_ofFnLE, ← h ⟨k, hk⟩, BitVec.getLsbD_eq_getElem]

theorem getLsbD_nor (a b : Word) (k : Fin 32) : (~~~(a ||| b)).getLsbD k = !(a.getLsbD k || b.getLsbD k) := by
  rw [BitVec.getLsbD_not, BitVec.getLsbD_or, decide_eq_true k.isLt, Bool.true_and]

/-! ## The write of a checked result -/

/-- A checked result that is a value is written as any other result is. -/
@[simp] theorem writeChecked_ok (rd : Reg) (v : Word) (s : State) :
    writeChecked rd (.ok v) s = writeResult rd v s := rfl

@[simp] theorem writeChecked_error (rd : Reg) (e : Stop) (s : State) :
    writeChecked rd (.error e) s = settle s (.error e) := rfl

/-- An instruction that is the checked write of a value writes it and changes nothing else. -/
theorem onlyGpr_of_writeChecked {i : Instr} {s : State} {rd : Reg} {r : Except Stop Word} {v : Word}
    (hi : exec i s = writeChecked rd r s) (hr : r = .ok v) :
    ∃ t, exec i s = .next t ∧ OnlyGpr s t rd v 0 ∧ Sequential s t :=
  ⟨(s.setGpr rd v).advanceSeq, by rw [hi, hr, writeChecked_ok, writeResult_eq],
    onlyGpr_setGpr s rd v 0, rfl, rfl, rfl⟩

/-! ## ADD, SUB and ADDI: the checked write of the exact result (R170, R172, R160) -/

theorem exec_add (rd rs rt : Reg) (s : State) : exec (.add rd rs rt) s =
    writeChecked rd (signedResult s.params ((s.gpr rs).toInt + (s.gpr rt).toInt)) s := rfl

theorem exec_sub (rd rs rt : Reg) (s : State) : exec (.sub rd rs rt) s =
    writeChecked rd (signedResult s.params ((s.gpr rs).toInt - (s.gpr rt).toInt)) s := rfl

theorem exec_addi (rd rs : Reg) (imm : BitVec 16) (s : State) : exec (.addi rd rs imm) s =
    writeChecked rd (signedResult s.params ((s.gpr rs).toInt + imm.toInt)) s := by
  rw [← toInt_signExtend16]
  rfl

end Sys2Proof.Machine
end

section
/-! The statements about the ALU instructions with three operands (spec 42_alu_three_operand). -/

namespace Sys2Proof.Machine

/-- Settles O18: each of the eight writes one result, the sums and comparisons in integers, the others bit by bit. -/
theorem threeOperandAlu : Obligations.ThreeOperandAlu := by
  intro s rd rs rt a b runs
  exact ⟨.of_writeResult rfl rfl (add_eq_ofInt a b), .of_writeResult rfl rfl (sub_eq_ofInt a b),
    .of_writeResult rfl rfl (truthWord_lessSigned a b), .of_writeResult rfl rfl (truthWord_lessUnsigned a b),
    .of_writeResult rfl rfl (eq_ofFnLE fun _ => BitVec.getLsbD_and),
    .of_writeResult rfl rfl (eq_ofFnLE fun _ => BitVec.getLsbD_or),
    .of_writeResult rfl rfl (eq_ofFnLE fun _ => BitVec.getLsbD_xor),
    .of_writeResult rfl rfl (eq_ofFnLE (getLsbD_nor a b))⟩

/-- Settles O21: a result that fits is a value under every policy, and the checked write writes it. -/
theorem signedArithmeticFits : Obligations.SignedArithmeticFits := by
  intro s rd rs rt imm a b c fits
  exact ⟨fun h => .of_exec rfl (onlyGpr_of_writeChecked (exec_add rd rs rt s) (signedResult_of_fits h)),
    fun h => .of_exec rfl (onlyGpr_of_writeChecked (exec_sub rd rs rt s) (signedResult_of_fits h)),
    fun h => .of_exec rfl (onlyGpr_of_writeChecked (exec_addi rd rs imm s) (signedResult_of_fits h))⟩

/-- Settles O22: all three are one checked write, and OVERFLOW_POLICY says what the check makes of the result. -/
theorem signedOverflowOutcome : Obligations.SignedOverflowOutcome := by
  intro s rd rs rt imm i x hix hx
  have hi : exec i s = writeChecked rd (signedResult s.params x) s := by
    obtain ⟨rfl, rfl⟩ | ⟨rfl, rfl⟩ | ⟨rfl, rfl⟩ := hix
    · exact exec_add rd rs rt s
    · exact exec_sub rd rs rt s
    · exact exec_addi rd rs imm s
  refine ⟨fun hp => ?refuse, fun hp => onlyGpr_of_writeChecked hi (signedResult_wrap hx hp), fun c hp => ?trap⟩
  case refuse => rw [hi, signedResult_refuse hx hp, writeChecked_error, settle_refuse]
  case trap =>
    refine ⟨s.enterException (.policyTrap c), ?_, entered_enterException s (.policyTrap c)⟩
    rw [hi, signedResult_trap hx hp, writeChecked_error, settle_raise]

end Sys2Proof.Machine
end

section
/-! What the shifts compute (spec 43_shift): each as arithmetic on the word's number, and the amount of a variable
shift. -/

namespace Sys2Proof.Machine

/-! ## Shifts as multiplication and floor division by a power of two -/

theorem shiftLeft_eq_ofNat (v : Word) (k : Nat) : v <<< k = BitVec.ofNat 32 (v.toNat * 2 ^ k) := by
  rw [← BitVec.toNat_inj, BitVec.toNat_shiftLeft, BitVec.toNat_ofNat, Nat.shiftLeft_eq]

theorem ushiftRight_eq_ofNat (v : Word) (k : Nat) : v >>> k = BitVec.ofNat 32 (v.toNat / 2 ^ k) := by
  rw [← Nat.shiftRight_eq_div_pow, ← BitVec.toNat_ushiftRight, BitVec.ofNat_toNat, BitVec.setWidth_eq]

theorem sshiftRight_eq_ofInt (v : Word) (k : Nat) : v.sshiftRight k = BitVec.ofInt 32 (v.toInt / 2 ^ k) := by
  rw [BitVec.sshiftRight, Int.shiftRight_eq_div_pow, Nat.cast_pow, Nat.cast_ofNat]

/-! ## The amount of a variable shift (R188) -/

theorem toNat_shiftAmount (v : Word) : (shiftAmount v).toNat = v.toNat % 32 := by
  simp [shiftAmount]

end Sys2Proof.Machine
end

section
/-! The statement about the shifts (spec 43_shift). -/

namespace Sys2Proof.Machine

/-- Settles O20: each of the six writes one shifted word, and the amount of a variable one is its low five bits. -/
theorem shifts : Obligations.Shifts := by
  intro s rd rs rt n v left right arith m fixed variable'
  have hm : (shiftAmount (s.gpr rs)).toNat = m := toNat_shiftAmount _
  refine ⟨.of_writeResult rfl rfl (shiftLeft_eq_ofNat v _), .of_writeResult rfl rfl (ushiftRight_eq_ofNat v _),
    .of_writeResult rfl rfl (sshiftRight_eq_ofInt v _), .of_writeResult rfl rfl ?sllv, .of_writeResult rfl rfl ?srlv,
    .of_writeResult rfl rfl ?srav⟩
  case sllv => rw [hm, shiftLeft_eq_ofNat]
  case srlv => rw [hm, ushiftRight_eq_ofNat]
  case srav => rw [hm, sshiftRight_eq_ofInt]

end Sys2Proof.Machine
end

section
/-! What the multiplies, the divides and the HI/LO moves compute (spec 44_multiply_divide): the write of HI and LO in the
statements' terms, the exact product in 64 bits, and the divides as quotient and remainder. -/

namespace Sys2Proof.Machine

/-! ## The write of HI and LO -/

theorem onlyHiLo_setHiLo (s : State) (h l : Word) (n : Nat) :
    OnlyHiLo s ((s.setHiLo h l).drawn n).advanceSeq h l n where
  hi := rfl
  lo := rfl
  gprs _ := rfl
  control := ⟨rfl, rfl, rfl, rfl, rfl, rfl, rfl, rfl⟩
  memory _ := rfl
  model := ⟨rfl, rfl, rfl, rfl, rfl⟩

/-- The values that HI and LO are said to hold are the ones that stand there. -/
theorem OnlyHiLo.self {s t : State} {h l : Word} {n : Nat} (ht : OnlyHiLo s t h l n) : OnlyHiLo s t t.hi t.lo n :=
  { ht with hi := rfl, lo := rfl }

/-- An encoded instruction whose whole effect is the write of HI and LO runs with every outcome that follows from it. -/
theorem RunsAs.of_writeHiLo {w : Word} {i : Instr} {s : State} {h l : Word} {post : State → Prop} (hw : encode i = w)
    (hi : exec i s = writeHiLo h l s) (hp : ∀ t, OnlyHiLo s t h l 0 → Sequential s t → post t) : RunsAs w i s post :=
  .of_exec hw ⟨_, hi, hp _ (onlyHiLo_setHiLo s h l 0) ⟨rfl, rfl, rfl⟩⟩

/-- An instruction that is a division without a determined result completes after its two draws (D17). -/
theorem onlyHiLo_of_writeUndetermined {i : Instr} {s : State} (hi : exec i s = writeUndetermined s) :
    ∃ t, exec i s = .next t ∧ OnlyHiLo s t t.hi t.lo 2 ∧ Sequential s t :=
  ⟨_, hi, onlyHiLo_setHiLo s _ _ 2, rfl, rfl, rfl⟩

/-! ## The product -/

/-- An encoded instruction whose whole effect is the write of the product `p` leaves in HI and LO what `p` is. -/
theorem RunsAs.of_writeProduct {w : Word} {i : Instr} {s : State} {p : BitVec 64} (P : BitVec 64 → Prop)
    (hw : encode i = w) (hi : exec i s = writeProduct p s) (hp : P p) :
    RunsAs w i s fun t => P (t.hi ++ t.lo) ∧ OnlyHiLo s t t.hi t.lo 0 ∧ Sequential s t := by
  have halves : p.extractLsb' 32 32 ++ p.extractLsb' 0 32 = p :=
    BitVec.extractLsb'_append_extractLsb' (w := 32) (len := 32)
  refine .of_writeHiLo hw hi fun t ht hs => ⟨?_, ht.self, hs⟩
  rwa [ht.hi, ht.lo, halves]

/-- The signed product of two words fits 64 bits. -/
theorem toInt_signedProduct (a b : Word) : (BitVec.ofInt 64 (a.toInt * b.toInt)).toInt = a.toInt * b.toInt := by
  have hlow := BitVec.le_toInt_mul_toInt (x := a) (y := b)
  have hhigh := BitVec.toInt_mul_toInt_le (x := a) (y := b)
  exact BitVec.toInt_ofInt_eq_self (by decide) (by omega) (by omega)

/-- The unsigned product of two words fits 64 bits. -/
theorem toNat_unsignedProduct (a b : Word) : (BitVec.ofNat 64 (a.toNat * b.toNat)).toNat = a.toNat * b.toNat := by
  have hlt : a.toNat * b.toNat < 2 ^ 32 * 2 ^ 32 := Nat.mul_lt_mul'' a.isLt b.isLt
  exact Nat.mod_eq_of_lt (by omega)

/-! ## The divides -/

theorem divUndetermined_iff {n d : Word} :
    divUndetermined n d = true ↔ d = 0#32 ∨ (n = 0x80000000#32 ∧ d = 0xFFFFFFFF#32) := by
  simp [divUndetermined]

/-- The operands without a determined quotient, as integers. -/
theorem divUndetermined_iff_toInt {n d : Word} :
    divUndetermined n d = true ↔ d.toInt = 0 ∨ (n.toInt = -2147483648 ∧ d.toInt = -1) := by
  rw [divUndetermined_iff, ← BitVec.toInt_inj, ← BitVec.toInt_inj, ← BitVec.toInt_inj]
  rfl

theorem ofInt_tdiv (n d : Word) : BitVec.ofInt 32 (n.toInt.tdiv d.toInt) = n.sdiv d := by
  rw [← BitVec.toInt_inj, BitVec.toInt_ofInt, BitVec.toInt_sdiv]

theorem ofInt_sub_tdiv_mul (n d : Word) :
    BitVec.ofInt 32 (n.toInt - n.toInt.tdiv d.toInt * d.toInt) = n.srem d := by
  rw [mul_comm, ← Int.tmod_def, ← BitVec.toInt_srem, BitVec.ofInt_toInt]

/-- Outside the undetermined operands the quotient is exact: it fits the word. -/
theorem toInt_sdiv_of_determined {n d : Word} (h : divUndetermined n d = false) :
    (n.sdiv d).toInt = n.toInt.tdiv d.toInt := by
  refine BitVec.toInt_sdiv_of_ne_or_ne n d (not_and_or.1 fun hmin => ?_)
  rw [divUndetermined_iff.2 (.inr hmin)] at h
  cases h

/-- A remainder rounded toward zero is below the divisor in size. -/
theorem natAbs_tmod_lt (n : Int) {d : Int} (hd : d ≠ 0) : (n.tmod d).natAbs < d.natAbs := by
  rw [Int.natAbs_tmod]
  exact Nat.mod_lt _ (Int.natAbs_pos.2 hd)

/-- The remainder has the sign of the dividend. -/
theorem tmod_nonpos {n : Int} (d : Int) (hn : n ≤ 0) : n.tmod d ≤ 0 := by
  have hneg : 0 ≤ (-n).tmod d := Int.tmod_nonneg d (by omega)
  rw [Int.neg_tmod] at hneg
  omega

/-- DIV is the signed division of words, the quotient rounded toward zero (R197). -/
theorem exec_div (rs rt : Reg) (s : State) : exec (.div rs rt) s =
    if divUndetermined (s.gpr rs) (s.gpr rt) then writeUndetermined s
    else writeHiLo ((s.gpr rs).srem (s.gpr rt)) ((s.gpr rs).sdiv (s.gpr rt)) s := by
  rw [← ofInt_sub_tdiv_mul, ← ofInt_tdiv]
  rfl

/-- DIVU is the unsigned division of words (R198). -/
theorem exec_divu (rs rt : Reg) (s : State) : exec (.divu rs rt) s =
    if s.gpr rt = 0#32 then writeUndetermined s
    else writeHiLo (s.gpr rs % s.gpr rt) (s.gpr rs / s.gpr rt) s := by
  rw [BitVec.umod_def, BitVec.udiv_def]
  rfl

end Sys2Proof.Machine
end

section
/-! The statements about the multiplies, the divides and the HI/LO moves (spec 44_multiply_divide). -/

namespace Sys2Proof.Machine

/-- Settles O23: the exact product fits 64 bits, and HI and LO are its halves. -/
theorem multiplyExactProduct : Obligations.MultiplyExactProduct := by
  intro s rs rt
  let a := s.gpr rs
  let b := s.gpr rt
  exact ⟨.of_writeProduct (·.toInt = a.toInt * b.toInt) rfl rfl (toInt_signedProduct a b),
    .of_writeProduct (·.toNat = a.toNat * b.toNat) rfl rfl (toNat_unsignedProduct a b)⟩

/-- Settles O24: LO and HI are quotient and remainder rounded toward zero, and the quotient fits the word. -/
theorem divideSigned : Obligations.DivideSigned := by
  intro s rs rt n d hd hmin
  have hdet : divUndetermined (s.gpr rs) (s.gpr rt) = false := by
    rw [Bool.eq_false_iff, Ne, divUndetermined_iff_toInt]
    exact not_or.2 ⟨hd, hmin⟩
  have hx : exec (.div rs rt) s = writeHiLo ((s.gpr rs).srem (s.gpr rt)) ((s.gpr rs).sdiv (s.gpr rt)) s := by
    rw [exec_div, hdet]
    rfl
  refine .of_writeHiLo rfl hx fun t ht hs => ?_
  have hlo : t.lo.toInt = n.tdiv d := by rw [ht.lo, toInt_sdiv_of_determined hdet]
  have hhi : t.hi.toInt = n.tmod d := by rw [ht.hi, BitVec.toInt_srem]
  rw [hlo, hhi]
  exact ⟨Int.tdiv_mul_add_tmod n d, natAbs_tmod_lt n hd, Int.tmod_nonneg d, tmod_nonpos d, ht.self, hs⟩

/-- Settles O25: LO and HI are the quotient and the remainder of the words. -/
theorem divideUnsigned : Obligations.DivideUnsigned := by
  intro s rs rt hd
  have hx := exec_divu rs rt s
  rw [if_neg hd] at hx
  refine .of_writeHiLo rfl hx fun t ht hs => ⟨?_, ?_, ht.self, hs⟩
  · rw [ht.lo, BitVec.toNat_udiv]
  · rw [ht.hi, BitVec.toNat_umod]

/-- Settles O26: on these operands both divides write two draws to HI and LO. -/
theorem divideUndeterminedCompletes : Obligations.DivideUndeterminedCompletes := by
  intro s rs rt
  refine ⟨fun h => onlyHiLo_of_writeUndetermined ?div, fun h => onlyHiLo_of_writeUndetermined ?divu⟩
  case div => rw [exec_div, if_pos (divUndetermined_iff.2 h)]
  case divu => rw [exec_divu, if_pos h]

/-- Settles O27: two moves write one register, two write one of HI and LO and rewrite the other with its own value. -/
theorem hiLoMoves : Obligations.HiLoMoves := by
  intro s r
  exact ⟨.of_writeResult rfl rfl rfl, .of_writeHiLo rfl rfl fun _ => And.intro,
    .of_writeResult rfl rfl rfl, .of_writeHiLo rfl rfl fun _ => And.intro⟩

end Sys2Proof.Machine
end

section
/-! What the jumps and branches do (spec 45_jump_branch): targets in arithmetic, the answer of each shared form, and the
transfer of control in the statements' terms. -/

namespace Sys2Proof.Machine

/-! ## Targets -/

/-- The last word of a 256MB region, by the low 28 bits of its address (R210). -/
theorem regionEdge_iff {pc : Word} : pc.extractLsb' 0 28 = 0xFFFFFFC#28 ↔ pc.toNat % 0x10000000 = 0xFFFFFFC := by
  rw [← BitVec.toNat_inj, extractLsb'_toNat_eq_div_mod, pow_zero, Nat.div_one]
  rfl

theorem jumpTarget_eq_ofNat (pc : Word) (index : BitVec 26) : jumpTarget pc index =
    BitVec.ofNat 32 ((pc + 4#32).toNat / 0x10000000 * 0x10000000 + index.toNat * 4) := by
  have hslot := (pc + 4#32).isLt
  have hindex := index.isLt
  rw [← BitVec.toNat_inj, jumpTarget, BitVec.toNat_append, BitVec.toNat_append, extractLsb'_toNat_eq_div_mod,
    ← Nat.shiftLeft_add_eq_or_of_lt index.isLt, ← Nat.shiftLeft_add_eq_or_of_lt (0#2).isLt, Nat.shiftLeft_eq,
    Nat.shiftLeft_eq, BitVec.toNat_ofNat, BitVec.toNat_ofNat]
  omega

theorem branchTarget_eq_ofInt (pc : Word) (imm : BitVec 16) :
    branchTarget pc imm = pc + 4#32 + BitVec.ofInt 32 (4 * imm.toInt) := by
  have hfour : BitVec.ofInt 32 4 = BitVec.twoPow 32 2 := rfl
  rw [branchTarget, signExtend16_eq_ofInt, BitVec.shiftLeft_eq_mul_twoPow, mul_comm 4, BitVec.ofInt_mul, hfour]

/-! ## What the shared forms answer -/

section Answers
variable {i : Instr} {s t : State} {r : Except Stop State} {index : BitVec 26} {target : Word}

theorem outsideDelaySlot_eq (hds : s.ds = false) : outsideDelaySlot s r = r := by simp [outsideDelaySlot, hds]

theorem insideRegion_edge (h : s.pc.toNat % 0x10000000 = 0xFFFFFFC) :
    insideRegion s r = .error (.refuse .jumpRegionEdge) := if_pos (regionEdge_iff.2 h)

theorem insideRegion_eq (h : s.pc.toNat % 0x10000000 ≠ 0xFFFFFFC) : insideRegion s r = r :=
  if_neg (mt regionEdge_iff.1 h)

theorem toWordTarget_eq (h : target.toNat % 4 = 0) : toWordTarget target r = r := if_pos (low_bits_zero_iff.2 h)

theorem toWordTarget_misaligned (h : target.toNat % 4 ≠ 0) :
    toWordTarget target r = .error (.refuse (.misalignedJumpTarget target)) := if_neg (mt low_bits_zero_iff.1 h)

/-- Whatever asks for the delay slot first stops in one (R219, D15). -/
theorem refused_of_inDelaySlot (hi : exec i s = settle s (outsideDelaySlot s r)) (hds : s.ds = true) :
    exec i s = .refused .branchInDelaySlot := by
  rw [hi, outsideDelaySlot, if_pos hds, settle_refuse]

theorem jumpRegion_eq (hds : s.ds = false) (h : s.pc.toNat % 0x10000000 ≠ 0xFFFFFFC) :
    jumpRegion s t index = .next (t.advanceBranch true (jumpTarget s.pc index)) := by
  rw [jumpRegion, outsideDelaySlot_eq hds, insideRegion_eq h, settle_ok]

theorem jumpRegion_edge (hds : s.ds = false) (h : s.pc.toNat % 0x10000000 = 0xFFFFFFC) :
    jumpRegion s t index = .refused .jumpRegionEdge := by
  rw [jumpRegion, outsideDelaySlot_eq hds, insideRegion_edge h, settle_refuse]

theorem jumpRegister_eq (hds : s.ds = false) (h : target.toNat % 4 = 0) :
    jumpRegister s t target = .next (t.advanceBranch true target) := by
  rw [jumpRegister, outsideDelaySlot_eq hds, toWordTarget_eq h, settle_ok]

theorem jumpRegister_misaligned (hds : s.ds = false) (h : target.toNat % 4 ≠ 0) :
    jumpRegister s t target = .refused (.misalignedJumpTarget target) := by
  rw [jumpRegister, outsideDelaySlot_eq hds, toWordTarget_misaligned h, settle_refuse]

theorem branchIf_eq {c : Bool} {imm : BitVec 16} (hds : s.ds = false) :
    branchIf s t c imm = .next (t.advanceBranch c (branchTarget s.pc imm)) := by
  rw [branchIf, outsideDelaySlot_eq hds, settle_ok]

end Answers

/-! ## The transfer of control, in the statements' terms -/

theorem sameData_advanceBranch (s : State) (c : Bool) (a : Word) : SameData s (s.advanceBranch c a) 0 :=
  sameData_of_pc s 0 ..

/-- A transfer of control that links writes the link register and no other data. -/
theorem onlyGpr_advanceBranch (s : State) (r : Reg) (v : Word) (c : Bool) (a : Word) :
    OnlyGpr s ((s.setGpr r v).advanceBranch c a) r v 0 where
  dest := s.gpr_setGpr_self r v
  others _ hq := s.gpr_setGpr_of_ne v hq
  rest := ⟨rfl, rfl, ⟨rfl, rfl, rfl, rfl, rfl, rfl, rfl, rfl⟩, fun _ => rfl, ⟨rfl, rfl, rfl, rfl, rfl⟩⟩

section Transfer
variable {w : Word} {i : Instr} {s t : State} {target : Word} {data : State → Prop}

/-- An encoded instruction that jumps from `t`, the state with any link written, keeps what holds of the data there. -/
theorem RunsAs.of_jump (hw : encode i = w) (hi : exec i s = .next (t.advanceBranch true target))
    (hd : ∀ b a, data (t.advanceBranch b a)) (hn : t.npc = s.npc) :
    RunsAs w i s fun u => data u ∧ Branched s u target :=
  .of_exec hw ⟨_, hi, hd _ _, hn, rfl, rfl⟩

/-- An encoded instruction that is a branch on the condition `c` goes to the target where `c` holds and past the delay
slot where not. -/
theorem RunsAs.of_branchIf {taken : Bool} {c : Prop} {imm : BitVec 16} (hw : encode i = w)
    (hi : exec i s = branchIf s t taken imm) (hc : taken = true ↔ c) (hds : s.ds = false)
    (hd : ∀ b a, data (t.advanceBranch b a)) (hn : t.npc = s.npc) :
    RunsAs w i s fun u => data u ∧ (c → Branched s u (s.pc + 4#32 + BitVec.ofInt 32 (4 * imm.toInt))) ∧
      (¬ c → Branched s u (s.npc + 4#32)) := by
  rw [branchIf_eq hds, branchTarget_eq_ofInt] at hi
  refine .of_exec hw ⟨_, hi, hd _ _, fun h => ⟨hn, if_pos (hc.2 h), rfl⟩, fun h => ⟨hn, ?_, rfl⟩⟩
  rw [State.advanceBranch_npc, if_neg (mt hc.1 h), hn]

end Transfer

end Sys2Proof.Machine
end

section
/-! The statements about the jumps and branches (spec 45_jump_branch). -/

namespace Sys2Proof.Machine

/-- Settles O44: inside the region both answer the jump to the concatenated target, which is the sum stated. -/
theorem jumpsInRegion : Obligations.JumpsInRegion := by
  intro s index hds hedge target
  have jumps (t : State) : jumpRegion s t index = .next (t.advanceBranch true target) := by
    rw [jumpRegion_eq hds hedge, jumpTarget_eq_ofNat]
  exact ⟨.of_jump rfl (jumps s) (sameData_advanceBranch s) rfl,
    .of_jump rfl (jumps (s.setGpr 31#5 _)) (onlyGpr_advanceBranch s 31#5 _) rfl⟩

/-- Settles O45: the target is read in the state before the link is written. -/
theorem jumpsToRegister : Obligations.JumpsToRegister := by
  intro s rs rd hds hword
  exact ⟨.of_jump rfl (jumpRegister_eq hds hword) (sameData_advanceBranch s) rfl,
    .of_jump rfl (jumpRegister_eq hds hword) (onlyGpr_advanceBranch s rd _) rfl⟩

/-- Settles O46: all eight are one branch each, on a test that decides the condition stated. -/
theorem branches : Obligations.Branches := by
  intro s rs rt imm hds target v goes plain link
  have same := sameData_advanceBranch s
  have linked := onlyGpr_advanceBranch s 31#5 (s.pc + 8#32)
  exact ⟨.of_branchIf rfl rfl beq_iff_eq hds same rfl, .of_branchIf rfl rfl bne_iff_ne hds same rfl,
    .of_branchIf rfl rfl decide_eq_true_iff hds same rfl, .of_branchIf rfl rfl decide_eq_true_iff hds same rfl,
    .of_branchIf rfl rfl decide_eq_true_iff hds same rfl, .of_branchIf rfl rfl decide_eq_true_iff hds same rfl,
    .of_branchIf rfl rfl decide_eq_true_iff hds linked rfl, .of_branchIf rfl rfl decide_eq_true_iff hds linked rfl⟩

/-- Settles O47: the delay slot is asked about first, then the region's edge or the target's low bits. -/
theorem jumpAndBranchStops : Obligations.JumpAndBranchStops := by
  intro s rs rt rd imm index
  refine ⟨fun hds => ?inSlot, fun hds hedge => ⟨jumpRegion_edge hds hedge, jumpRegion_edge hds hedge⟩,
    fun hds hodd => ⟨jumpRegister_misaligned hds hodd, jumpRegister_misaligned hds hodd⟩⟩
  case inSlot =>
    simp only [List.mem_cons, List.not_mem_nil, or_false, forall_eq_or_imp, forall_eq]
    and_intros <;> exact refused_of_inDelaySlot rfl hds

end Sys2Proof.Machine
end

section
/-! What SYSCALL and BREAK do (spec 46_exception_instructions): the statement is about their words and the entry. -/

namespace Sys2Proof.Machine

/-- An encoded instruction that raises `e` in `s` runs as the entry of `e` from `s` (60_exceptions R258, R259). -/
theorem RunsAs.of_exceptionOf {w : Word} {i : Instr} {s : State} {e : Exc} (hw : encode i = w)
    (he : exceptionOf i s = some e) :
    RunsAs w i s fun t => Entered s t (e.code s.params) (e.badVaddr s.badVaddr) :=
  .of_exec hw ⟨s.enterException e, exec_of_exceptionOf he, entered_enterException s e⟩

/-- Settles O14: each raises its exception in every state, so neither the code field nor IEc is asked about; the entry
takes EXC_SYSCALL or EXC_BREAK from the parameters and leaves BadVaddr (R230, R231, R232). -/
theorem syscallAndBreakEnter : Obligations.SyscallAndBreakEnter := by
  intro s code
  exact ⟨.of_exceptionOf (e := .syscall) rfl rfl, .of_exceptionOf (e := .breakpoint) rfl rfl⟩

end Sys2Proof.Machine
end

section
/-! What the control instructions do (spec 47_control): the words MFC0 reads in arithmetic, the answers of MFC0 and
MTC0, and the entry that TLBWI writes, as the next translation sees it. -/

namespace Sys2Proof.Machine

/-! ## The words MFC0 reads (R235) -/

theorem toNat_bit (b : Bool) : (bit b).toNat = if b then 1 else 0 := by cases b <;> rfl

theorem EntryLo.word_eq_ofNat (e : EntryLo) :
    e.word = BitVec.ofNat 32 (e.pfn.toNat * 4096 + (if e.v then 1 else 0) * 512) := by
  simp only [← toNat_bit, EntryLo.word, ← BitVec.toNat_inj, toNat_append_add, BitVec.toNat_ofNat]
  omega

theorem EntryHi.word_eq_ofNat (e : EntryHi) : e.word = BitVec.ofNat 32 (e.vpn.toNat * 4096) := by
  simp only [EntryHi.word, ← BitVec.toNat_inj, toNat_append_add, BitVec.toNat_ofNat]
  omega

theorem Status.word_eq_ofNat (sr : Status) : sr.word =
    BitVec.ofNat 32 ((if sr.ieo then 1 else 0) * 16 + (if sr.iep then 1 else 0) * 4 + (if sr.iec then 1 else 0)) := by
  simp only [← toNat_bit, Status.word, ← BitVec.toNat_inj, toNat_append_add, BitVec.toNat_ofNat]
  omega

theorem Cause.word_eq_ofNat (c : Cause) :
    c.word = BitVec.ofNat 32 ((if c.bd then 1 else 0) * 2147483648 + c.excCode.toNat * 4) := by
  simp only [← toNat_bit, Cause.word, ← BitVec.toNat_inj, toNat_append_add, BitVec.toNat_ofNat]
  omega

/-! The bits of Index that are not free, whatever value is drawn for the others (R30, D13). -/

theorem indexWord_top (index : BitVec 6) (any : Word) : (indexWord index any).getLsbD 31 = false := by
  apply Nat.testBit_lt_two_pow
  simp only [indexWord, toNat_append_add, BitVec.toNat_ofNat]
  omega

theorem indexWord_field (index : BitVec 6) (any : Word) : (indexWord index any).extractLsb' 8 6 = index := by
  rw [← BitVec.toNat_inj, extractLsb'_toNat_eq_div_mod, indexWord]
  simp only [toNat_append_add]
  omega

/-! ## MFC0 (R235) -/

section Answers
variable {s : State} {rt c : Reg}

theorem exec_mfc0_of_read {t : State} {v : Word} (h : readControl s c = .ok (v, t)) :
    exec (.mfc0 rt c) s = .next (t.setGpr rt v).advanceSeq := by
  simp [exec, execMfc0, h]

/-- MFC0 of a register that reads as `v` after `n` draws writes `v` to `rt` and nothing else. -/
theorem RunsAs.of_readControl {v x : Word} {n : Nat} (hr : readControl s c = .ok (v, s.drawn n)) (hv : v = x) :
    RunsAs (16#6 ++ 0#5 ++ rt ++ c ++ 0#5 ++ 0#6) (.mfc0 rt c) s fun t => OnlyGpr s t rt x n ∧ Sequential s t :=
  .of_exec rfl ⟨_, exec_mfc0_of_read hr, hv ▸ onlyGpr_setGpr s rt v n, rfl, rfl, rfl⟩

/-! ## MTC0 (R236) -/

theorem exec_mtc0_of_write {t : State} (h : writeControl s c (s.gpr rt) = .ok t) :
    exec (.mtc0 rt c) s = .next t.advanceSeq := by
  simp [exec, execMtc0, h]

/-- MTC0 to a register whose write leaves the state `t` does no more than that write and the advance. -/
theorem RunsAs.of_writeControl {t : State} (h : writeControl s c (s.gpr rt) = .ok t) (hn : t.npc = s.npc) :
    RunsAs (16#6 ++ 4#5 ++ rt ++ c ++ 0#5 ++ 0#6) (.mtc0 rt c) s fun u =>
      u = { t with pc := s.npc, npc := s.npc + 4#32, ds := false } :=
  .of_exec rfl ⟨_, exec_mtc0_of_write h, hn ▸ rfl⟩

/-! BadVaddr, Cause and EPC, by CREG_POLICY (D13). -/

theorem writeReadOnly_refuse {t : State} (hp : s.params.creg = .refuse) :
    writeReadOnly s c t = .error (.refuse (.readOnlyControlRegister c)) := by
  rw [writeReadOnly, hp]

theorem writeReadOnly_writable {t : State} (hp : s.params.creg = .writable) : writeReadOnly s c t = .ok t := by
  rw [writeReadOnly, hp]

theorem exec_mtc0_readOnly_refuse {t : State} (h : writeControl s c (s.gpr rt) = writeReadOnly s c t)
    (hp : s.params.creg = .refuse) : exec (.mtc0 rt c) s = .refused (.readOnlyControlRegister c) := by
  simp [exec, execMtc0, h, writeReadOnly_refuse hp]

theorem exec_mtc0_readOnly_writable {t u : State} (h : writeControl s c (s.gpr rt) = writeReadOnly s c t)
    (hp : s.params.creg = .writable) (hu : t.advanceSeq = u) : exec (.mtc0 rt c) s = .next u :=
  hu ▸ exec_mtc0_of_write (h.trans (writeReadOnly_writable hp))

end Answers

/-! ## TLBWI (R238) -/

section WriteTlb
variable (s : State)

theorem State.writeTlb_indexed :
    s.writeTlb.tlb[s.index.toNat]'s.index.isLt = { hi := s.entryHi, lo := s.entryLo } :=
  Vector.getElem_set_self _

theorem State.writeTlb_others (i : Fin 64) (hi : i.val ≠ s.index.toNat) : s.writeTlb.tlb[i.val] = s.tlb[i.val] :=
  Vector.getElem_set_ne s.index.isLt i.isLt hi.symm

/-- The entry examined for an address is the written one where Index names the address's place in the TLB. -/
theorem State.writeTlb_tlbEntryFor {va : Word} (hi : va.toNat / 4096 % 64 = s.index.toNat) :
    s.writeTlb.tlbEntryFor va = { hi := s.entryHi, lo := s.entryLo } := by
  simp only [State.tlbEntryFor_eq, hi, s.writeTlb_indexed]

/-- An address of the new page, mapped and with its place at Index, translates by EntryLo. -/
theorem State.writeTlb_lookup {va : Word} (hp : va.toNat / 4096 = s.entryHi.vpn.toNat)
    (hi : va.toNat / 4096 % 64 = s.index.toNat) (hm : va.toNat < 0x80000000 ∨ 0xC0000000 ≤ va.toNat) :
    s.writeTlb.lookup va = if s.entryLo.v = true then some (s.entryLo.pfn ++ va.extractLsb' 0 12) else none := by
  simp only [s.writeTlb.lookup_mapped hm, s.writeTlb_tlbEntryFor hi, hp, and_true]

end WriteTlb

end Sys2Proof.Machine
end

section
/-! The statements about the control instructions (spec 47_control). -/

namespace Sys2Proof.Machine

/-- Settles O42: the advance touches no entry, so the next translation examines the one just written. -/
theorem tlbwiWritesEntry : Obligations.TlbwiWritesEntry := by
  intro s
  refine .of_exec rfl ⟨s.writeTlb.advanceSeq, rfl, s.writeTlb_indexed, s.writeTlb_others, rfl, ?_⟩
  intro va hp hi hm
  rw [State.advanceSeq_lookup, s.writeTlb_lookup hp hi hm]
  exact ⟨fun hv => if_pos hv, fun hv => if_neg (Bool.eq_false_iff.1 hv)⟩

/-- Settles O49: each register reads as the word of its format, and only Index draws. -/
theorem mfc0Reads : Obligations.Mfc0Reads := by
  intro s rt runs b
  exact ⟨.of_readControl rfl s.entryLo.word_eq_ofNat, .of_readControl rfl rfl,
    .of_readControl rfl s.entryHi.word_eq_ofNat, .of_readControl rfl s.sr.word_eq_ofNat,
    .of_readControl rfl s.cause.word_eq_ofNat, .of_readControl rfl rfl,
    indexWord s.index s.any32, indexWord_top _ _, indexWord_field _ _, .of_readControl rfl rfl⟩

/-- Settles O15: the word is RFE's, and RFE is the pop of the stack and the plain advance. -/
theorem rfePopsStack : Obligations.RfePopsStack :=
  fun s => .of_exec rfl ⟨s.popStatus.advanceSeq, rfl, rfl⟩

/-- Settles O43: the word is TLBR's, and TLBR is the copy of the indexed entry and the plain advance. -/
theorem tlbrReadsEntry : Obligations.TlbrReadsEntry :=
  fun s => .of_exec rfl ⟨s.readTlb.advanceSeq, rfl, rfl⟩

/-- Settles O50: none of the four writes reaches `npc` or asks CREG_POLICY. -/
theorem mtc0Writes : Obligations.Mtc0Writes := by
  intro s rt v runs
  exact ⟨.of_writeControl rfl rfl, .of_writeControl rfl rfl, .of_writeControl rfl rfl, .of_writeControl rfl rfl⟩

/-- Settles O51: the three writes ask CREG_POLICY and nothing else. -/
theorem mtc0ReadOnlyRegisters : Obligations.Mtc0ReadOnlyRegisters := by
  intro s rt v
  refine ⟨fun hp => ?refuse, fun hp => ?writable⟩
  case refuse =>
    simp only [List.mem_cons, List.not_mem_nil, or_false, forall_eq_or_imp, forall_eq]
    exact ⟨exec_mtc0_readOnly_refuse rfl hp, exec_mtc0_readOnly_refuse rfl hp, exec_mtc0_readOnly_refuse rfl hp⟩
  case writable =>
    exact ⟨exec_mtc0_readOnly_writable rfl hp rfl, exec_mtc0_readOnly_writable rfl hp rfl,
      exec_mtc0_readOnly_writable rfl hp rfl⟩

end Sys2Proof.Machine
end

section
/-! What comes before an instruction in a step (spec 60_exceptions R250, R254, R261): reset, the interrupt test, the fetch
and what it notes, and the exception of the instruction at `pc`. -/

namespace Sys2Proof.Machine

/-! ## Reset and the interrupt test -/

/-- With reset set, the step is the reset step, whatever else is pending (70_reset R290, D24). -/
theorem step_of_reset {s : State} (h : s.input.reset = true) : step s = .next s.dropInput.resetStep := by
  rw [step, beginStep, if_pos h]

/-- The step finds an interrupt that it would take: no reset, IEc and irq set (R254). -/
def State.interrupted (s : State) : Prop := s.input.reset = false ∧ s.sr.iec = true ∧ s.input.irq = true

theorem beginStep_of_interrupted {s : State} (h : s.interrupted) : beginStep s = beginInterrupted s.dropInput := by
  obtain ⟨hr, hc, hq⟩ := h
  simp [beginStep, hr, hc, hq]

/-- An interrupt that wins is entered after the draws of the test. -/
theorem step_of_interruptWins {s : State} (h : s.interrupted) (hw : interruptWins s.dropInput = true) :
    step s = .next ((s.dropInput.drawn (drawsOfInterrupt s.params.intPriority)).enterException .interrupt) := by
  rw [step, beginStep_of_interrupted h, beginInterrupted, if_pos hw]
  rfl

/-- Where the interrupt loses, the instruction at `pc` comes, after the draws of the choice. -/
theorem beginStep_of_interruptLoses {s : State} (h : s.interrupted) (hw : interruptWins s.dropInput = false) :
    beginStep s = beginInstruction (s.dropInput.drawn (drawsOfChoice s.params.intPriority)) := by
  rw [beginStep_of_interrupted h, beginInterrupted, if_neg (Bool.eq_false_iff.1 hw)]
  rfl

/-! Which of the two wins, by INT_PRIORITY (R261, D8). -/

section Priority
variable (s : State)

theorem interruptWins_interruptFirst (hp : s.params.intPriority = .interruptFirst) : interruptWins s = true := by
  rw [interruptWins, hp]

theorem interruptWins_instructionFirst (hp : s.params.intPriority = .instructionFirst) :
    interruptWins s = (pendingException s).isNone := by
  rw [interruptWins, hp]

theorem interruptWins_both (hp : s.params.intPriority = .both) :
    interruptWins s = ((pendingException (s.drawn 1)).isNone || s.any32.getLsbD 0) := by
  rw [interruptWins, hp]

end Priority

/-! ## The state after the fetch -/

theorem State.afterFetch_of_ok {s t : State} {w : Word} (h : fetch s = .ok (w, t)) : s.afterFetch = t := by
  rw [State.afterFetch, h]

theorem State.afterFetch_of_error {s : State} {e : Stop} (h : fetch s = .error e) : s.afterFetch = s := by
  rw [State.afterFetch, h]

/-- The fetch writes the fetch log and draws, and nothing else. -/
theorem State.afterFetch_eq (s : State) : ∃ f n, s.afterFetch = State.drawn { s with fetched := f } n := by
  cases h : fetch s with
  | error e => exact ⟨s.fetched, 0, State.afterFetch_of_error h⟩
  | ok r =>
    obtain ⟨w, t⟩ := r
    rw [State.afterFetch_of_ok h]
    obtain ⟨-, -, ht | ht⟩ := fetch_eq_ok h
    · exact ⟨t.fetched, 0, ht⟩
    · exact ⟨t.fetched, 1, ht⟩

theorem State.afterFetch_params (s : State) : s.afterFetch.params = s.params := by
  obtain ⟨f, n, h⟩ := s.afterFetch_eq
  rw [h]
  rfl

theorem State.afterFetch_badVaddr (s : State) : s.afterFetch.badVaddr = s.badVaddr := by
  obtain ⟨f, n, h⟩ := s.afterFetch_eq
  rw [h]
  rfl

/-! ## The exception of the instruction at `pc` -/

section Pending
variable {s t u : State} {w : Word} {e : Exc}

theorem pendingException_of_fetch_error {x : Stop} (hf : fetch u = .error x) :
    pendingException u = raisedBy (.error x : Except Stop State) := by
  rw [pendingException, hf]

theorem pendingException_of_instructionOf_error {x : Stop} (hf : fetch u = .ok (w, t))
    (hi : instructionOf u.params w = .error x) :
    pendingException u = raisedBy (.error x : Except Stop State) := by
  simp only [pendingException, hf, hi]

theorem pendingException_of_instructionOf_none (hf : fetch u = .ok (w, t))
    (hi : instructionOf u.params w = .ok none) : pendingException u = none := by
  simp only [pendingException, hf, hi]

theorem pendingException_of_instructionOf_some {i : Instr} (hf : fetch u = .ok (w, t))
    (hi : instructionOf u.params w = .ok (some i)) : pendingException u = exceptionOf i t := by
  simp only [pendingException, hf, hi]

/-- Where the step goes on to the instruction at `pc`, it enters the exception pending there, from the state after the
fetch. -/
theorem step_of_pendingException (hb : beginStep s = beginInstruction u) (h : pendingException u = some e) :
    step s = .next (u.afterFetch.enterException e) := by
  rw [step, hb]
  obtain ⟨x, hf, hc⟩ | ⟨w, t, x, hf, hi, hc⟩ | ⟨w, t, hf, hi, hc⟩ | ⟨w, t, i, hf, hi, hc⟩ := beginInstruction_cases u
  all_goals rw [hc]
  · rw [pendingException_of_fetch_error hf] at h
    rw [State.afterFetch_of_error hf, raisedBy_eq_some h, settle_raise]
  · rw [pendingException_of_instructionOf_error hf hi] at h
    rw [State.afterFetch_of_ok hf, raisedBy_eq_some h, settle_raise]
  · rw [pendingException_of_instructionOf_none hf hi] at h
    contradiction
  · rw [pendingException_of_instructionOf_some hf hi] at h
    rw [State.afterFetch_of_ok hf]
    exact exec_of_exceptionOf h

/-- What stops and raises nothing answers no next state. -/
theorem settle_error_ne_next {x : Stop} (h : raisedBy (.error x : Except Stop State) = none) :
    settle s (.error x) ≠ .next t := by
  intro ht
  obtain hx | ⟨e, hx, -⟩ := settle_eq_next ht
  · contradiction
  · rw [hx] at h
    contradiction

/-- Where the step goes on to the instruction at `pc` and no exception is pending there, it answers a next state only by
the advance past a reserved word or by an instruction that raises nothing. -/
theorem step_of_no_pendingException (hb : beginStep s = beginInstruction u) (h : pendingException u = none)
    (ht : step s = .next t) :
    t = u.afterFetch.advanceSeq ∨
      ∃ i, beginStep s = .execute i u.afterFetch ∧ exceptionOf i u.afterFetch = none ∧ exec i u.afterFetch = .next t := by
  rw [step, hb] at ht
  obtain ⟨x, hf, hc⟩ | ⟨w, v, x, hf, hi, hc⟩ | ⟨w, v, hf, hi, hc⟩ | ⟨w, v, i, hf, hi, hc⟩ := beginInstruction_cases u
  all_goals rw [hc] at ht
  · rw [pendingException_of_fetch_error hf] at h
    exact absurd ht (settle_error_ne_next h)
  · rw [pendingException_of_instructionOf_error hf hi] at h
    exact absurd ht (settle_error_ne_next h)
  · rw [State.afterFetch_of_ok hf]
    exact .inl (Host.Outcome.next.inj ht).symm
  · rw [pendingException_of_instructionOf_some hf hi] at h
    rw [State.afterFetch_of_ok hf]
    exact .inr ⟨i, hb.trans hc, h, ht⟩

end Pending

/-- The step enters the exception `e` from the state after the fetch in `u`. -/
theorem enters_afterFetch {s u : State} {e : Exc} (hb : beginStep s = beginInstruction u)
    (h : pendingException u = some e) :
    ∃ t, step s = .next t ∧ Entered u.afterFetch t (e.code u.params) (e.badVaddr u.badVaddr) := by
  have entered := entered_enterException u.afterFetch e
  rw [u.afterFetch_params, u.afterFetch_badVaddr] at entered
  exact ⟨_, step_of_pendingException hb h, entered⟩

/-! ## The fetch and its word -/

section Fetch
variable {s t : State} {pa : Word}

/-- The fetch raises the miss of `pc` itself, before it notes anything (R260). -/
theorem fetch_of_miss (hl : s.lookup s.pc = none) : fetch s = .error (.raise (.tlbMiss s.pc)) := by
  rw [fetch, translate_of_miss hl]

/-- From RAM or ROM the fetch gives the word there. -/
theorem fetch_memory (hl : s.lookup s.pc = some pa) (hn : noteFetch s s.pc pa = .ok t) (hk : isMemory s pa) :
    fetch s = .ok (s.mem.value pa .word, t) := by
  have ht := noteFetch_eq_ok hn
  have hk' : isMemory t pa := by rw [ht]; exact hk
  have hm : t.mem = s.mem := by rw [ht]
  rw [fetch_of_lookup hl, hn, ← hm]
  exact physRead_memory .word hk'

/-- From a device the fetch gives a free word, after one draw (log 25). -/
theorem fetch_device (hl : s.lookup s.pc = some pa) (hn : noteFetch s s.pc pa = .ok t)
    (hk : kindAt s.params pa = some .device) : fetch s = .ok (t.any32, t.drawn 1) := by
  have hk' : kindAt t.params pa = some .device := by rw [noteFetch_eq_ok hn]; exact hk
  rw [fetch_of_lookup hl, hn]
  exact physRead_device .word hk'

end Fetch

theorem instructionOf_decoded {w : Word} {i : Instr} (p : Params) (hd : decode w = .ok i) :
    instructionOf p w = .ok (some i) := by
  simp only [instructionOf, hd]

end Sys2Proof.Machine
end

section
/-! The statements about the exceptions and the reset step (spec 60_exceptions, 70_reset_and_hazards R290). -/

namespace Sys2Proof.Machine

/-- Settles O8: the exception pending at `pc` is entered wherever the step goes on to that instruction, and the interrupt
wins against it only under `both`, by the free bit. -/
theorem interruptPriority : Obligations.InterruptPriority := by
  intro s e enters
  refine ⟨fun hq he => enters_afterFetch (beginStep_of_quiet hq) he, fun hq hnone t ht => ?none, fun hr hc hi => ?pending⟩
  case none =>
    obtain ⟨f, n, hu⟩ := s.dropInput.afterFetch_eq
    obtain rfl | ⟨i, hb, hi, hx⟩ := step_of_no_pendingException (beginStep_of_quiet hq) hnone ht
    · rw [hu]
      exact ⟨rfl, .inl ⟨rfl, rfl, rfl, rfl⟩⟩
    · obtain ⟨hpc, hkept | hwrites⟩ := exec_of_exceptionOf_none hi hx
      · rw [hu] at hpc hkept
        exact ⟨hpc, .inl hkept⟩
      · rw [hu] at hpc
        exact ⟨hpc, .inr ⟨_, i, hb, hwrites⟩⟩
  case pending =>
    have hs : s.interrupted := ⟨hr, hc, hi⟩
    refine ⟨fun hp he => ?instructionFirst, fun hp he => ?both⟩
    case instructionFirst =>
      have hw : interruptWins s.dropInput = false := by rw [interruptWins_instructionFirst s.dropInput hp, he]; rfl
      have hb := beginStep_of_interruptLoses hs hw
      rw [hp] at hb
      exact enters_afterFetch hb he
    case both =>
      cases hw : interruptWins s.dropInput with
      | false =>
        have hb := beginStep_of_interruptLoses hs hw
        rw [hp] at hb
        exact .inl (enters_afterFetch hb he)
      | true =>
        have hx := step_of_interruptWins hs hw
        rw [hp] at hx
        exact .inr ⟨_, hx, entered_enterException _ .interrupt⟩

/-- Settles O5: the fetch answers the word at `pc`, and the step runs what it decodes to in the state the fetch left. -/
theorem stepRunsDecodedInstruction : Obligations.StepRunsDecodedInstruction := by
  intro s t pa hq hl hn
  have noted := FetchNoted.of_noteFetch hn
  refine ⟨⟨noteFetch_eq_ok hn, noted.cached, noted.uncached⟩, fun hk i hd => ?memory, fun hk => ⟨t.any32, ?device, ?runs⟩⟩
  case memory => exact step_of_instructionOf_some hq (fetch_memory hl hn hk) (instructionOf_decoded _ hd)
  case device => exact fetch_device hl hn hk
  case runs => exact fun i hd => step_of_instructionOf_some hq (fetch_device hl hn hk) (instructionOf_decoded _ hd)

/-- Settles O7: in each of the three cases the interrupt wins, and its entry follows the draws of the test. -/
theorem interruptTaken : Obligations.InterruptTaken := by
  intro s hr hc hi hcase
  have hw : interruptWins s.dropInput = true := by
    obtain hp | ⟨hp, he⟩ | ⟨hp, he⟩ := hcase
    · exact interruptWins_interruptFirst s.dropInput hp
    · rw [interruptWins_instructionFirst s.dropInput hp, he]; rfl
    · rw [interruptWins_both s.dropInput hp, he]; rfl
  refine ⟨_, drawsOfInterrupt s.params.intPriority, step_of_interruptWins ⟨hr, hc, hi⟩ hw,
    entered_enterException _ .interrupt, fun hp => ?_, fun hp => ?_, fun hp => ?_⟩
  all_goals rw [hp]; rfl

/-- Settles O9: with IEc clear a step without a reset goes on to the instruction at `pc`, whatever irq is. -/
theorem interruptMaskedByIec : Obligations.InterruptMaskedByIec := by
  intro s r a b rest hc
  cases r with
  | true => rw [step_of_reset rfl, step_of_reset rfl]; rfl
  | false =>
    have quiet (irq : Bool) : State.quiet { s with inputs := { reset := false, irq := irq } :: rest } :=
      ⟨rfl, by rw [hc, Bool.false_and]⟩
    rw [step, step, beginStep_of_quiet (quiet a), beginStep_of_quiet (quiet b)]
    rfl

/-- Settles O10: the fetch raises the miss of `pc`, and the step enters it from the state with the signals consumed. -/
theorem fetchMissEntersException : Obligations.FetchMissEntersException := by
  intro s hq hl
  have hf : fetch s.dropInput = .error (.raise (.tlbMiss s.pc)) := fetch_of_miss (s := s.dropInput) hl
  exact ⟨_, step_of_fetch_error hq hf, entered_enterException s.dropInput (.tlbMiss s.pc)⟩

/-- Settles O13: the one entry, with the code and the BadVaddr of each exception (R252). -/
theorem exceptionEntry : Obligations.ExceptionEntry := fun s =>
  ⟨entered_enterException s .interrupt, fun va => entered_enterException s (.tlbMiss va),
    entered_enterException s .syscall, entered_enterException s .breakpoint⟩

/-- Settles O16: two pushes and two pops of the interrupt-enable stack. -/
theorem nestedEntryAndReturn : Obligations.NestedEntryAndReturn := by
  intro s e f a b hsr
  have hone : (s.enterException e).sr = { ieo := b, iep := true, iec := false } := by
    rw [State.enterException_sr, hsr]; rfl
  have htwo : ((s.enterException e).enterException f).sr = { ieo := true, iep := false, iec := false } := by
    rw [State.enterException_sr, hone]; rfl
  refine ⟨hone, htwo, _, _, rfl, ?_, rfl, ?_⟩
  · rw [State.advanceSeq_sr, State.popStatus_sr, htwo]; rfl
  · rw [State.advanceSeq_sr, State.popStatus_sr, State.advanceSeq_sr, State.popStatus_sr, htwo]; rfl

/-- Settles O6: the reset step is `State.resetStep` of the state with the signals consumed. -/
theorem resetStepClearsIecOnly : Obligations.ResetStepClearsIecOnly := fun _ h => step_of_reset h

end Sys2Proof.Machine
end

section
/-! Delayed branching and the return sequence (spec 60_exceptions R257, R265; 70_reset_and_hazards R297): what a jump or
branch leaves for the instruction in its delay slot, and where that instruction leaves control. -/

namespace Sys2Proof.Machine

/-! ## What a jump or branch leaves -/

/-- Control is at the delay slot, and after it at the target where `taken` holds and past the slot where not (R219). -/
structure Transfers (s t : State) (taken : Prop) (target : Word) : Prop where
  pc : t.pc = s.npc
  ds : t.ds = true
  npc_of_taken : taken → t.npc = target
  npc_of_not_taken : ¬ taken → t.npc = s.npc + 4#32

section Transfers
variable {s t v : State} {taken : Prop} {target : Word}

/-- From `v`, the state with any link written. -/
theorem transfers_advanceBranch {c : Bool} (hn : v.npc = s.npc) (hc : c = true ↔ taken) :
    Transfers s (v.advanceBranch c target) taken target where
  pc := hn
  ds := rfl
  npc_of_taken h := if_pos (hc.2 h)
  npc_of_not_taken h := by rw [State.advanceBranch_npc, if_neg (mt hc.1 h), hn]

theorem Transfers.of_jumpRegion {index : BitVec 26} (h : jumpRegion s v index = .next t) (hn : v.npc = s.npc)
    (ht : taken) : Transfers s t taken (jumpTarget s.pc index) := by
  obtain ⟨-, -, rfl⟩ := jumpRegion_eq_next h
  exact transfers_advanceBranch hn (iff_of_true rfl ht)

theorem Transfers.of_jumpRegister (h : jumpRegister s v target = .next t) (hn : v.npc = s.npc) (ht : taken) :
    Transfers s t taken target := by
  obtain ⟨-, -, rfl⟩ := jumpRegister_eq_next h
  exact transfers_advanceBranch hn (iff_of_true rfl ht)

theorem Transfers.of_branchIf {c : Bool} {p : Prop} {imm : BitVec 16} (h : branchIf s v c imm = .next t)
    (hn : v.npc = s.npc) (hc : c = true ↔ p) (ht : taken ↔ p) :
    Transfers s t taken (s.pc + 4#32 + BitVec.ofInt 32 (4 * imm.toInt)) := by
  obtain ⟨-, rfl⟩ := branchIf_eq_next h
  rw [branchTarget_eq_ofInt]
  exact transfers_advanceBranch hn (hc.trans ht.symm)

end Transfers

/-! ## The instruction in the delay slot -/

theorem writeControl_npc {s t : State} {c : Reg} {v : Word} (h : writeControl s c v = .ok t) : t.npc = s.npc := by
  obtain ⟨-, rfl⟩ | ⟨-, rfl⟩ | ⟨-, rfl⟩ | ⟨-, rfl⟩ | ⟨-, ⟨-, rfl⟩ | ⟨-, rfl⟩ | ⟨-, rfl⟩⟩ := writeControl_eq_ok h <;>
    rfl

/-- An instruction in a delay slot that answers a next state advances, or takes an exception: it is no jump (R219). -/
theorem exec_inDelaySlot {d : Instr} {t u : State} (hds : t.ds = true) (h : exec d t = .next u) :
    Sequential t u ∨ ∃ e, u = t.enterException e := by
  cases exec_cases h with
  | entered e _ hu => exact .inr ⟨e, hu⟩
  | jumped _ _ _ _ _ hout _ => rw [hds] at hout; contradiction
  | stored v _ hv hu => subst hu; exact .inl hv.sequential
  | control _ _ _ v _ hv hu =>
    have hn := writeControl_npc hv
    subst hu; exact .inl ⟨hn, congrArg (· + 4#32) hn, rfl⟩
  | register _ _ _ hu | hiLo _ _ _ _ hu | tlbRead _ hu | tlbWrite _ hu | popped _ hu =>
    subst hu; exact .inl ⟨rfl, rfl, rfl⟩

/-- Control after the delay slot: at the target where the jump was taken, past the slot where not. -/
def Resumes (s u : State) (taken : Prop) (target : Word) : Prop :=
  (taken → u.pc = target ∧ u.npc = target + 4#32) ∧ (¬ taken → u.pc = s.pc + 8#32 ∧ u.npc = s.pc + 12#32)

section Slot
variable {s t u : State} {taken : Prop} {target : Word}

theorem Transfers.resumes (h : Transfers s t taken target) (hs : s.npc = s.pc + 4#32) (hu : Sequential t u) :
    Resumes s u taken target := by
  refine ⟨fun ht => ?_, fun ht => ?_⟩
  · rw [hu.pc, hu.npc, h.npc_of_taken ht]
    exact ⟨rfl, rfl⟩
  · rw [hu.pc, hu.npc, h.npc_of_not_taken ht, hs, BitVec.add_assoc, BitVec.add_assoc]
    exact ⟨rfl, rfl⟩

/-- The exception of an instruction in a delay slot is to be returned from at the jump (R257). -/
theorem Transfers.restartPc (h : Transfers s t taken target) (hs : s.npc = s.pc + 4#32) : t.restartPc = s.pc := by
  rw [State.restartPc, if_pos h.ds, h.pc, hs, BitVec.add_sub_cancel]

end Slot

/-! ## JR -/

/-- JR jumps to the word address its register holds (R212). -/
theorem exec_jr_of_gpr {s : State} {rs : Reg} {target : Word} (hds : s.ds = false) (hg : s.gpr rs = target)
    (ha : target.extractLsb' 0 2 = 0#2) : exec (.jr rs) s = .next (s.advanceBranch true target) := by
  subst hg
  exact jumpRegister_eq hds (low_bits_zero_iff.1 ha)

/-! ## The statements -/

/-- Settles O48: each of the twelve leaves control in its delay slot, and the instruction there is no jump. -/
theorem delaySlotRunsBeforeTarget : Obligations.DelaySlotRunsBeforeTarget := by
  intro s t rs rt rd imm index i taken target v branch after hi hs hx
  have transfers : Transfers s t taken target := by
    obtain ⟨hregion, ht, rfl⟩ | ⟨hregister, ht, rfl⟩ | ⟨rfl, hbranch⟩ := hi
    · obtain rfl | rfl := hregion <;> exact .of_jumpRegion hx rfl ht
    · obtain rfl | rfl := hregister <;> exact .of_jumpRegister hx rfl ht
    · obtain ⟨rfl, ht⟩ | ⟨rfl, ht⟩ | ⟨rfl, ht⟩ | ⟨rfl, ht⟩ | ⟨rfl | rfl, ht⟩ | ⟨rfl | rfl, ht⟩ := hbranch
      · exact .of_branchIf hx rfl beq_iff_eq ht
      · exact .of_branchIf hx rfl bne_iff_ne ht
      all_goals exact .of_branchIf hx rfl decide_eq_true_iff ht
  refine ⟨transfers.pc.trans hs, transfers.ds, fun d u hd => ?any, fun a b c => ?addu⟩
  case any =>
    obtain hu | ⟨e, rfl⟩ := exec_inDelaySlot transfers.ds hd
    · exact ⟨hu.ds, .inl (transfers.resumes hs hu)⟩
    · exact ⟨rfl, .inr ⟨rfl, rfl, transfers.restartPc hs, transfers.ds⟩⟩
  case addu =>
    exact ⟨_, rfl, transfers.resumes hs ⟨rfl, rfl, rfl⟩, rfl, t.gpr_setGpr_self a _⟩

/-- Settles O17: JR reads the EPC that MFC0 put in its register, and RFE, in the slot, pops the stack and advances. -/
theorem returnSequenceResumes : Obligations.ReturnSequenceResumes := by
  intro s k hk hepc
  have hread : (s.setGpr k s.epc).advanceSeq.gpr k = s.epc := by
    rw [State.advanceSeq_gpr, s.gpr_setGpr_self, if_neg hk]
  exact ⟨_, _, _, exec_mfc0_of_read rfl, exec_jr_of_gpr rfl hread hepc, rfl, rfl, rfl, rfl, rfl,
    fun _ hr => s.gpr_setGpr_of_ne _ hr⟩

end Sys2Proof.Machine
end
